-- ==== Sys2Proof/Word.lean ====
section
/-! DEFINITION. The word types of waveGen CORE: bytes, 32-bit port and DMA words, control codes, encoder readings (spec R12, R22, R23, R38, R45). -/

namespace Sys2Proof

/-- One byte of `MEM`, of a `TXQ` and of the data lines (R22, R70). -/
abbrev Byte := BitVec 8

/-- A 32-bit register, address or transfer count (R10 `AW` = 32). -/
abbrev Word := BitVec 32

/-- The value on the three active-low control lines: bit 0 write-strobe, bit 1 signal chip-select,
bit 2 power chip-select (R23, R103). -/
abbrev Ctrl := BitVec 3

/-- The value on the two encoder lines (R41). -/
abbrev Lines := BitVec 2

end Sys2Proof
end

