-- ==== Sys2Proof/Config.lean ====
section
/-! DEFINITION. The configuration record (spec R10), its fixed constants, the configuration CFG-A of the
spec's test vectors, the events that choose the next step (R16, R245), and the one free value of the model. -/

namespace Sys2Proof

/-- `HANDOFF` (R10, D19): whether the Ring Control Block update and the re-arm are single steps. -/
inductive Handoff
  | atomic
  | split
  deriving DecidableEq, Repr

/-- `STALL_CTRL` (R10, R134): what the control lines do while `OUTB` waits for a byte. -/
inductive StallCtrl
  | hold
  | drive
  deriving DecidableEq, Repr

/-- A run of consecutive addresses that hold memory; `Backed` is the union of such runs (R10, R70). -/
structure Region where
  base : Nat
  size : Nat
  deriving DecidableEq, Repr

/-- The part of the configuration that belongs to one bus (R10): pins, state-machine id, the ids of the
DMA channels by role (R116), the address of the Ring Control Block. -/
structure BusConfig where
  dataBase : Nat
  ctrlBase : Nat
  smId     : Nat
  dmaData  : Nat
  dmaCount : Nat
  dmaAddr  : Nat
  rcbAddr  : Word
  deriving DecidableEq, Repr

/-- The configuration record of R10. `NBUS` is the length of `buses`. -/
structure Config where
  txqDepth  : Nat
  rxqDepth  : Nat
  handoff   : Handoff
  stallCtrl : StallCtrl
  prevReset : Lines
  lastReset : Lines
  buses     : List BusConfig
  encBase   : Nat
  qesSmId   : Nat
  backed    : List Region
  deriving DecidableEq, Repr

namespace Config

/-- `NBUS` (R10). -/
abbrev nbus (c : Config) : Nat := c.buses.length

/-- `CYCLES_PER_PAIR` (R10): state-machine cycles per sample pair. -/
abbrev cyclesPerPair : Nat := 4

/-- `F_MAX` (R10), in hertz. -/
abbrev fMax : Nat := 10000000

/-- CFG-A of the spec's test vectors (file 95, section 0). The spec leaves the pin numbers and the
channel ids of CFG-A open; the ones here only make it well-formed (log entry 2, DESIGN CHOICE). -/
def cfgA : Config where
  txqDepth := 4
  rxqDepth := 4
  handoff := .atomic
  stallCtrl := .hold
  prevReset := 0b00
  lastReset := 0b00
  buses := [
    { dataBase := 0, ctrlBase := 8, smId := 0, dmaData := 0, dmaCount := 1, dmaAddr := 2, rcbAddr := 0x20001000 },
    { dataBase := 11, ctrlBase := 19, smId := 1, dmaData := 3, dmaCount := 4, dmaAddr := 5, rcbAddr := 0x20001008 }]
  encBase := 22
  qesSmId := 2
  backed := [{ base := 0x20000000, size := 0x2000 }]

end Config

/-- Which agent takes the next step (R16, R244), with what the outside world brings to that step: the
host's operand and command writes (R200), the host's own byte accesses (R78), the encoder lines (R41). -/
inductive Event
  /-- A turn of `BPP[b]`. -/
  | bpp (b : Nat)
  /-- A turn of `DATA[b]`: `DXFER`. -/
  | data (b : Nat)
  /-- A turn of `RCNT[b]`: `RCNTX` under `split`, `REARM` under `atomic`. -/
  | rcnt (b : Nat)
  /-- A turn of `RADDR[b]`: `RADDRX` under `split`. -/
  | raddr (b : Nat)
  /-- A turn of `QES`. -/
  | qes
  /-- `HOST` writes those of `ARG0..ARG2` that are given, writes `cmd` to `CMD`, and takes the
  command's first step (R200). -/
  | issue (arg0 arg1 arg2 : Option Word) (cmd : Word)
  /-- `HOST` takes the next step of the command recorded in `HSTATE` (R47). -/
  | hostLoop
  /-- `HOST` stores one byte: `MEMWR a, v` (R78). -/
  | memwr (a : Word) (v : Byte)
  /-- `HOST` loads one byte: `MEMRD a` (R78). -/
  | memrd (a : Word)
  /-- `ENV` sets the encoder lines (R16, R154). -/
  | env (lines : Lines)
  deriving DecidableEq, Repr, Inhabited

/-- The model's one free value: the agent the outside world lets step at the `n`-th choice that
`State.script` does not settle (R245: any enabled agent may step next). It has no body; nothing can be
proved about its values (log entry 3). -/
opaque Config.freeEvent : Nat → Event

end Sys2Proof
end

