-- ==== Sys2Proof/Syntax.lean ====
section
/-! DEFINITION. The instructions of the opcode table (spec R100, R121), the agents that run them, the
registers of the register map (R48), the status codes (R117) and the image of a microprogram ROM (R104). -/

namespace Sys2Proof

/-- The eight encoded instructions: three microwords (format M) and five command words (format H). -/
inductive Instr
  /-- `NOPC c` (R133). -/
  | nopc (ctrl : Ctrl)
  /-- `OUTB c` (R132). -/
  | outb (ctrl : Ctrl)
  /-- `SNP` (R151). -/
  | snp
  /-- `PLAY b` (R202). -/
  | play (bus : BitVec 4)
  /-- `SWAP b` (R203). -/
  | swap (bus : BitVec 4)
  /-- `UPDPWR b` (R204). -/
  | updpwr (bus : BitVec 4)
  /-- `DRAIN` (R163). -/
  | drain
  /-- `RDREG b, r` (R205). -/
  | rdreg (bus : BitVec 4) (reg : BitVec 12)
  deriving DecidableEq, Repr

/-- Which kind of agent executes an instruction (the last column of R100's table). -/
inductive Executor
  | bpp
  | qes
  | host
  deriving DecidableEq, Repr

/-- The registers `RDREG` can name (R48). -/
inductive Reg
  | smStatus
  | smFreq
  | sampleRate
  | pins
  | dataReadAddr
  | dataTransCount
  | dmaStatus
  | activeBase
  | curAddr
  | curLen
  | rcbAddr
  | qesStatus
  | dropCount
  | acc
  deriving DecidableEq, Repr

/-- The status codes of `STATUS` (R117). -/
inductive Status
  | ok
  | invalidBufferLength
  | invalidCommand
  deriving DecidableEq, Repr

/-- The four microwords of a Bus Protocol Program, by index (R104). -/
structure BppRom where
  w0 : BitVec 8
  w1 : BitVec 8
  w2 : BitVec 8
  w3 : BitVec 8
  deriving DecidableEq, Repr

/-- What a decoder reads: a microword (format M, R101) or a command word (format H, R108). -/
inductive CodeWord
  | micro (w : BitVec 8)
  | cmd (w : Word)
  deriving DecidableEq, Repr

/-- Why a word is not an instruction (R107 for format M, R113 for format H). -/
inductive DecodeError
  /-- Microword with bit 7 or bit 3 set. -/
  | microReservedBit
  /-- Microword with `UOP` 3 to 7. -/
  | microReservedUop
  /-- `SNP` with a non-zero `CTRL` field. -/
  | snpControlCode
  /-- Command word with `OP` 0 or 6 to 15. -/
  | cmdReservedOp
  /-- Command word with bits 23:12 not zero. -/
  | cmdNonzeroPad
  /-- Command word other than `RDREG` with `REG` not zero. -/
  | cmdNonzeroReg
  /-- `DRAIN` with `BUS` not zero. -/
  | drainNonzeroBus
  deriving DecidableEq, Repr

end Sys2Proof
end

