-- ==== Sys2Proof/Decode.lean ====
section
/-! DEFINITION. The decoder of format M and format H, total on every word and rejecting by name, then the
encoder, written from the same tables (spec R101, R102, R107 to R109, R113); the register numbers (R48);
the ROM images (R104, R105). -/

namespace Sys2Proof

/-! ## Fields -/

/-- `UOP`, bits 6:4 of a microword (R101). -/
def microUop (w : BitVec 8) : BitVec 3 := w.extractLsb' 4 3

/-- `CTRL`, bits 2:0 of a microword (R101). -/
def microCtrl (w : BitVec 8) : Ctrl := w.extractLsb' 0 3

/-- `OP`, bits 31:28 of a command word (R108). -/
def cmdOp (w : Word) : BitVec 4 := w.extractLsb' 28 4

/-- `BUS`, bits 27:24 of a command word (R108). -/
def cmdBus (w : Word) : BitVec 4 := w.extractLsb' 24 4

/-- Bits 23:12 of a command word, which must be zero (R108). -/
def cmdPad (w : Word) : BitVec 12 := w.extractLsb' 12 12

/-- `REG`, bits 11:0 of a command word (R108). -/
def cmdReg (w : Word) : BitVec 12 := w.extractLsb' 0 12

/-! ## Decoding -/

/-- Decoding of a microword (R101, R102, R107). -/
def decodeMicro (w : BitVec 8) : Except DecodeError Instr :=
  if w.getLsbD 7 || w.getLsbD 3 then .error .microReservedBit
  else if microUop w = 0b000 then .ok (.nopc (microCtrl w))
  else if microUop w = 0b001 then .ok (.outb (microCtrl w))
  else if microUop w = 0b010 then
    if microCtrl w = 0b000 then .ok .snp else .error .snpControlCode
  else .error .microReservedUop

/-- Decoding of a command word, as far as its bits decide (R108, R109, R113); the checks of R111 and R112
need the configuration and the register map and are made by the commands. -/
def decodeCmd (w : Word) : Except DecodeError Instr :=
  if cmdPad w ≠ 0 then .error .cmdNonzeroPad
  else if cmdOp w = 0x5 then .ok (.rdreg (cmdBus w) (cmdReg w))
  else if cmdOp w = 0x1 ∨ cmdOp w = 0x2 ∨ cmdOp w = 0x3 ∨ cmdOp w = 0x4 then
    if cmdReg w ≠ 0 then .error .cmdNonzeroReg
    else if cmdOp w = 0x1 then .ok (.play (cmdBus w))
    else if cmdOp w = 0x2 then .ok (.swap (cmdBus w))
    else if cmdOp w = 0x3 then .ok (.updpwr (cmdBus w))
    else if cmdBus w = 0 then .ok .drain else .error .drainNonzeroBus
  else .error .cmdReservedOp

/-- The decoder of both formats. -/
def decode : CodeWord → Except DecodeError Instr
  | .micro w => decodeMicro w
  | .cmd w => decodeCmd w

/-! ## Encoding -/

/-- The word of an instruction (R101, R102, R108, R109). -/
def encode : Instr → CodeWord
  | .nopc c => .micro (0b00000#5 ++ c)
  | .outb c => .micro (0b00010#5 ++ c)
  | .snp => .micro 0x20
  | .play b => .cmd (0x1#4 ++ b ++ 0#24)
  | .swap b => .cmd (0x2#4 ++ b ++ 0#24)
  | .updpwr b => .cmd (0x3#4 ++ b ++ 0#24)
  | .drain => .cmd 0x40000000
  | .rdreg b r => .cmd (0x5#4 ++ b ++ 0#12 ++ r)

/-- Which agent executes an instruction (R100). -/
def Instr.executor : Instr → Executor
  | .nopc _ => .bpp
  | .outb _ => .bpp
  | .snp => .qes
  | .play _ => .host
  | .swap _ => .host
  | .updpwr _ => .host
  | .drain => .host
  | .rdreg _ _ => .host

/-- The `nbits`-bit word `w` of the opcode table as a code word: 8 bits are a microword, 32 bits a command
word, no other length exists (R120). -/
def tableCodeWord (nbits w : Nat) : Option CodeWord :=
  if nbits = 8 then some (.micro (BitVec.ofNat 8 w))
  else if nbits = 32 then some (.cmd (BitVec.ofNat 32 w))
  else none

/-- The instruction the decoder reads from a word of the opcode table. -/
def decodeTableWord (nbits w : Nat) : Option Instr :=
  match tableCodeWord nbits w with
  | some c => (decode c).toOption
  | none => none

/-! ## Register numbers -/

/-- The register a 12-bit register number names (R48); every other number is undefined. -/
def regOf (r : BitVec 12) : Option Reg :=
  if r = 0x000 then some .smStatus
  else if r = 0x001 then some .smFreq
  else if r = 0x002 then some .sampleRate
  else if r = 0x003 then some .pins
  else if r = 0x004 then some .dataReadAddr
  else if r = 0x005 then some .dataTransCount
  else if r = 0x006 then some .dmaStatus
  else if r = 0x007 then some .activeBase
  else if r = 0x008 then some .curAddr
  else if r = 0x009 then some .curLen
  else if r = 0x00A then some .rcbAddr
  else if r = 0x100 then some .qesStatus
  else if r = 0x101 then some .dropCount
  else if r = 0x102 then some .acc
  else none

/-- The scope column of R48's table. -/
def Reg.isGlobal : Reg → Bool
  | .smStatus => false
  | .smFreq => false
  | .sampleRate => false
  | .pins => false
  | .dataReadAddr => false
  | .dataTransCount => false
  | .dmaStatus => false
  | .activeBase => false
  | .curAddr => false
  | .curLen => false
  | .rcbAddr => false
  | .qesStatus => true
  | .dropCount => true
  | .acc => true

/-- The numeric codes of `STATUS` (R117). -/
def Status.code : Status → Word
  | .ok => 0
  | .invalidBufferLength => 1
  | .invalidCommand => 2

/-! ## The microprogram ROMs -/

/-- `BPP_ROM` (R104): `OUTB 0b100`, `NOPC 0b111`, `OUTB 0b010`, `NOPC 0b111`. -/
def bppRomImage : BppRom := { w0 := 0x14, w1 := 0x07, w2 := 0x12, w3 := 0x07 }

/-- `QES_ROM[0]` (R105): `SNP`. -/
def qesRomImage : BitVec 8 := 0x20

/-- The microword at index `p` (R106). -/
def BppRom.fetch (r : BppRom) (p : BitVec 2) : BitVec 8 :=
  if p = 0 then r.w0 else if p = 1 then r.w1 else if p = 2 then r.w2 else r.w3

/-- The image with the microword `w` at index `p`. -/
def BppRom.place (r : BppRom) (p : BitVec 2) (w : BitVec 8) : BppRom :=
  if p = 0 then { r with w0 := w } else if p = 1 then { r with w1 := w }
  else if p = 2 then { r with w2 := w } else { r with w3 := w }

end Sys2Proof
end

