-- ==== Sys2Proof/Machine/State.lean ====
section
/-! DEFINITION. The state of waveGen CORE as plain data (spec R20 to R47), the reasons a step can stop, and the
state after reset (R54). -/

namespace Sys2Proof.Machine

/-- `MEM` (R70) as a list of listed bytes; its canonical form is `Memory.wf`, in Ops. -/
abbrev Memory := List Host.Cell

/-- `HSTATE` (R47): the progress of the command being executed. -/
inductive HState
  | idle
  /-- A `SWAP` under `split` that still has `next_count` to write. -/
  | swap2 (b : Nat) (len : Word)
  /-- An `UPDPWR` that still has the power bytes from index `i` up to write. -/
  | updpwr (b : Nat) (i : Nat) (v : Byte)
  /-- A `DRAIN` that is looping. -/
  | drain
  deriving DecidableEq, Repr

/-- Why the machine stops with a fault. -/
inductive Fault
  /-- A host byte access (`UPDPWR`'s write, `MEMWR`, `MEMRD`) to an address outside `Backed`. The spec gives
  it no step and calls the host stuck (R76, R248). Raised by the meaning of `UPDPWR`, its loop step, and the
  host's `MEMWR` and `MEMRD` steps. Safe: the machine stops where the spec describes no run. -/
  | hostUnbacked
  deriving DecidableEq, Repr

/-- Why the machine refuses a step. -/
inductive Refusal
  /-- An instruction this model gives no meaning. Raised by no arm of `exec`. Safe. -/
  | notModelled (mnemonic : String)
  /-- The configuration is not well-formed: the spec's rules do not apply and a model refuses it (R11, R80).
  Raised by `nextAction` and by a Ring Control Block access that R76 says cannot fail. Safe. -/
  | illFormedConfig
  /-- A ROM image holds a reserved microword: refused as R107 says. Raised by `nextAction`. Safe. -/
  | reservedMicroword
  /-- A ROM image holds an instruction its agent does not execute (R100): it is not the program of R104 or
  R105. Raised by `nextAction`. Safe. -/
  | foreignMicroword
  deriving DecidableEq, Repr

/-- The state of one bus: Bus Protocol Program (R21 to R28), DMA ring (R29 to R35), facade (R36), and the
external-DAC observer (R141). -/
structure Bus where
  phase          : BitVec 2
  dout           : Byte
  ctrl           : Ctrl
  txq            : List Byte
  smEn           : Bool
  smFreq         : Word
  sampleRate     : Word
  rateClamped    : Bool
  dataReadAddr   : Word
  dataTransCount : Word
  dataBusy       : Bool
  activeBase     : Word
  rcntPend       : Bool
  raddrPend      : Bool
  busFault       : Bool
  zeroCountFault : Bool
  curAddr        : Word
  curLen         : Word
  /-- `DAC_SIG` of the observer: the byte of the latest latch event, `none` before any (R141, U19). -/
  dacSig         : Option Byte
  /-- `DAC_PWR` of the observer. -/
  dacPwr         : Option Byte
  deriving DecidableEq, Repr

/-- A bus after reset (R54, R261). -/
def Bus.reset : Bus where
  phase := 0
  dout := 0x00
  ctrl := 0b111
  txq := []
  smEn := false
  smFreq := 0
  sampleRate := 0
  rateClamped := false
  dataReadAddr := 0
  dataTransCount := 0
  dataBusy := false
  activeBase := 0
  rcntPend := false
  raddrPend := false
  busFault := false
  zeroCountFault := false
  curAddr := 0
  curLen := 0
  dacSig := none
  dacPwr := none

end Sys2Proof.Machine

namespace Sys2Proof.Machine

/-- The state of the machine. `cfg`, `bppRom` and `qesRom` are the parameters of the step relation (R20), held
here so that a claim over every state is a claim over every configuration; no step writes them. `encIn` is the
input of R41. `script`, `tick`, `curBus` and `memrdOut` are the model's own. -/
structure State where
  /-- The configuration record (R10). -/
  cfg       : Config
  /-- `BPP_ROM` (R104). -/
  bppRom    : BppRom
  /-- `QES_ROM[0]` (R105). -/
  qesRom    : BitVec 8
  /-- The buses, by bus index. -/
  buses     : List Bus
  /-- `PREV` (R38). -/
  prev      : Lines
  /-- `RXQ` (R39), oldest first. -/
  rxq       : List Lines
  /-- `DROP_COUNT` (R40). -/
  dropCount : Word
  /-- `LAST` (R42). -/
  last      : Lines
  /-- `ACC` (R43). -/
  acc       : Word
  /-- `ARG0` (R45). -/
  arg0      : Word
  /-- `ARG1` (R45). -/
  arg1      : Word
  /-- `ARG2` (R45). -/
  arg2      : Word
  /-- `CMD` (R46). -/
  cmd       : Word
  /-- `STATUS` (R46). -/
  status    : Word
  /-- `RESULT` (R46). -/
  result    : Word
  /-- `HSTATE` (R47). -/
  hstate    : HState
  /-- `MEM` (R70), the Ring Control Blocks (R37) included. -/
  mem       : Memory
  /-- `ENC_IN` (R41): the value `ENV` last put on the encoder lines. -/
  encIn     : Lines
  /-- The choices of the outside world that are already settled, next one first (R245). -/
  script    : List Event
  /-- How many choices were drawn from `Config.freeEvent`. -/
  tick      : Nat
  /-- The bus whose state machine takes the current step (R16). -/
  curBus    : Nat
  /-- The byte the last `MEMRD` returned to the host (R78). -/
  memrdOut  : Byte
  deriving DecidableEq, Repr

/-- The state after reset (R54, R260) of a block with configuration `cfg`, with `mem` as the arbitrary memory of
R262 and `enc` as the arbitrary encoder position of R41. -/
def State.resetWith (cfg : Config) (mem : Memory) (enc : Lines) : State where
  cfg := cfg
  bppRom := bppRomImage
  qesRom := qesRomImage
  buses := List.replicate cfg.nbus Bus.reset
  prev := cfg.prevReset
  rxq := []
  dropCount := 0
  last := cfg.lastReset
  acc := 0
  arg0 := 0
  arg1 := 0
  arg2 := 0
  cmd := 0
  status := 0
  result := 0
  hstate := .idle
  mem := mem
  encIn := enc
  script := []
  tick := 0
  curBus := 0
  memrdOut := 0

/-- The state after reset of the block with configuration CFG-A, no byte of memory listed and the encoder lines
at 0b00 (log entries 2, 4 and 5 say which of these the spec does not give). -/
def State.reset : State := State.resetWith Config.cfgA [] 0b00

end Sys2Proof.Machine
end

