-- ==== Sys2Proof/Machine/Setup.lean ====
section
/-! DEFINITION. What a configuration means: `Backed` (spec R14, R70), the Ring Control Block addresses (R77), the
well-formedness of a configuration (R11) and of the ROM images (R107), the pins (R58, R140). -/

namespace Sys2Proof.Machine

/-- Whether an address lies in a region. -/
def regionHolds (a : Nat) (r : Region) : Bool := decide (r.base ≤ a ∧ a < r.base + r.size)

/-- `Backed(a, 1)` (R14). -/
def backedByte (cfg : Config) (a : Nat) : Bool :=
  decide (a < 2 ^ 32) && cfg.backed.any (regionHolds a)

/-- `Backed(a, n)` (R14): every byte of `a .. a+n-1` is in `Backed` and none lies past the address space. -/
def backedRange (cfg : Config) (a n : Nat) : Bool :=
  decide (a + n ≤ 2 ^ 32) && (List.range n).all fun i => backedByte cfg (a + i)

/-- `RCB_ADDR[b]` (R10) as a byte address. -/
def rcbAddr (cfg : Config) (b : Nat) : Nat :=
  match cfg.buses[b]? with
  | some k => k.rcbAddr.toNat
  | none => 0

/-- A list of numbers holds none twice. -/
def allDistinct : List Nat → Bool
  | [] => true
  | a :: l => !l.elem a && allDistinct l

/-- The pins of a bus: eight data lines, then three control lines (R58). -/
def busPins (k : BusConfig) : List Nat :=
  ((List.range 8).map (k.dataBase + ·)) ++ ((List.range 3).map (k.ctrlBase + ·))

/-- R11: the record of a bus is 4-aligned and backed. -/
def rcbWf (cfg : Config) (k : BusConfig) : Bool :=
  decide (k.rcbAddr.toNat % 4 = 0) && backedRange cfg k.rcbAddr.toNat 8

/-- R11: no two records overlap. Both are aligned, so they overlap exactly when they share a word. -/
def rcbWords (k : BusConfig) : List Nat := [k.rcbAddr.toNat, k.rcbAddr.toNat + 4]

/-- Well-formedness of a configuration: R11, with `NBUS` from 1 to 16 (R10, R111) and the queue depths from 1
to 255 (R10, R49, R52). -/
def cfgWf (cfg : Config) : Bool :=
  decide (1 ≤ cfg.nbus ∧ cfg.nbus ≤ 16)
  && decide (1 ≤ cfg.txqDepth ∧ cfg.txqDepth ≤ 255)
  && decide (1 ≤ cfg.rxqDepth ∧ cfg.rxqDepth ≤ 255)
  && cfg.buses.all (rcbWf cfg)
  && allDistinct (cfg.buses.flatMap rcbWords)
  && allDistinct (cfg.buses.flatMap busPins ++ [cfg.encBase, cfg.encBase + 1])
  && allDistinct (cfg.buses.map (·.smId) ++ [cfg.qesSmId])
  && allDistinct (cfg.buses.flatMap fun k => [k.dmaData, k.dmaCount, k.dmaAddr])

/-- R107: a microword that is not reserved. -/
def microwordOk (w : BitVec 8) : Bool :=
  match decode (.micro w) with
  | .ok _ => true
  | .error _ => false

/-- R107: no ROM image holds a reserved microword. -/
def romsOk (s : State) : Bool :=
  microwordOk s.bppRom.w0 && microwordOk s.bppRom.w1 && microwordOk s.bppRom.w2 && microwordOk s.bppRom.w3
    && microwordOk s.qesRom

/-! ## DMA roles (R116, R191) -/

/-- The three descriptor slots of a bus, by role. -/
inductive DmaRole
  | data
  | countRearm
  | addrRearm
  deriving DecidableEq, Repr

/-- The role indices of R116. -/
def DmaRole.index : DmaRole → Nat
  | .data => 0
  | .countRearm => 1
  | .addrRearm => 2

/-- `DMA_CH[b][k]` (R116). -/
def dmaChannel (k : BusConfig) : DmaRole → Nat
  | .data => k.dmaData
  | .countRearm => k.dmaCount
  | .addrRearm => k.dmaAddr

/-- Whether a slot is armed: the third item of each slot of R191. -/
def slotArmed (x : Bus) : DmaRole → Bool
  | .data => x.dataBusy
  | .countRearm => x.rcntPend
  | .addrRearm => x.raddrPend

/-- The address a slot reads next (R175, R191). -/
def slotReads (k : BusConfig) (x : Bus) : DmaRole → Nat
  | .data => x.dataReadAddr.toNat
  | .countRearm => k.rcbAddr.toNat + 4
  | .addrRearm => k.rcbAddr.toNat

/-! ## Pins (R58, R140) -/

/-- The level a bus drives on a pin, if the pin is one of its eleven lines. -/
def busPinLevel (k : BusConfig) (x : Bus) (pin : Nat) : Option Bool :=
  if k.dataBase ≤ pin ∧ pin < k.dataBase + 8 then some (x.dout.getLsbD (pin - k.dataBase))
  else if k.ctrlBase ≤ pin ∧ pin < k.ctrlBase + 3 then some (x.ctrl.getLsbD (pin - k.ctrlBase))
  else none

/-- The level on a pin: driven by the bus that owns it, or by the outside on the two encoder pins (R41, R58). -/
def pinLevel (s : State) (pin : Nat) : Option Bool :=
  if pin = s.cfg.encBase then some (s.encIn.getLsbD 0)
  else if pin = s.cfg.encBase + 1 then some (s.encIn.getLsbD 1)
  else (s.cfg.buses.zip s.buses).findSome? fun kx => busPinLevel kx.1 kx.2 pin

end Sys2Proof.Machine
end

