-- ==== Sys2Proof/Machine/Ops.lean ====
section
/-! DEFINITION. The named operations over memory (spec R72 to R77), over the buses, over the pins (R141), the end of
a command with its code (R200, R236: the block's `raise`), and the queues (R15). -/

namespace Sys2Proof.Machine

/-! ## Memory -/

/-- What an address no entry lists reads as: the fixed byte of log entry 4 (DESIGN CHOICE). -/
def unlisted : Byte := 0x00

/-- The byte at an address. -/
def Memory.read : Memory → Nat → Byte
  | [], _ => unlisted
  | (k, v) :: m, a => if k = a then v else Memory.read m a

/-- The memory with the byte at `a` set to `v`, in canonical form when the given one is. -/
def Memory.write : Memory → Nat → Byte → Memory
  | [], a, v => if v = unlisted then [] else [(a, v)]
  | (k, w) :: m, a, v =>
    if a < k then (if v = unlisted then (k, w) :: m else (a, v) :: (k, w) :: m)
    else if a = k then (if v = unlisted then m else (a, v) :: m)
    else (k, w) :: Memory.write m a v

/-- The canonical form above a bound: keys rising from `lo` on, inside the address space, no byte listed that an
unlisted address reads as. -/
def Memory.wfFrom : Nat → Memory → Bool
  | _, [] => true
  | lo, (k, v) :: m => decide (lo ≤ k ∧ k < 2 ^ 32) && decide (v ≠ unlisted) && Memory.wfFrom (k + 1) m

/-- The canonical form of memory. -/
def Memory.wf (m : Memory) : Bool := Memory.wfFrom 0 m

/-- The little-endian word at `a`, without the checks of R73. -/
def Memory.readWord (m : Memory) (a : Nat) : Word :=
  m.read (a + 3) ++ m.read (a + 2) ++ m.read (a + 1) ++ m.read a

/-- The memory with the little-endian word at `a` set to `v`, without the checks of R75. -/
def Memory.writeWord (m : Memory) (a : Nat) (v : Word) : Memory :=
  (((m.write a (v.extractLsb' 0 8)).write (a + 1) (v.extractLsb' 8 8)).write (a + 2) (v.extractLsb' 16 8)).write
    (a + 3) (v.extractLsb' 24 8)

/-- `MemRead(a, 1)` (R72). -/
def memReadByte (cfg : Config) (m : Memory) (a : Nat) : Option Byte :=
  if backedByte cfg a then some (m.read a) else none

/-- `MemWrite(a, 1, v)` (R74). -/
def memWriteByte (cfg : Config) (m : Memory) (a : Nat) (v : Byte) : Option Memory :=
  if backedByte cfg a then some (m.write a v) else none

/-- The requirement of a word access (R73, R75). -/
def wordAccess (cfg : Config) (a : Nat) : Bool := decide (a % 4 = 0) && backedRange cfg a 4

/-- `MemRead(a, 4)` (R73). -/
def memReadWord (cfg : Config) (m : Memory) (a : Nat) : Option Word :=
  if wordAccess cfg a then some (m.readWord a) else none

/-- `MemWrite(a, 4, v)` (R75). -/
def memWriteWord (cfg : Config) (m : Memory) (a : Nat) (v : Word) : Option Memory :=
  if wordAccess cfg a then some (m.writeWord a v) else none

/-- Both words of the Ring Control Block of bus `b`, `next_address` first (R77). -/
def writeRcb (cfg : Config) (m : Memory) (b : Nat) (addr len : Word) : Option Memory :=
  match memWriteWord cfg m (rcbAddr cfg b) addr with
  | none => none
  | some m' => memWriteWord cfg m' (rcbAddr cfg b + 4) len

/-! ## Buses -/

/-- Bus `b`. -/
def State.bus (s : State) (b : Nat) : Bus := s.buses.getD b Bus.reset

/-- The state with bus `b` replaced; a bus that does not exist is not written. -/
def State.setBus (s : State) (b : Nat) (x : Bus) : State := { s with buses := s.buses.set b x }

/-! ## Pins and the external-DAC observer (R141) -/

/-- The two external DACs of a bus. -/
inductive Dac
  | sig
  | pwr
  deriving DecidableEq, Repr

/-- The control bit that is a DAC's chip-select (R103). -/
def Dac.select : Dac → Nat
  | .sig => 1
  | .pwr => 2

/-- A change of the control lines latches a DAC when write-strobe and its select were both low and one of the
two is high after (R141). -/
def latches (d : Dac) (old new : Ctrl) : Bool :=
  (!old.getLsbD 0 && !old.getLsbD d.select) && (new.getLsbD 0 || new.getLsbD d.select)

/-- The latch events of a step that changes the control lines of a bus to `c` (R141). -/
def latchEvents (x : Bus) (c : Ctrl) : List (Dac × Byte) :=
  (if latches .sig x.ctrl c then [(Dac.sig, x.dout)] else [])
    ++ (if latches .pwr x.ctrl c then [(Dac.pwr, x.dout)] else [])

/-- Drive the data lines with `d` and the control lines with `c` in one step (D32), the observer looking on. -/
def Bus.drive (x : Bus) (d : Byte) (c : Ctrl) : Bus :=
  { x with
    dout := d
    ctrl := c
    dacSig := if latches .sig x.ctrl c then some x.dout else x.dacSig
    dacPwr := if latches .pwr x.ctrl c then some x.dout else x.dacPwr }

/-- The microprogram counter of a step that completes (R106). -/
def Bus.advance (x : Bus) : Bus := { x with phase := x.phase + 1 }

/-! ## Ending a command -/

/-- A command ends: `STATUS` holds its code, `HSTATE` is idle (R200). With a rejection code this is the block's
whole exception mechanism, `raise E`: nothing else changes, nothing is saved and nothing returns (R236, R239). -/
def State.finish (s : State) (c : Status) : State := { s with status := c.code, hstate := .idle }

end Sys2Proof.Machine
end

