-- ==== Sys2Proof/Machine/Flags.lean ====
section
/-! DEFINITION. The flags, counters and derived signals the steps compute (spec R55, R137 to R139, R201, R233). -/

namespace Sys2Proof.Machine

/-- The effective state-machine frequency: `min(4 r, F_MAX)` over unbounded naturals (R137). -/
def effectiveFreq (rate : Word) : Word := BitVec.ofNat 32 (min (4 * rate.toNat) Config.fMax)

/-- `RATE_CLAMPED` (R138). -/
def clampedRate (rate : Word) : Bool := decide (4 * rate.toNat > Config.fMax)

/-- `DREQ[b]` (R139). -/
def dreq (cfg : Config) (x : Bus) : Bool := decide (x.txq.length < cfg.txqDepth)

/-- The length a command rejects: zero or odd (R201, R231). -/
def badLength (len : Word) : Bool := len == 0 || len.getLsbD 0

/-- A sticky fault flag is set: no DMA step of the bus is enabled (R233). -/
def dmaHalted (x : Bus) : Bool := x.busFault || x.zeroCountFault

/-- `BPP[b]` has a step (R131). -/
def bppEnabled (x : Bus) : Bool := x.smEn && x.smFreq != 0

/-- `DXFER` is enabled (R176). -/
def dxferEnabled (cfg : Config) (x : Bus) : Bool :=
  x.dataBusy && x.dataTransCount != 0 && dreq cfg x && !dmaHalted x

/-- `RCNTX` or `REARM`, whichever `HANDOFF` selects, is enabled (R178, R180). -/
def rcntEnabled (x : Bus) : Bool := x.rcntPend && !dmaHalted x

/-- `RADDRX` is enabled (R179). -/
def raddrEnabled (cfg : Config) (x : Bus) : Bool := cfg.handoff == .split && x.raddrPend && !dmaHalted x

end Sys2Proof.Machine
end

