-- ==== Sys2Proof/Machine/Operands.lean ====
section
/-! DEFINITION. The operands of the commands (spec R110), the clamp of `UPDPWR` (R204), the transition table (R114,
R161) and the values `RDREG` reads (R48 to R52). -/

namespace Sys2Proof.Machine

/-- The buffer address operand of `PLAY` and `SWAP` (R110). -/
def State.bufAddr (s : State) : Word := s.arg0

/-- The buffer length operand of `PLAY` and `SWAP` (R110). -/
def State.bufLen (s : State) : Word := s.arg1

/-- The sample rate operand of `PLAY` (R110). -/
def State.rate (s : State) : Word := s.arg2

/-- The level operand of `UPDPWR`, clamped: `clamp(signed(x[0]), 0, 255)` (R204). -/
def clampLevel (x : Word) : Byte := BitVec.ofNat 8 (max 0 (min x.toInt 255)).toNat

/-- The bus operand names an existing bus (R111). -/
def State.hasBus (s : State) (b : Nat) : Bool := decide (b < s.cfg.nbus)

/-- The address `UPDPWR` writes at index `i` of the retained buffer (R204, R212). -/
def powerAddr (x : Bus) (i : Nat) : Nat := (x.curAddr.toNat + i) % 2 ^ 32

/-! ## The transition table -/

/-- `DELTA_ROM`, packed (R114). -/
def deltaRom : Word := 0x1CC14334

/-- The index `{last, new}` (R114). -/
def deltaIndex (last new : Lines) : BitVec 4 := last ++ new

/-- `sext_32(DELTA_ROM[idx])` (R164). -/
def delta (idx : BitVec 4) : Word := (deltaRom.extractLsb' (2 * idx.toNat) 2).signExtend 32

/-! ## Register values -/

/-- One bit of a register field. -/
def bit (b : Bool) : BitVec 1 := BitVec.ofBool b

/-- `SM_STATUS[b]` (R49). -/
def smStatusWord (x : Bus) : Word :=
  0#16 ++ BitVec.ofNat 8 x.txq.length ++ 0#4 ++ bit x.rateClamped ++ x.phase ++ bit x.smEn

/-- `PINS[b]` (R50). -/
def pinsWord (x : Bus) : Word := 0#21 ++ x.ctrl ++ x.dout

/-- `DMA_STATUS[b]` (R51). -/
def dmaStatusWord (x : Bus) : Word :=
  0#27 ++ bit x.zeroCountFault ++ bit x.busFault ++ bit x.raddrPend ++ bit x.rcntPend ++ bit x.dataBusy

/-- `QES_STATUS` (R52). -/
def qesStatusWord (s : State) : Word :=
  0#16 ++ BitVec.ofNat 8 s.rxq.length ++ 0#4 ++ s.last ++ s.prev

/-- The value of a register, of bus `b` if it is per bus (R48). -/
def regValue (s : State) (b : Nat) : Reg → Word
  | .smStatus => smStatusWord (s.bus b)
  | .smFreq => (s.bus b).smFreq
  | .sampleRate => (s.bus b).sampleRate
  | .pins => pinsWord (s.bus b)
  | .dataReadAddr => (s.bus b).dataReadAddr
  | .dataTransCount => (s.bus b).dataTransCount
  | .dmaStatus => dmaStatusWord (s.bus b)
  | .activeBase => (s.bus b).activeBase
  | .curAddr => (s.bus b).curAddr
  | .curLen => (s.bus b).curLen
  | .rcbAddr => BitVec.ofNat 32 (rcbAddr s.cfg b)
  | .qesStatus => qesStatusWord s
  | .dropCount => s.dropCount
  | .acc => s.acc

/-- What `RDREG b, r` reads; nothing where R205 rejects it. -/
def readReg (s : State) (b : Nat) (r : BitVec 12) : Option Word :=
  match regOf r with
  | none => none
  | some reg => if s.hasBus b && (!reg.isGlobal || b == 0) then some (regValue s b reg) else none

end Sys2Proof.Machine
end

