-- ==== Sys2Proof/Machine/BusProtocol.lean ====
section
/-! DEFINITION. The micro-instructions of the Bus Protocol Program, `NOPC` and `OUTB` (spec R132 to R134), as steps of
`BPP[curBus]`. The agent takes the step only when R131 enables it (Agents). -/

namespace Sys2Proof.Machine

/-- `NOPC c` (R133): drive the code, keep the data, go on to the next microword. -/
def execNopc (c : Ctrl) (s : State) : Host.Outcome State Fault Refusal :=
  let x := s.bus s.curBus
  .next (s.setBus s.curBus (x.drive x.dout c).advance)

/-- The bus after a stalled `OUTB c` (R134). -/
def stalled (k : StallCtrl) (c : Ctrl) (x : Bus) : Bus :=
  match k with
  | .hold => x
  | .drive => x.drive x.dout c

/-- The bus after `OUTB c` (R132). -/
def outbBus (k : StallCtrl) (c : Ctrl) (x : Bus) : Bus :=
  match x.txq with
  | v :: q => { x.drive v c with txq := q }.advance
  | [] => stalled k c x

/-- `OUTB c` (R132, R134). -/
def execOutb (c : Ctrl) (s : State) : Host.Outcome State Fault Refusal :=
  .next (s.setBus s.curBus (outbBus s.cfg.stallCtrl c (s.bus s.curBus)))

end Sys2Proof.Machine
end

