-- ==== Sys2Proof/Machine/Channel.lean ====
section
/-! DEFINITION. The channel commands `PLAY`, `SWAP`, `UPDPWR` and `RDREG` (spec R201 to R205), as first steps of the
command port, and the further steps of `SWAP` and `UPDPWR`. -/

namespace Sys2Proof.Machine

/-- What `PLAY` makes of its bus (R202): abort, retain the buffer, set the clock, program and start. -/
def playBus (addr len rate : Word) (x : Bus) : Bus :=
  { x.drive x.dout 0b111 with
    phase := 0
    txq := []
    smEn := true
    smFreq := effectiveFreq rate
    sampleRate := rate
    rateClamped := clampedRate rate
    dataReadAddr := addr
    dataTransCount := len
    dataBusy := true
    activeBase := addr
    rcntPend := false
    raddrPend := false
    curAddr := addr
    curLen := len }

/-- `PLAY b` (R202), one atomic step. -/
def execPlay (b : BitVec 4) (s : State) : Host.Outcome State Fault Refusal :=
  if !s.hasBus b.toNat then .next (s.finish .invalidCommand)
  else if badLength s.bufLen then .next (s.finish .invalidBufferLength)
  else match writeRcb s.cfg s.mem b.toNat s.bufAddr s.bufLen with
    | none => .refused .illFormedConfig
    | some m =>
      .next (({ s with mem := m }.setBus b.toNat (playBus s.bufAddr s.bufLen s.rate (s.bus b.toNat))).finish .ok)

/-- The buffer a command retains (R36, R206). -/
def retain (addr len : Word) (x : Bus) : Bus := { x with curAddr := addr, curLen := len }

/-- `SWAP b` (R203): whole under `atomic`, its first step under `split`. -/
def execSwap (b : BitVec 4) (s : State) : Host.Outcome State Fault Refusal :=
  if !s.hasBus b.toNat then .next (s.finish .invalidCommand)
  else if badLength s.bufLen then .next (s.finish .invalidBufferLength)
  else
    let s' := s.setBus b.toNat (retain s.bufAddr s.bufLen (s.bus b.toNat))
    match s.cfg.handoff with
    | .atomic =>
      match writeRcb s.cfg s.mem b.toNat s.bufAddr s.bufLen with
      | none => .refused .illFormedConfig
      | some m => .next ({ s' with mem := m }.finish .ok)
    | .split =>
      match memWriteWord s.cfg s.mem (rcbAddr s.cfg b.toNat) s.bufAddr with
      | none => .refused .illFormedConfig
      | some m => .next { s' with mem := m, hstate := .swap2 b.toNat s.bufLen }

/-- The second step of `SWAP` under `split` (R203): `next_count`. -/
def swapSecond (b : Nat) (len : Word) (s : State) : Host.Outcome State Fault Refusal :=
  match memWriteWord s.cfg s.mem (rcbAddr s.cfg b + 4) len with
  | none => .refused .illFormedConfig
  | some m => .next ({ s with mem := m }.finish .ok)

/-- One loop step of `UPDPWR` (R204): write index `i`, then go on to `i + 2` or end. -/
def updpwrIter (b i : Nat) (v : Byte) (s : State) : Host.Outcome State Fault Refusal :=
  match memWriteByte s.cfg s.mem (powerAddr (s.bus b) i) v with
  | none => .fault .hostUnbacked
  | some m =>
    if i + 2 < (s.bus b).curLen.toNat then .next { s with mem := m, hstate := .updpwr b (i + 2) v }
    else .next ({ s with mem := m }.finish .ok)

/-- `UPDPWR b` (R204): the issue and the first loop step. -/
def execUpdpwr (b : BitVec 4) (s : State) : Host.Outcome State Fault Refusal :=
  if !s.hasBus b.toNat then .next (s.finish .invalidCommand)
  else if (s.bus b.toNat).curLen = 0 then .next (s.finish .ok)
  else updpwrIter b.toNat 1 (clampLevel s.arg0) s

/-- `RDREG b, r` (R205). -/
def execRdreg (b : BitVec 4) (r : BitVec 12) (s : State) : Host.Outcome State Fault Refusal :=
  match readReg s b.toNat r with
  | none => .next (s.finish .invalidCommand)
  | some v => .next ({ s with result := v }.finish .ok)

end Sys2Proof.Machine
end

