-- ==== Sys2Proof/Machine/Direction.lean ====
section
/-! DEFINITION. The Direction Decoder's command, `DRAIN` (spec R163 to R166). -/

namespace Sys2Proof.Machine

/-- One iteration of `DRAIN`'s loop (R163): decode the oldest reading, or return the total. -/
def drainIter (s : State) : State :=
  match s.rxq with
  | v :: q => { s with rxq := q, acc := s.acc + delta (deltaIndex s.last v), last := v }
  | [] => { s with result := s.acc, acc := 0 }.finish .ok

/-- `DRAIN` (R163): the issue and the first iteration. -/
def execDrain (s : State) : Host.Outcome State Fault Refusal :=
  .next (drainIter { s with hstate := .drain })

end Sys2Proof.Machine
end

