-- ==== Sys2Proof/Machine/EdgeSampler.lean ====
section
/-! DEFINITION. The micro-instruction of the Quadrature Edge Sampler, `SNP` (spec R151 to R153). -/

namespace Sys2Proof.Machine

/-- A changed reading: pushed if there is room, else counted as dropped; `PREV` follows in both cases (R151 to
R153). -/
def takeReading (cur : Lines) (s : State) : State :=
  if s.rxq.length < s.cfg.rxqDepth then { s with rxq := s.rxq ++ [cur], prev := cur }
  else { s with dropCount := s.dropCount + 1, prev := cur }

/-- `SNP` (R151). -/
def execSnp (s : State) : Host.Outcome State Fault Refusal :=
  .next (if s.encIn = s.prev then s else takeReading s.encIn s)

end Sys2Proof.Machine
end

