-- ==== Sys2Proof/Machine/Ring.lean ====
section
/-! DEFINITION. The steps of the DMA ring, which have no encoding (spec R175 to R181): `DXFER`, `RCNTX`, `RADDRX`,
`REARM`. -/

namespace Sys2Proof.Machine

/-- The data channel after it pushed the byte `v` (R176). -/
def movedByte (v : Byte) (x : Bus) : Bus :=
  let n := x.dataTransCount - 1
  { x with
    txq := x.txq ++ [v]
    dataReadAddr := x.dataReadAddr + 1
    dataTransCount := n
    dataBusy := if n = 0 then false else x.dataBusy
    rcntPend := if n = 0 then true else x.rcntPend }

/-- `DXFER` on a bus whose memory read answers `r` (R176, R233). -/
def dxferBus (r : Option Byte) (x : Bus) : Bus :=
  match r with
  | none => { x with busFault := true }
  | some v => movedByte v x

/-- `trigger(b, a)`: the write to the trigger-address register (R181). -/
def trigger (a : Word) (x : Bus) : Bus :=
  { x with
    dataReadAddr := a
    activeBase := a
    zeroCountFault := if x.dataTransCount = 0 then true else x.zeroCountFault
    dataBusy := if x.dataTransCount = 0 then x.dataBusy else true }

/-- The bus after `RCNTX` read the count `n` (R178). -/
def rcntBus (n : Word) (x : Bus) : Bus :=
  { x with dataTransCount := n, rcntPend := false, raddrPend := true }

/-- The bus after `RADDRX` read the address `a` (R179). -/
def raddrBus (a : Word) (x : Bus) : Bus := trigger a { x with raddrPend := false }

/-- The bus after `REARM` read both words (R180). -/
def rearmBus (n a : Word) (x : Bus) : Bus := trigger a { x with dataTransCount := n, rcntPend := false }

/-- A turn of `DATA[b]`. -/
def dataTurn (b : Nat) (s : State) : Host.Outcome State Fault Refusal :=
  let x := s.bus b
  .next (if s.hasBus b && dxferEnabled s.cfg x then
    s.setBus b (dxferBus (memReadByte s.cfg s.mem x.dataReadAddr.toNat) x)
  else s)

/-- A turn of `RCNT[b]`. -/
def rcntTurn (b : Nat) (s : State) : Host.Outcome State Fault Refusal :=
  let x := s.bus b
  if s.hasBus b && rcntEnabled x then
    match memReadWord s.cfg s.mem (rcbAddr s.cfg b + 4), s.cfg.handoff with
    | none, _ => .refused .illFormedConfig
    | some n, .split => .next (s.setBus b (rcntBus n x))
    | some n, .atomic =>
      match memReadWord s.cfg s.mem (rcbAddr s.cfg b) with
      | none => .refused .illFormedConfig
      | some a => .next (s.setBus b (rearmBus n a x))
  else .next s

/-- A turn of `RADDR[b]`. -/
def raddrTurn (b : Nat) (s : State) : Host.Outcome State Fault Refusal :=
  let x := s.bus b
  if s.hasBus b && raddrEnabled s.cfg x then
    match memReadWord s.cfg s.mem (rcbAddr s.cfg b) with
    | none => .refused .illFormedConfig
    | some a => .next (s.setBus b (raddrBus a x))
  else .next s

end Sys2Proof.Machine
end

