-- ==== Sys2Proof/Machine/Agents.lean ====
section
/-! DEFINITION. Which agent steps next and what it does (spec R16, R244, R245): the choice of the event, the fetch of
an instruction by the agent that executes it (R106, R200), the steps that have no instruction. -/

namespace Sys2Proof.Machine

/-- What the next step does: run an instruction at a state, or end at once with an outcome. -/
inductive Action
  | run (i : Instr) (s : State)
  | done (o : Host.Outcome State Fault Refusal)

/-- The next event: the first of the script, or a free one (R245). -/
def State.event (s : State) : Event :=
  match s.script with
  | e :: _ => e
  | [] => Config.freeEvent s.tick

/-- The state once the next event has been chosen. -/
def State.chosen (s : State) : State :=
  match s.script with
  | _ :: es => { s with script := es }
  | [] => { s with tick := s.tick + 1 }

/-- An agent with no enabled step does nothing (R16). -/
def noStep (s : State) : Action := .done (.next s)

/-- An agent fetched the microword `w`; `k` is the kind of the agent (R100, R107). -/
def runMicroword (k : Executor) (w : BitVec 8) (s : State) : Action :=
  match decode (.micro w) with
  | .error _ => .done (.refused .reservedMicroword)
  | .ok i => if i.executor = k then .run i s else .done (.refused .foreignMicroword)

/-- A turn of `BPP[b]` (R106, R131). -/
def bppTurn (b : Nat) (s : State) : Action :=
  if s.hasBus b && bppEnabled (s.bus b) then
    runMicroword .bpp (s.bppRom.fetch (s.bus b).phase) { s with curBus := b }
  else noStep s

/-- A turn of `QES` (R106, R155). -/
def qesTurn (s : State) : Action := runMicroword .qes s.qesRom s

/-- The port after the host's writes (R200). -/
def State.portWritten (s : State) (a0 a1 a2 : Option Word) (w : Word) : State :=
  { s with arg0 := a0.getD s.arg0, arg1 := a1.getD s.arg1, arg2 := a2.getD s.arg2, cmd := w }

/-- The command in `CMD` is decoded and run, or rejected if its bits are illegal (R113, R200, R201). -/
def runCommand (s : State) : Action :=
  match decode (.cmd s.cmd) with
  | .error _ => .done (.next (s.finish .invalidCommand))
  | .ok i => .run i s

/-- `HOST` issues a command; it has this step only when `HSTATE` is idle (R200). -/
def issueTurn (a0 a1 a2 : Option Word) (w : Word) (s : State) : Action :=
  if s.hstate = .idle then runCommand (s.portWritten a0 a1 a2 w) else noStep s

/-- `HOST` goes on with the command in progress (R47). -/
def hostLoopTurn (s : State) : Host.Outcome State Fault Refusal :=
  match s.hstate with
  | .idle => .next s
  | .swap2 b len => swapSecond b len s
  | .updpwr b i v => updpwrIter b i v s
  | .drain => .next (drainIter s)

/-- `MEMWR a, v` (R78): enabled only when `HSTATE` is idle; outside `Backed` the host has no step (R76). -/
def memwrTurn (a : Word) (v : Byte) (s : State) : Host.Outcome State Fault Refusal :=
  if s.hstate = .idle then
    match memWriteByte s.cfg s.mem a.toNat v with
    | none => .fault .hostUnbacked
    | some m => .next { s with mem := m }
  else .next s

/-- `MEMRD a` (R78). -/
def memrdTurn (a : Word) (s : State) : Host.Outcome State Fault Refusal :=
  if s.hstate = .idle then
    match memReadByte s.cfg s.mem a.toNat with
    | none => .fault .hostUnbacked
    | some v => .next { s with memrdOut := v }
  else .next s

/-- What the agent of an event does. -/
def perform (e : Event) (s : State) : Action :=
  match e with
  | .bpp b => bppTurn b s
  | .data b => .done (dataTurn b s)
  | .rcnt b => .done (rcntTurn b s)
  | .raddr b => .done (raddrTurn b s)
  | .qes => qesTurn s
  | .issue a0 a1 a2 w => issueTurn a0 a1 a2 w s
  | .hostLoop => .done (hostLoopTurn s)
  | .memwr a v => .done (memwrTurn a v s)
  | .memrd a => .done (memrdTurn a s)
  | .env l => .done (.next { s with encIn := l })

/-- What the next step does. A configuration that is not well-formed and a ROM image with a reserved microword
are refused (R11, R107). -/
def nextAction (s : State) : Action :=
  if !cfgWf s.cfg then .done (.refused .illFormedConfig)
  else if !romsOk s then .done (.refused .reservedMicroword)
  else perform s.event s.chosen

/-! ## Placing an instruction where the next step fetches it -/

/-- The microword `w` in the ROM of the agent that executes it, and that agent next: for the sampler its one
microword; for a bus the microword at the `PHASE` of bus 0, with its state machine running (R131). -/
def placeMicroword (w : BitVec 8) (s : State) : State :=
  match decode (.micro w) with
  | .ok .snp => { s with qesRom := w, script := .qes :: s.script }
  | _ =>
    let x := s.bus 0
    { s with bppRom := s.bppRom.place x.phase w, script := .bpp 0 :: s.script }.setBus 0
      { x with smEn := true, smFreq := if x.smFreq = 0 then 4 else x.smFreq }

/-- The command word `w` as the host's next write to `CMD`, with an idle port (R200). -/
def placeCommand (w : Word) (s : State) : State :=
  { s with hstate := .idle, script := .issue none none none w :: s.script }

end Sys2Proof.Machine
end

