-- ==== Sys2Proof/Machine/Dispatch.lean ====
section
/-! DEFINITION. One arm per constructor of Instr: a direct call of its meaning. -/

namespace Sys2Proof.Machine

/-- The meaning of an instruction, taken by the agent that executes it (spec R100). -/
def exec (i : Instr) (s : State) : Host.Outcome State Fault Refusal :=
  match i with
  | .nopc c => Sys2Proof.Machine.execNopc c s
  | .outb c => Sys2Proof.Machine.execOutb c s
  | .snp => Sys2Proof.Machine.execSnp s
  | .play b => Sys2Proof.Machine.execPlay b s
  | .swap b => Sys2Proof.Machine.execSwap b s
  | .updpwr b => Sys2Proof.Machine.execUpdpwr b s
  | .drain => Sys2Proof.Machine.execDrain s
  | .rdreg b r => Sys2Proof.Machine.execRdreg b r s

end Sys2Proof.Machine
end

