-- ==== Sys2Proof/Machine/Step.lean ====
section
/-! DEFINITION. One step of the machine: the action of the chosen agent (spec R16), and the placing of an instruction
of the opcode table where the next step fetches it. -/

namespace Sys2Proof.Machine

/-- The outcome of an action: an instruction is run by `exec`. -/
def Action.outcome : Action → Host.Outcome State Fault Refusal
  | .run i s => exec i s
  | .done o => o

/-- One step (R16). -/
def step (s : State) : Host.Outcome State Fault Refusal := (nextAction s).outcome

/-- `s` with the table's word placed so that the very next step fetches and runs it; a length no format has
places nothing (R100, R120). -/
def State.withFetchWord (s : State) (nbits w : Nat) : State :=
  match tableCodeWord nbits w with
  | some (.micro m) => placeMicroword m s
  | some (.cmd c) => placeCommand c s
  | none => s

end Sys2Proof.Machine
end

