-- ==== Sys2Proof/Safety.lean ====
section
/-! DEFINITION. What counts as a safe run, in the terms the claims use: fault flags (spec R233), the buffer contract
(R82, R283), and the invariants every step keeps. -/

namespace Sys2Proof.Machine

/-! ## The contract of the host (R82, R87, R283) -/

/-- No fault flag of bus `b` is set (R233). -/
def noFault (s : State) (b : Nat) : Prop := (s.bus b).busFault = false ∧ (s.bus b).zeroCountFault = false

/-- `a` is one of the eight bytes of the Ring Control Block of bus `b` (R77). -/
def inRcb (cfg : Config) (b a : Nat) : Prop := rcbAddr cfg b ≤ a ∧ a < rcbAddr cfg b + 8

/-- A buffer within the contract (R82): even and non-zero length, backed, clear of every Ring Control Block. -/
def bufferValid (cfg : Config) (addr len : Word) : Prop :=
  badLength len = false ∧ backedRange cfg addr.toNat len.toNat = true
    ∧ ∀ b a, b < cfg.nbus → addr.toNat ≤ a → a < addr.toNat + len.toNat → ¬ inRcb cfg b a

/-- What the host does at the next step keeps the contract: its own byte accesses are backed and its stores keep off
the Ring Control Blocks (R76, R78, R283), and a buffer an accepted `PLAY` or `SWAP` names is valid (R82). -/
def eventInContract (s : State) : Event → Prop
  | .memwr a _ => backedByte s.cfg a.toNat = true ∧ ∀ b, b < s.cfg.nbus → ¬ inRcb s.cfg b a.toNat
  | .memrd a => backedByte s.cfg a.toNat = true
  | .issue a0 a1 _ w => ∀ b, decode (.cmd w) = .ok (.play b) ∨ decode (.cmd w) = .ok (.swap b) →
      b.toNat < s.cfg.nbus → badLength (a1.getD s.arg1) = false →
      bufferValid s.cfg (a0.getD s.arg0) (a1.getD s.arg1)
  | _ => True

/-! ## Invariants -/

/-- What holds of every bus in every reachable state. -/
structure BusInv (cfg : Config) (x : Bus) : Prop where
  /-- The queue never exceeds its capacity (R24, R139). -/
  txqFits : x.txq.length ≤ cfg.txqDepth
  /-- The clock is the clamped clock of the requested rate (R137). -/
  clock : x.smFreq.toNat = min (4 * x.sampleRate.toNat) Config.fMax
  /-- The clamp flag says whether the clamp acted (R138). -/
  clampFlag : x.rateClamped = decide (4 * x.sampleRate.toNat > Config.fMax)
  /-- No two channels of the chain are active at once (R189). -/
  notDataAndCount : ¬ (x.dataBusy = true ∧ x.rcntPend = true)
  notDataAndAddr : ¬ (x.dataBusy = true ∧ x.raddrPend = true)
  notCountAndAddr : ¬ (x.rcntPend = true ∧ x.raddrPend = true)
  /-- Under `atomic` the address channel is never pending on its own (R34). -/
  atomicRearm : cfg.handoff = .atomic → x.raddrPend = false
  /-- A pass in progress has bytes left (R31, R181). -/
  busyCount : x.dataBusy = true → x.dataTransCount ≠ 0
  /-- A count re-arm is pending only when the pass has moved its last byte (R33, R176). -/
  pendCount : x.rcntPend = true → x.dataTransCount = 0
  /-- A retained length is even (R36, R201). -/
  retainedEven : x.curLen.getLsbD 0 = false
  /-- Before the first accepted `PLAY` nothing runs and the lines are idle (R261). -/
  offIdle : x.smEn = false → x.phase = 0 ∧ x.ctrl = 0b111 ∧ x.txq = [] ∧ x.dataBusy = false
    ∧ x.rcntPend = false ∧ x.raddrPend = false
  /-- A started ring that did not fault at a trigger has one channel active (R182). -/
  ringAlive : x.smEn = true → x.zeroCountFault = false →
    x.dataBusy = true ∨ x.rcntPend = true ∨ x.raddrPend = true

/-- What `HSTATE` records is a command that can be in progress (R47, R203, R204). -/
def hostInv (s : State) : Prop :=
  match s.hstate with
  | .idle => True
  | .swap2 b len => b < s.cfg.nbus ∧ badLength len = false ∧ s.cfg.handoff = .split
  | .updpwr b i _ => b < s.cfg.nbus ∧ i % 2 = 1 ∧ i < (s.bus b).curLen.toNat
  | .drain => True

/-- What holds of every reachable state. -/
structure MachineInv (s : State) : Prop where
  /-- Memory is in canonical form. -/
  memWf : s.mem.wf = true
  /-- Every listed byte is at an address that holds memory (R70, R76). -/
  memBacked : ∀ c ∈ s.mem, backedByte s.cfg c.1 = true
  /-- There are `NBUS` buses. -/
  busCount : s.buses.length = s.cfg.nbus
  /-- Every bus is in order. -/
  busOk : ∀ b, b < s.cfg.nbus → BusInv s.cfg (s.bus b)
  /-- The sampler's queue never exceeds its capacity (R39, R157). -/
  rxqFits : s.rxq.length ≤ s.cfg.rxqDepth
  /-- The accumulator is zero outside `DRAIN` (R43). -/
  accIdle : s.hstate ≠ .drain → s.acc = 0
  /-- The command in progress is one that can be. -/
  hostOk : hostInv s
  /-- `STATUS` holds one of the three codes (R117). -/
  statusCode : s.status = 0 ∨ s.status = 1 ∨ s.status = 2

/-- The ROMs hold the fixed programs of R104 and R105. -/
def fixedProgram (s : State) : Prop := s.bppRom = bppRomImage ∧ s.qesRom = qesRomImage

/-- The control lines agree with the program: a code is driven low only by the write of its phase (R103, R134,
R135). -/
def pinsInv (k : StallCtrl) (x : Bus) : Prop :=
  (x.phase = 0 → x.ctrl = 0b111 ∨ (k = .drive ∧ x.ctrl = 0b100))
    ∧ (x.phase = 1 → x.ctrl = 0b100)
    ∧ (x.phase = 2 → x.ctrl = 0b111 ∨ (k = .drive ∧ x.ctrl = 0b010))
    ∧ (x.phase = 3 → x.ctrl = 0b010)

/-- The parity of a running bus: the bytes still to come are an even number before a signal byte (phases 0 and 3)
and an odd number before a power byte (phases 1 and 2). It is R142 with the phases that R132 and R135 give (log
entry 9). -/
def parityInv (x : Bus) : Prop :=
  x.smEn = true →
    (x.txq.length + x.dataTransCount.toNat) % 2 = (if x.phase = 1 ∨ x.phase = 2 then 1 else 0)

/-- The `next_count` word of the Ring Control Block of every started bus is even (R142, R201); before its first accepted
`PLAY` a bus has a record of arbitrary bytes that nothing reads (R262). -/
def recordsEven (s : State) : Prop :=
  ∀ b, b < s.cfg.nbus → (s.bus b).smEn = true → (s.mem.readWord (rcbAddr s.cfg b + 4)).getLsbD 0 = false

/-- Every retained buffer is valid (R36, R82): so `UPDPWR` keeps off the Ring Control Blocks. -/
def retainedValid (s : State) : Prop :=
  ∀ b, b < s.cfg.nbus → (s.bus b).curLen ≠ 0 → bufferValid s.cfg (s.bus b).curAddr (s.bus b).curLen

/-- What holds as long as the host keeps the contract and the hand-off is atomic: no ring has faulted, what a pass has
still to read is backed, the Ring Control Block of a started bus and the retained buffer of every bus name valid
buffers (R82, R87, R233). -/
structure ContractInv (s : State) : Prop where
  atomic : s.cfg.handoff = .atomic
  healthy : ∀ b, b < s.cfg.nbus → noFault s b
  pass : ∀ b, b < s.cfg.nbus → (s.bus b).dataBusy = true →
    backedRange s.cfg (s.bus b).dataReadAddr.toNat (s.bus b).dataTransCount.toNat = true
  record : ∀ b, b < s.cfg.nbus → (s.bus b).smEn = true →
    bufferValid s.cfg (s.mem.readWord (rcbAddr s.cfg b)) (s.mem.readWord (rcbAddr s.cfg b + 4))
  retained : retainedValid s

/-- The newest reading the decoder has seen or will see is the sampler's previous one: no reading has been lost
(R167). -/
def readingsChained (s : State) : Prop := (s.rxq.getLast?).getD s.last = s.prev

end Sys2Proof.Machine
end

