-- ==== Sys2Proof/WellFormed.lean ====
section
/-! DEFINITION. When an instruction is well-formed in a block of `nbus` buses (spec R111, R112): its bus
exists, its register number is defined, a global register is named with `BUS` = 0. -/

namespace Sys2Proof

/-- R111: the `BUS` field names an existing bus. -/
def busExists (nbus : Nat) (b : BitVec 4) : Bool := decide (b.toNat < nbus)

/-- R112 and R205: the `REG` field names a defined register, in a scope the `BUS` field fits. -/
def regNamed (nbus : Nat) (b : BitVec 4) (r : BitVec 12) : Bool :=
  match regOf r with
  | none => false
  | some reg => busExists nbus b && (!reg.isGlobal || b == 0)

/-- Well-formedness of an instruction; a microword has nothing to check beyond its bits. -/
def Instr.wf (nbus : Nat) : Instr → Bool
  | .nopc _ => true
  | .outb _ => true
  | .snp => true
  | .play b => busExists nbus b
  | .swap b => busExists nbus b
  | .updpwr b => busExists nbus b
  | .drain => true
  | .rdreg b r => regNamed nbus b r

end Sys2Proof
end

