-- ==== Sys2Proof/Certificates/Slice0/Obligations.lean ====
section
/-! DEFINITION. The statements for the provers, def Obligations.<Name> : Prop, and the spec-level words they are written
in (Sys2Proof.Claims): what the spec's rules say, without the model's own functions. A premise on `script` says which agent
steps next; that this is settled by data in the state is the model's choice (log entry 3), as is a turn of an agent
without an enabled step (log entry 14). -/

namespace Sys2Proof.Claims

open Sys2Proof.Machine

/-! ## Words of the statements -/

/-- The rules apply to the state: its configuration is well-formed and no ROM image holds a reserved microword
(R11, R107). -/
abbrev ready (s : State) : Prop := cfgWf s.cfg = true ∧ romsOk s = true

/-- Between `s` and `t` only bus `b` changes: every other bus and every other item of state is the same. -/
def onlyBus (b : Nat) (s t : State) : Prop :=
  t = { s with buses := t.buses } ∧ t.buses.length = s.buses.length ∧ ∀ b', b' ≠ b → t.bus b' = s.bus b'

/-- Every byte of memory outside `a .. a+n-1` reads in `t` as in `s`. -/
def bytesKeptOutside (a n : Nat) (s t : State) : Prop :=
  ∀ c, c < a ∨ a + n ≤ c → t.mem.read c = s.mem.read c

/-- The four bytes from `a` on are the little-endian word `v` (R75). -/
def wordAt (t : State) (a : Nat) (v : Word) : Prop :=
  ∀ k, k < 4 → t.mem.read (a + k) = v.extractLsb' (8 * k) 8

/-- R141: what a DAC with select bit `sel` holds when the control lines of `x` change to `c`. -/
def observed (sel : Nat) (x : Bus) (c : Ctrl) (held : Option Byte) : Option Byte :=
  if x.ctrl.getLsbD 0 = false ∧ x.ctrl.getLsbD sel = false ∧ (c.getLsbD 0 = true ∨ c.getLsbD sel = true) then some x.dout
  else held

/-- R107: a reserved microword. -/
def reservedMicroword (w : BitVec 8) : Prop :=
  w.getLsbD 7 = true ∨ w.getLsbD 3 = true ∨ 3 ≤ (w.extractLsb' 4 3).toNat
    ∨ (w.extractLsb' 4 3 = 0b010 ∧ w.extractLsb' 0 3 ≠ 0b000)

/-- R48: the register numbers of a bus. -/
def busRegNumbers : List (BitVec 12) :=
  [0x000, 0x001, 0x002, 0x003, 0x004, 0x005, 0x006, 0x007, 0x008, 0x009, 0x00A]

/-- R48: the global register numbers. -/
def globalRegNumbers : List (BitVec 12) := [0x100, 0x101, 0x102]

/-- R111, R112: the bus or register field of a command word is rejected. -/
def badFields (nbus : Nat) (op bus : BitVec 4) (reg : BitVec 12) : Prop :=
  ((op = 1 ∨ op = 2 ∨ op = 3 ∨ op = 5) ∧ nbus ≤ bus.toNat)
    ∨ (op = 5 ∧ reg ∉ busRegNumbers ∧ reg ∉ globalRegNumbers) ∨ (op = 5 ∧ reg ∈ globalRegNumbers ∧ bus ≠ 0)

/-- R113: an illegal command word in a block of `nbus` buses. -/
def illegalCommand (nbus : Nat) (w : Word) : Prop :=
  let op := w.extractLsb' 28 4
  let bus := w.extractLsb' 24 4
  let reg := w.extractLsb' 0 12
  (op = 0 ∨ 6 ≤ op.toNat) ∨ w.extractLsb' 12 12 ≠ 0 ∨ (reg ≠ 0 ∧ op ≠ 5) ∨ (bus ≠ 0 ∧ op = 4) ∨ badFields nbus op bus reg

/-- The list of R161, index 0 first. -/
def deltaList : List Int := [0, 1, -1, 0, -1, 0, 0, 1, 1, 0, 0, -1, 0, -1, 1, 0]

/-- The step count of one transition (R161). -/
def transition (last new : Lines) : Int := deltaList.getD (4 * last.toNat + new.toNat) 0

/-- The step count of a sequence of readings decoded from `last` on (R160). -/
def totalSteps (last : Lines) : List Lines → Int
  | [] => 0
  | v :: q => transition last v + totalSteps v q

/-- R204: `clamp(signed(x), 0, 255)`, low eight bits. -/
def clamped (x : Word) : Byte :=
  if x.toInt < 0 then 0x00 else if 255 < x.toInt then 0xFF else x.extractLsb' 0 8

/-- The host issues a `PLAY` of bus `b` at the next step. -/
def issuesPlay (s : State) (b : Nat) : Prop :=
  s.hstate = .idle ∧ ∃ a0 a1 a2 w k, s.event = .issue a0 a1 a2 w ∧ decode (.cmd w) = .ok (.play k) ∧ k.toNat = b

/-- The host issues a `SWAP` of bus `b` at the next step. -/
def issuesSwap (s : State) (b : Nat) : Prop :=
  s.hstate = .idle ∧ ∃ a0 a1 a2 w k, s.event = .issue a0 a1 a2 w ∧ decode (.cmd w) = .ok (.swap k) ∧ k.toNat = b

/-- The next step is a step of `DRAIN`: its issue or a loop step. -/
def drainsNext (s : State) : Prop :=
  (s.hstate = .idle ∧ ∃ a0 a1 a2 w, s.event = .issue a0 a1 a2 w ∧ decode (.cmd w) = .ok .drain)
    ∨ (s.hstate = .drain ∧ s.event = .hostLoop)

/-- The next event is a turn of an agent of bus `b`. -/
def turnOfBus (b : Nat) (e : Event) : Prop := e = .bpp b ∨ e = .data b ∨ e = .rcnt b ∨ e = .raddr b

/-- A run from `s` to `u` within the contract of the host and with no `PLAY` or `SWAP` of bus `b`, in which the data
channel of bus `b` takes `n` steps. -/
inductive UndisturbedRun (b : Nat) : State → Nat → State → Prop
  | done (s : State) : UndisturbedRun b s 0 s
  | more {s t u : State} {n : Nat} (hstep : step s = .next t) (hin : s.hstate = .idle → eventInContract s s.event)
      (hplay : ¬ issuesPlay s b) (hswap : ¬ issuesSwap s b) (hrest : UndisturbedRun b t n u) :
      UndisturbedRun b s (n + if s.event = .data b ∧ dxferEnabled s.cfg (s.bus b) = true then 1 else 0) u

/-- The host steps of a whole `SWAP` of bus `b`. -/
def swapEvents (h : Handoff) (b : BitVec 4) (addr len : Word) : List Event :=
  match h with
  | .atomic => [.issue (some addr) (some len) none (0x2#4 ++ b ++ 0#24)]
  | .split => [.issue (some addr) (some len) none (0x2#4 ++ b ++ 0#24), .hostLoop]

/-- The turns of a whole re-arm of bus `b`. -/
def rearmEvents (h : Handoff) (b : Nat) : List Event :=
  match h with
  | .atomic => [.rcnt b]
  | .split => [.rcnt b, .raddr b]

/-- Running the events `es` from `s`, one step each, ends in `t`. -/
def runs (s : State) (es : List Event) (t : State) : Prop :=
  Host.Core.run Sys2Proof.core es.length { s with script := es } = .next t

end Sys2Proof.Claims

open Sys2Proof Sys2Proof.Machine Sys2Proof.Claims

/-! ## Encoding -/

/-- Words written out from R102, R104, R105 and R121 decode to the instructions they stand for. -/
def Obligations.WrittenOutWordsDecode : Prop :=
  decodeTableWord 8 0x14 = some (.outb 0b100) ∧ decodeTableWord 8 0x07 = some (.nopc 0b111)
    ∧ decodeTableWord 8 0x12 = some (.outb 0b010) ∧ decodeTableWord 8 0x20 = some .snp
    ∧ decodeTableWord 32 0x11000000 = some (.play 1) ∧ decodeTableWord 32 0x20000000 = some (.swap 0)
    ∧ decodeTableWord 32 0x31000000 = some (.updpwr 1) ∧ decodeTableWord 32 0x40000000 = some .drain
    ∧ decodeTableWord 32 0x51000005 = some (.rdreg 1 0x005)

/-- Decoding inverts encoding, for every instruction and every operand value. -/
def Obligations.DecodeInvertsEncode : Prop := ∀ i : Instr, decode (encode i) = .ok i

/-- Every word that decodes has one meaning and is the encoding of it. -/
def Obligations.EncodeInvertsDecode : Prop := ∀ (w : CodeWord) (i : Instr), decode w = .ok i → encode i = w

/-- R107: exactly the reserved microwords are rejected; a machine whose ROM holds one refuses; the fixed ROMs hold
none. -/
def Obligations.ReservedMicrowordsRefused : Prop :=
  (∀ w : BitVec 8, (∃ e, decode (.micro w) = .error e) ↔ reservedMicroword w)
    ∧ (∀ s : State, cfgWf s.cfg = true →
        (∃ w ∈ [s.bppRom.w0, s.bppRom.w1, s.bppRom.w2, s.bppRom.w3, s.qesRom], reservedMicroword w) →
        step s = .refused .reservedMicroword)
    ∧ ∀ w ∈ [bppRomImage.w0, bppRomImage.w1, bppRomImage.w2, bppRomImage.w3, qesRomImage], ¬ reservedMicroword w

/-- R113, R232: an illegal command word completes in its issue step with `STATUS` 2; beside the port writes of that step
(R200) nothing else changes, whatever the operands. That `CMD` holds the word afterwards is log entry 12 (DEDUCED). -/
def Obligations.IllegalCommandWordRejected : Prop :=
  ∀ (s : State) (a0 a1 a2 : Option Word) (w : Word) (rest : List Event), ready s → s.hstate = .idle →
    s.script = .issue a0 a1 a2 w :: rest → illegalCommand s.cfg.nbus w →
    step s = .next { s with
      script := rest, arg0 := a0.getD s.arg0, arg1 := a1.getD s.arg1, arg2 := a2.getD s.arg2, cmd := w, status := 2 }

/-! ## Reset -/

/-- R54: after reset every item has the value of its table, for every configuration, every memory and every encoder
position, and the sampler runs; the model's `State.reset` is one of these. -/
def Obligations.ResetValues : Prop :=
  (∀ (cfg : Config) (mem : Memory) (enc : Lines),
    let s := State.resetWith cfg mem enc
    s.cfg = cfg ∧ s.bppRom = bppRomImage ∧ s.qesRom = qesRomImage ∧ s.buses.length = cfg.nbus
      ∧ (∀ b, b < cfg.nbus →
          let x := s.bus b
          x.phase = 0 ∧ x.dout = 0x00 ∧ x.ctrl = 0b111 ∧ x.txq = [] ∧ x.smEn = false ∧ x.smFreq = 0 ∧ x.sampleRate = 0
            ∧ x.rateClamped = false ∧ x.dataReadAddr = 0 ∧ x.dataTransCount = 0 ∧ x.dataBusy = false ∧ x.activeBase = 0
            ∧ x.rcntPend = false ∧ x.raddrPend = false ∧ x.busFault = false ∧ x.zeroCountFault = false
            ∧ x.curAddr = 0 ∧ x.curLen = 0)
      ∧ s.prev = cfg.prevReset ∧ s.rxq = [] ∧ s.dropCount = 0 ∧ s.last = cfg.lastReset ∧ s.acc = 0
      ∧ s.arg0 = 0 ∧ s.arg1 = 0 ∧ s.arg2 = 0 ∧ s.status = 0 ∧ s.result = 0 ∧ s.hstate = .idle
      ∧ s.mem = mem ∧ s.encIn = enc
      ∧ (cfgWf cfg = true → ∀ rest, step { s with script := .qes :: rest } = exec .snp { s with script := rest }))
    ∧ Config.cfgA.prevReset = 0b00 ∧ Config.cfgA.lastReset = 0b00
    ∧ ∃ mem enc, State.reset = State.resetWith Config.cfgA mem enc

/-- The state after reset meets every invariant of the model, for every well-formed configuration and every backed
memory in canonical form. -/
def Obligations.ResetMeetsInvariants : Prop :=
  ∀ (cfg : Config) (mem : Memory) (enc : Lines), cfgWf cfg = true → mem.wf = true →
    (∀ c ∈ mem, backedByte cfg c.1 = true) →
    MachineInv (State.resetWith cfg mem enc) ∧ fixedProgram (State.resetWith cfg mem enc)
      ∧ (∀ b, b < cfg.nbus → pinsInv cfg.stallCtrl ((State.resetWith cfg mem enc).bus b)
          ∧ parityInv ((State.resetWith cfg mem enc).bus b))
      ∧ recordsEven (State.resetWith cfg mem enc) ∧ retainedValid (State.resetWith cfg mem enc)
      ∧ (cfg.prevReset = cfg.lastReset → readingsChained (State.resetWith cfg mem enc))
      ∧ (cfg.handoff = .atomic → ContractInv (State.resetWith cfg mem enc))

/-! ## Invariants of every step -/

/-- Every step keeps the machine invariant. -/
def Obligations.StepKeepsMachineInvariant : Prop :=
  ∀ s t : State, MachineInv s → step s = .next t → MachineInv t

/-- With the fixed program every step keeps the control lines in agreement with the phase, so no code but 0b111,
0b100 and 0b010 is ever driven. -/
def Obligations.StepKeepsControlLines : Prop :=
  ∀ s t : State, fixedProgram s → (∀ b, b < s.cfg.nbus → pinsInv s.cfg.stallCtrl (s.bus b)) → step s = .next t →
    ∀ b, b < s.cfg.nbus → pinsInv t.cfg.stallCtrl (t.bus b)
      ∧ ((t.bus b).ctrl = 0b111 ∨ (t.bus b).ctrl = 0b100 ∨ (t.bus b).ctrl = 0b010)

/-- With the fixed program and even counts in the records of the started buses every step keeps the signal and power
parity; and within the contract every step keeps those counts even, under both hand-offs, so that the parity is carried
along a run (a `SWAP` between its two steps records an even length, which `MachineInv` says). The phases are those of log
entry 9 (DEDUCED), where the words of R142 and of R132 differ. -/
def Obligations.StepKeepsParity : Prop :=
  (∀ s t : State, MachineInv s → fixedProgram s → recordsEven s → (∀ b, b < s.cfg.nbus → parityInv (s.bus b)) →
      step s = .next t → ∀ b, b < s.cfg.nbus → parityInv (t.bus b))
    ∧ ∀ s t : State, MachineInv s → recordsEven s → retainedValid s →
        (s.hstate = .idle → eventInContract s s.event) → step s = .next t → recordsEven t ∧ retainedValid t

/-- No step writes the configuration or a ROM. -/
def Obligations.StepKeepsParameters : Prop :=
  ∀ s t : State, step s = .next t → t.cfg = s.cfg ∧ t.bppRom = s.bppRom ∧ t.qesRom = s.qesRom

/-- A step that drops no reading keeps the decoder's next view of the lines equal to the sampler's last one. -/
def Obligations.StepKeepsReadingsChained : Prop :=
  ∀ s t : State, readingsChained s → step s = .next t → t.dropCount = s.dropCount → readingsChained t

/-! ## The step and its choice -/

/-- A turn of `BPP[b]` runs the microword at its phase, and a turn of `QES` its one microword, as decoded; `curBus` is the
model's field (log entry 10). -/
def Obligations.StepRunsFetchedMicroword : Prop :=
  (∀ (s : State) (b : Nat) (rest : List Event) (i : Instr), ready s → s.script = .bpp b :: rest → b < s.cfg.nbus →
      (s.bus b).smEn = true → (s.bus b).smFreq ≠ 0 →
      decode (.micro (s.bppRom.fetch (s.bus b).phase)) = .ok i → i.executor = .bpp →
      step s = exec i { s with script := rest, curBus := b })
    ∧ ∀ (s : State) (rest : List Event) (i : Instr), ready s → s.script = .qes :: rest →
      decode (.micro s.qesRom) = .ok i → i.executor = .qes → step s = exec i { s with script := rest }

/-- The issue of a command writes the port and runs the decoded command in the same step. -/
def Obligations.StepRunsIssuedCommand : Prop :=
  ∀ (s : State) (a0 a1 a2 : Option Word) (w : Word) (rest : List Event) (i : Instr), ready s → s.hstate = .idle →
    s.script = .issue a0 a1 a2 w :: rest → decode (.cmd w) = .ok i →
    step s = exec i { s with
      script := rest, arg0 := a0.getD s.arg0, arg1 := a1.getD s.arg1, arg2 := a2.getD s.arg2, cmd := w }

/-- R131 and R16: a bus whose state machine is off or has no clock takes no step, and its lines keep their values. -/
def Obligations.StoppedStateMachineHasNoStep : Prop :=
  ∀ (s : State) (b : Nat) (rest : List Event), ready s → s.script = .bpp b :: rest →
    (s.bus b).smEn = false ∨ (s.bus b).smFreq = 0 → step s = .next { s with script := rest }

/-- While a command is in progress the host issues none and makes no byte access of its own. -/
def Obligations.BusyHostIssuesNothing : Prop :=
  ∀ (s : State) (e : Event) (rest : List Event), ready s → s.hstate ≠ .idle → s.script = e :: rest →
    ((∃ a0 a1 a2 w, e = .issue a0 a1 a2 w) ∨ (∃ a v, e = .memwr a v) ∨ ∃ a, e = .memrd a) →
    step s = .next { s with script := rest }

/-- R11: the well-formed configurations, in the rule's words; the model refuses every other. The bounds of `NBUS` and
of the queue depths are those of R10, R49, R52 and R111, which R11 does not list (log entry 16, DEDUCED). -/
def Obligations.ExactlyWellFormedConfigurationsRun : Prop :=
  (∀ cfg : Config, cfgWf cfg = true ↔
      (1 ≤ cfg.nbus ∧ cfg.nbus ≤ 16 ∧ 1 ≤ cfg.txqDepth ∧ cfg.txqDepth ≤ 255 ∧ 1 ≤ cfg.rxqDepth ∧ cfg.rxqDepth ≤ 255)
        ∧ (∀ b, b < cfg.nbus → rcbAddr cfg b % 4 = 0 ∧ rcbAddr cfg b + 8 ≤ 2 ^ 32
            ∧ ∀ a, inRcb cfg b a → backedByte cfg a = true)
        ∧ (∀ b b' a, b < cfg.nbus → b' < cfg.nbus → b ≠ b' → inRcb cfg b a → ¬ inRcb cfg b' a)
        ∧ (cfg.buses.flatMap busPins ++ [cfg.encBase, cfg.encBase + 1]).Nodup
        ∧ (cfg.buses.map (·.smId) ++ [cfg.qesSmId]).Nodup
        ∧ (cfg.buses.flatMap fun k => [k.dmaData, k.dmaCount, k.dmaAddr]).Nodup)
    ∧ ∀ s : State, cfgWf s.cfg = false → step s = .refused .illFormedConfig

/-- As long as the host keeps the buffer contract and the hand-off is atomic, every step goes on: no ring faults, no
agent is stuck at an access, and the contract's invariant is kept. -/
def Obligations.ContractRunsNeverFault : Prop :=
  ∀ s : State, ready s → fixedProgram s → MachineInv s → ContractInv s →
    (s.hstate = .idle → eventInContract s s.event) → ∃ t, step s = .next t ∧ ContractInv t

/-! ## The Bus Protocol Program -/

/-- R133: `NOPC c` drives `c`, keeps the data lines and the queue, and goes on to the next phase; the observer of
R141 looks on; nothing else changes. -/
def Obligations.NopcDrivesCodeAndAdvances : Prop :=
  ∀ (c : Ctrl) (s : State), s.curBus < s.buses.length →
    ∃ t, exec (.nopc c) s = .next t ∧ onlyBus s.curBus s t
      ∧ t.bus s.curBus = { s.bus s.curBus with
          ctrl := c
          phase := (s.bus s.curBus).phase + 1
          dacSig := observed 1 (s.bus s.curBus) c (s.bus s.curBus).dacSig
          dacPwr := observed 2 (s.bus s.curBus) c (s.bus s.curBus).dacPwr }

/-- R132: `OUTB c` with a byte queued takes the oldest byte onto the data lines, drives `c` in the same step and goes
on to the next phase; nothing else changes. -/
def Obligations.OutbTakesOldestByte : Prop :=
  ∀ (c : Ctrl) (s : State) (v : Byte) (q : List Byte), s.curBus < s.buses.length → (s.bus s.curBus).txq = v :: q →
    ∃ t, exec (.outb c) s = .next t ∧ onlyBus s.curBus s t
      ∧ t.bus s.curBus = { s.bus s.curBus with
          txq := q
          dout := v
          ctrl := c
          phase := (s.bus s.curBus).phase + 1
          dacSig := observed 1 (s.bus s.curBus) c (s.bus s.curBus).dacSig
          dacPwr := observed 2 (s.bus s.curBus) c (s.bus s.curBus).dacPwr }

/-- R134: `OUTB c` with an empty queue waits: under `hold` nothing changes at all, under `drive` only the code is
driven. -/
def Obligations.OutbStallsOnEmptyQueue : Prop :=
  ∀ (c : Ctrl) (s : State), s.curBus < s.buses.length → (s.bus s.curBus).txq = [] →
    (s.cfg.stallCtrl = .hold → exec (.outb c) s = .next s)
      ∧ (s.cfg.stallCtrl = .drive → ∃ t, exec (.outb c) s = .next t ∧ onlyBus s.curBus s t
          ∧ t.bus s.curBus = { s.bus s.curBus with
              ctrl := c
              dacSig := observed 1 (s.bus s.curBus) c (s.bus s.curBus).dacSig
              dacPwr := observed 2 (s.bus s.curBus) c (s.bus s.curBus).dacPwr })

/-- R135: four steps of the fixed program write one pair: the data and control lines after each cycle, and both DACs
latched. -/
def Obligations.FourCyclesWriteOnePair : Prop :=
  ∀ (s : State) (b : Nat) (sg pw : Byte) (q : List Byte), ready s → fixedProgram s → b < s.cfg.nbus →
    s.buses.length = s.cfg.nbus → (s.bus b).smEn = true → (s.bus b).smFreq ≠ 0 → (s.bus b).phase = 0 →
    (s.bus b).txq = sg :: pw :: q →
    (∃ t, runs s [.bpp b] t ∧ (t.bus b).dout = sg ∧ (t.bus b).ctrl = 0b100)
      ∧ (∃ t, runs s [.bpp b, .bpp b] t ∧ (t.bus b).dout = sg ∧ (t.bus b).ctrl = 0b111 ∧ (t.bus b).dacSig = some sg)
      ∧ (∃ t, runs s [.bpp b, .bpp b, .bpp b] t ∧ (t.bus b).dout = pw ∧ (t.bus b).ctrl = 0b010)
      ∧ ∃ t, runs s (List.replicate Config.cyclesPerPair (.bpp b)) t
          ∧ t.bus b = { s.bus b with txq := q, dout := pw, ctrl := 0b111, dacSig := some sg, dacPwr := some pw }

/-- R137, R138: an accepted `PLAY` sets the clock to the clamped rate, over unbounded naturals, and the flag exactly
from 2 500 001 hertz on. -/
def Obligations.PlaySetsClampedClock : Prop :=
  ∀ (b : BitVec 4) (s : State), cfgWf s.cfg = true → s.buses.length = s.cfg.nbus → b.toNat < s.cfg.nbus →
    s.arg1 ≠ 0 → s.arg1.getLsbD 0 = false →
    ∃ t, exec (.play b) s = .next t ∧ t.status = 0
      ∧ (t.bus b.toNat).smFreq.toNat = min (4 * s.arg2.toNat) 10000000
      ∧ ((t.bus b.toNat).rateClamped = true ↔ 4 * s.arg2.toNat > 10000000)
      ∧ ((t.bus b.toNat).rateClamped = true ↔ 2500001 ≤ s.arg2.toNat)
      ∧ (t.bus b.toNat).sampleRate = s.arg2

/-- R140: in a well-formed configuration each line of a bus is on its pin. -/
def Obligations.LinesAreOnTheirPins : Prop :=
  ∀ (s : State) (b : Nat) (k : BusConfig), cfgWf s.cfg = true → s.buses.length = s.cfg.nbus →
    s.cfg.buses[b]? = some k →
    (∀ i, i < 8 → pinLevel s (k.dataBase + i) = some ((s.bus b).dout.getLsbD i))
      ∧ ∀ j, j < 3 → pinLevel s (k.ctrlBase + j) = some ((s.bus b).ctrl.getLsbD j)

/-! ## The sampler and the decoder -/

/-- R151 to R153: `SNP` on an unchanged reading, on a changed one with room, on a changed one with a full queue. -/
def Obligations.SnpPushesOrDropsChanges : Prop :=
  ∀ s : State,
    (s.encIn = s.prev → exec .snp s = .next s)
      ∧ (s.encIn ≠ s.prev → s.rxq.length < s.cfg.rxqDepth →
          exec .snp s = .next { s with rxq := s.rxq ++ [s.encIn], prev := s.encIn })
      ∧ (s.encIn ≠ s.prev → s.cfg.rxqDepth ≤ s.rxq.length →
          exec .snp s = .next { s with dropCount := s.dropCount + 1, prev := s.encIn })

/-- R161: the sixteen entries of the transition table, as 32-bit values. -/
def Obligations.TransitionTableEntries : Prop :=
  ∀ last new : Lines, delta (deltaIndex last new) = BitVec.ofInt 32 (transition last new)

/-- R163: the issue of `DRAIN` with a reading queued, and with none. -/
def Obligations.DrainIssueDecodesOrReturns : Prop :=
  ∀ s : State,
    (∀ v q, s.rxq = v :: q →
        exec .drain s = .next { s with
          hstate := .drain, rxq := q, acc := s.acc + BitVec.ofInt 32 (transition s.last v), last := v })
      ∧ (s.rxq = [] → exec .drain s = .next { s with result := s.acc, acc := 0, status := 0, hstate := .idle })

/-- R163: a loop step of `DRAIN`. -/
def Obligations.DrainLoopDecodesOrReturns : Prop :=
  ∀ (s : State) (rest : List Event), ready s → s.hstate = .drain → s.script = .hostLoop :: rest →
    (∀ v q, s.rxq = v :: q →
        step s = .next { s with
          script := rest, rxq := q, acc := s.acc + BitVec.ofInt 32 (transition s.last v), last := v })
      ∧ (s.rxq = [] →
          step s = .next { s with script := rest, result := s.acc, acc := 0, status := 0, hstate := .idle })

/-- A whole `DRAIN` with no other agent between its steps returns the sum of the queued transitions, oldest first,
and leaves `LAST` at the newest reading. That `CMD` holds the word afterwards is log entry 12 (DEDUCED). -/
def Obligations.DrainReturnsTheSum : Prop :=
  ∀ (s : State), ready s → s.hstate = .idle → s.acc = 0 →
    ∃ t, runs s (.issue none none none 0x40000000 :: List.replicate s.rxq.length .hostLoop) t
      ∧ t = { s with
          script := [], cmd := 0x40000000, rxq := [], last := (s.rxq.getLast?).getD s.last,
          result := BitVec.ofInt 32 (totalSteps s.last s.rxq), status := 0 }

/-- R168: only `DRAIN` changes `LAST` or `ACC`, and only `DRAIN` takes a reading out of `RXQ`. -/
def Obligations.OnlyDrainTouchesTheDecoder : Prop :=
  ∀ s t : State, step s = .next t → ¬ drainsNext s → t.last = s.last ∧ t.acc = s.acc ∧ s.rxq <+: t.rxq

/-! ## The channel commands -/

/-- R202: an accepted `PLAY` aborts, retains, writes the Ring Control Block, sets the clock, programs and starts; no
other bus, register or byte of memory changes, and the fault flags stay. -/
def Obligations.PlayStartsPlayback : Prop :=
  ∀ (b : BitVec 4) (s : State), cfgWf s.cfg = true → s.mem.wf = true → s.buses.length = s.cfg.nbus → b.toNat < s.cfg.nbus →
    s.arg1 ≠ 0 → s.arg1.getLsbD 0 = false →
    ∃ t, exec (.play b) s = .next t
      ∧ t = { s with buses := t.buses, mem := t.mem, status := 0, hstate := .idle }
      ∧ t.buses.length = s.buses.length ∧ (∀ b', b' ≠ b.toNat → t.bus b' = s.bus b')
      ∧ t.bus b.toNat = { s.bus b.toNat with
          smEn := true, dataBusy := true, rcntPend := false, raddrPend := false, txq := [], phase := 0, ctrl := 0b111
          curAddr := s.arg0, curLen := s.arg1
          sampleRate := s.arg2
          smFreq := BitVec.ofNat 32 (min (4 * s.arg2.toNat) 10000000)
          rateClamped := decide (4 * s.arg2.toNat > 10000000)
          dataReadAddr := s.arg0, activeBase := s.arg0, dataTransCount := s.arg1
          dacSig := observed 1 (s.bus b.toNat) 0b111 (s.bus b.toNat).dacSig
          dacPwr := observed 2 (s.bus b.toNat) 0b111 (s.bus b.toNat).dacPwr }
      ∧ wordAt t (rcbAddr s.cfg b.toNat) s.arg0 ∧ wordAt t (rcbAddr s.cfg b.toNat + 4) s.arg1
      ∧ bytesKeptOutside (rcbAddr s.cfg b.toNat) 8 s t

/-- R203 under `atomic`: an accepted `SWAP` retains the buffer and overwrites the Ring Control Block; no DMA register,
no state-machine or clock state, no other byte changes. -/
def Obligations.SwapRewritesTheRecord : Prop :=
  ∀ (b : BitVec 4) (s : State), cfgWf s.cfg = true → s.mem.wf = true → s.buses.length = s.cfg.nbus → b.toNat < s.cfg.nbus →
    s.cfg.handoff = .atomic → s.arg1 ≠ 0 → s.arg1.getLsbD 0 = false →
    ∃ t, exec (.swap b) s = .next t
      ∧ t = { s with buses := t.buses, mem := t.mem, status := 0, hstate := .idle }
      ∧ t.buses.length = s.buses.length ∧ (∀ b', b' ≠ b.toNat → t.bus b' = s.bus b')
      ∧ t.bus b.toNat = { s.bus b.toNat with curAddr := s.arg0, curLen := s.arg1 }
      ∧ wordAt t (rcbAddr s.cfg b.toNat) s.arg0 ∧ wordAt t (rcbAddr s.cfg b.toNat + 4) s.arg1
      ∧ bytesKeptOutside (rcbAddr s.cfg b.toNat) 8 s t

/-- R203 under `split`: the first step of `SWAP` retains the buffer, writes `next_address` and records the second. -/
def Obligations.SplitSwapWritesAddressFirst : Prop :=
  ∀ (b : BitVec 4) (s : State), cfgWf s.cfg = true → s.mem.wf = true → s.buses.length = s.cfg.nbus → b.toNat < s.cfg.nbus →
    s.cfg.handoff = .split → s.arg1 ≠ 0 → s.arg1.getLsbD 0 = false →
    ∃ t, exec (.swap b) s = .next t
      ∧ t = { s with buses := t.buses, mem := t.mem, hstate := .swap2 b.toNat s.arg1 }
      ∧ t.buses.length = s.buses.length ∧ (∀ b', b' ≠ b.toNat → t.bus b' = s.bus b')
      ∧ t.bus b.toNat = { s.bus b.toNat with curAddr := s.arg0, curLen := s.arg1 }
      ∧ wordAt t (rcbAddr s.cfg b.toNat) s.arg0 ∧ bytesKeptOutside (rcbAddr s.cfg b.toNat) 4 s t

/-- R203 under `split`: the second step of `SWAP` writes `next_count` and ends the command. -/
def Obligations.SplitSwapWritesCountSecond : Prop :=
  ∀ (s : State) (b : Nat) (len : Word) (rest : List Event), ready s → s.mem.wf = true → b < s.cfg.nbus → s.hstate = .swap2 b len →
    s.script = .hostLoop :: rest →
    ∃ t, step s = .next t ∧ t = { s with script := rest, mem := t.mem, status := 0, hstate := .idle }
      ∧ wordAt t (rcbAddr s.cfg b + 4) len ∧ bytesKeptOutside (rcbAddr s.cfg b + 4) 4 s t

/-- R231: `PLAY` and `SWAP` reject a zero or odd length with `STATUS` 1 and change nothing else. -/
def Obligations.BadLengthRejected : Prop :=
  ∀ (b : BitVec 4) (s : State), b.toNat < s.cfg.nbus → s.hstate = .idle → s.arg1 = 0 ∨ s.arg1.getLsbD 0 = true →
    exec (.play b) s = .next { s with status := 1 } ∧ exec (.swap b) s = .next { s with status := 1 }

/-- A bus field of `NBUS` or more is rejected with `STATUS` 2, before any length is looked at. -/
def Obligations.MissingBusRejectedFirst : Prop :=
  ∀ (b : BitVec 4) (r : BitVec 12) (s : State), s.cfg.nbus ≤ b.toNat → s.hstate = .idle →
    exec (.play b) s = .next { s with status := 2 } ∧ exec (.swap b) s = .next { s with status := 2 }
      ∧ exec (.updpwr b) s = .next { s with status := 2 } ∧ exec (.rdreg b r) s = .next { s with status := 2 }

/-- R204: the issue of `UPDPWR` with a retained buffer writes index 1 with the clamped level and goes on, or ends if
that was the last index; with none it ends at once. -/
def Obligations.UpdpwrIssueWritesFirstPowerByte : Prop :=
  ∀ (b : BitVec 4) (s : State), b.toNat < s.cfg.nbus → s.mem.wf = true →
    ((s.bus b.toNat).curLen = 0 → exec (.updpwr b) s = .next { s with status := 0, hstate := .idle })
      ∧ ((s.bus b.toNat).curLen ≠ 0 → backedByte s.cfg (powerAddr (s.bus b.toNat) 1) = true →
          ∃ t, exec (.updpwr b) s = .next t
            ∧ t = { s with
                mem := t.mem
                hstate := if 3 < (s.bus b.toNat).curLen.toNat then .updpwr b.toNat 3 (clamped s.arg0) else .idle
                status := if 3 < (s.bus b.toNat).curLen.toNat then s.status else 0 }
            ∧ t.mem.read (powerAddr (s.bus b.toNat) 1) = clamped s.arg0
            ∧ ∀ a, a ≠ powerAddr (s.bus b.toNat) 1 → t.mem.read a = s.mem.read a)

/-- R204: a loop step of `UPDPWR` writes one byte and goes on to the next odd index, or ends. -/
def Obligations.UpdpwrLoopWritesOneByte : Prop :=
  ∀ (s : State) (b i : Nat) (v : Byte) (rest : List Event), ready s → s.mem.wf = true → s.hstate = .updpwr b i v →
    s.script = .hostLoop :: rest → backedByte s.cfg (powerAddr (s.bus b) i) = true →
    ∃ t, step s = .next t
      ∧ t = { s with
          script := rest
          mem := t.mem
          hstate := if i + 2 < (s.bus b).curLen.toNat then .updpwr b (i + 2) v else .idle
          status := if i + 2 < (s.bus b).curLen.toNat then s.status else 0 }
      ∧ t.mem.read (powerAddr (s.bus b) i) = v ∧ ∀ a, a ≠ powerAddr (s.bus b) i → t.mem.read a = s.mem.read a

/-- R76: a host byte access outside `Backed` has no step; the model stops with the fault `hostUnbacked` (log entry 7). -/
def Obligations.UnbackedHostAccessStops : Prop :=
  (∀ (b : BitVec 4) (s : State), b.toNat < s.cfg.nbus → (s.bus b.toNat).curLen ≠ 0 →
      backedByte s.cfg (powerAddr (s.bus b.toNat) 1) = false → exec (.updpwr b) s = .fault .hostUnbacked)
    ∧ (∀ (s : State) (b i : Nat) (v : Byte) (rest : List Event), ready s → s.hstate = .updpwr b i v →
        s.script = .hostLoop :: rest → backedByte s.cfg (powerAddr (s.bus b) i) = false →
        step s = .fault .hostUnbacked)
    ∧ ∀ (s : State) (a : Word) (v : Byte) (rest : List Event), ready s → s.hstate = .idle →
        s.script = .memwr a v :: rest ∨ s.script = .memrd a :: rest → backedByte s.cfg a.toNat = false →
        step s = .fault .hostUnbacked

/-- A whole `UPDPWR` with no other agent between its steps sets every odd-indexed byte of the retained buffer to the
clamped level and no other byte. That `CMD` holds the word afterwards is log entry 12 (DEDUCED). -/
def Obligations.UpdpwrOverwritesEveryPowerByte : Prop :=
  ∀ (s : State) (b : BitVec 4) (level : Word), ready s → s.mem.wf = true → s.hstate = .idle → b.toNat < s.cfg.nbus →
    (s.bus b.toNat).curLen ≠ 0 → (s.bus b.toNat).curLen.getLsbD 0 = false →
    (∀ i, i % 2 = 1 → i < (s.bus b.toNat).curLen.toNat → backedByte s.cfg (powerAddr (s.bus b.toNat) i) = true) →
    ∃ t, runs s (.issue (some level) none none (0x3#4 ++ b ++ 0#24)
          :: List.replicate ((s.bus b.toNat).curLen.toNat / 2 - 1) .hostLoop) t
      ∧ t = { s with script := [], arg0 := level, cmd := 0x3#4 ++ b ++ 0#24, mem := t.mem, status := 0 }
      ∧ (∀ i, i % 2 = 1 → i < (s.bus b.toNat).curLen.toNat →
          t.mem.read (powerAddr (s.bus b.toNat) i) = clamped level)
      ∧ ∀ a, (∀ i, i % 2 = 1 → i < (s.bus b.toNat).curLen.toNat → a ≠ powerAddr (s.bus b.toNat) i) →
          t.mem.read a = s.mem.read a

/-- R205: `RDREG` of a defined register of an existing bus returns its value and changes nothing but `RESULT` and
`STATUS`; a register field that names none, a global register of another bus than 0, and a missing bus are rejected. -/
def Obligations.RdregReturnsTheRegister : Prop :=
  ∀ (b : BitVec 4) (s : State), s.hstate = .idle →
    (b.toNat < s.cfg.nbus →
        ∀ rv ∈ [((0x000 : BitVec 12), smStatusWord (s.bus b.toNat)), (0x001, (s.bus b.toNat).smFreq),
          (0x002, (s.bus b.toNat).sampleRate), (0x003, pinsWord (s.bus b.toNat)),
          (0x004, (s.bus b.toNat).dataReadAddr), (0x005, (s.bus b.toNat).dataTransCount),
          (0x006, dmaStatusWord (s.bus b.toNat)), (0x007, (s.bus b.toNat).activeBase),
          (0x008, (s.bus b.toNat).curAddr), (0x009, (s.bus b.toNat).curLen),
          (0x00A, BitVec.ofNat 32 (rcbAddr s.cfg b.toNat))],
          exec (.rdreg b rv.1) s = .next { s with result := rv.2, status := 0 })
      ∧ (b.toNat < s.cfg.nbus → b = 0 →
          ∀ rv ∈ [((0x100 : BitVec 12), qesStatusWord s), (0x101, s.dropCount), (0x102, s.acc)],
            exec (.rdreg b rv.1) s = .next { s with result := rv.2, status := 0 })
      ∧ (b ≠ 0 → ∀ r ∈ globalRegNumbers, exec (.rdreg b r) s = .next { s with status := 2 })
      ∧ (∀ r, r ∉ busRegNumbers → r ∉ globalRegNumbers → exec (.rdreg b r) s = .next { s with status := 2 })
      ∧ (s.cfg.nbus ≤ b.toNat → ∀ r, exec (.rdreg b r) s = .next { s with status := 2 })

/-- R49 to R52: the fields of the four composed registers. -/
def Obligations.StatusRegisterFields : Prop :=
  (∀ x : Bus, x.txq.length ≤ 255 →
      (smStatusWord x).getLsbD 0 = x.smEn ∧ (smStatusWord x).extractLsb' 1 2 = x.phase
        ∧ (smStatusWord x).getLsbD 3 = x.rateClamped ∧ (smStatusWord x).extractLsb' 4 4 = 0
        ∧ ((smStatusWord x).extractLsb' 8 8).toNat = x.txq.length ∧ (smStatusWord x).extractLsb' 16 16 = 0)
    ∧ (∀ x : Bus, (pinsWord x).extractLsb' 0 8 = x.dout ∧ (pinsWord x).extractLsb' 8 3 = x.ctrl
        ∧ (pinsWord x).extractLsb' 11 21 = 0)
    ∧ pinsWord Bus.reset = 0x700
    ∧ (∀ x : Bus, (dmaStatusWord x).getLsbD 0 = x.dataBusy ∧ (dmaStatusWord x).getLsbD 1 = x.rcntPend
        ∧ (dmaStatusWord x).getLsbD 2 = x.raddrPend ∧ (dmaStatusWord x).getLsbD 3 = x.busFault
        ∧ (dmaStatusWord x).getLsbD 4 = x.zeroCountFault ∧ (dmaStatusWord x).extractLsb' 5 27 = 0)
    ∧ ∀ s : State, s.rxq.length ≤ 255 →
        (qesStatusWord s).extractLsb' 0 2 = s.prev ∧ (qesStatusWord s).extractLsb' 2 2 = s.last
          ∧ (qesStatusWord s).extractLsb' 4 4 = 0 ∧ ((qesStatusWord s).extractLsb' 8 8).toNat = s.rxq.length
          ∧ (qesStatusWord s).extractLsb' 16 16 = 0

/-- R78: the host's own byte store and load, with their frames; the byte loaded goes to the model's field `memrdOut` (log
entry 11). -/
def Obligations.HostByteAccess : Prop :=
  ∀ (s : State) (a : Word) (v : Byte) (rest : List Event), ready s → s.mem.wf = true → s.hstate = .idle →
    backedByte s.cfg a.toNat = true →
    (s.script = .memwr a v :: rest →
        ∃ t, step s = .next t ∧ t = { s with script := rest, mem := t.mem } ∧ t.mem.read a.toNat = v
          ∧ ∀ c, c ≠ a.toNat → t.mem.read c = s.mem.read c)
      ∧ (s.script = .memrd a :: rest → step s = .next { s with script := rest, memrdOut := s.mem.read a.toNat })

/-! ## The ring -/

/-- R176: `DXFER` moves one byte, or sets the fault flag at an unbacked address and moves none; nothing of another
bus, of memory or of any other item changes. A channel that is idle, has nothing to move, finds the queue full, or has
a fault flag set does not move. -/
def Obligations.DxferMovesOneByteOrWaits : Prop :=
  ∀ (s : State) (b : Nat) (rest : List Event), ready s → s.buses.length = s.cfg.nbus → b < s.cfg.nbus →
    s.script = .data b :: rest →
    ((s.bus b).dataBusy = true → (s.bus b).dataTransCount ≠ 0 → (s.bus b).txq.length < s.cfg.txqDepth → noFault s b →
        ∃ t, step s = .next t ∧ onlyBus b { s with script := rest } t
          ∧ (backedByte s.cfg (s.bus b).dataReadAddr.toNat = true →
              t.bus b = { s.bus b with
                txq := (s.bus b).txq ++ [s.mem.read (s.bus b).dataReadAddr.toNat]
                dataReadAddr := (s.bus b).dataReadAddr + 1
                dataTransCount := (s.bus b).dataTransCount - 1
                dataBusy := decide ((s.bus b).dataTransCount ≠ 1)
                rcntPend := (s.bus b).rcntPend || decide ((s.bus b).dataTransCount = 1) })
          ∧ (backedByte s.cfg (s.bus b).dataReadAddr.toNat = false → t.bus b = { s.bus b with busFault := true }))
      ∧ ((s.bus b).dataBusy = false ∨ (s.bus b).dataTransCount = 0 ∨ s.cfg.txqDepth ≤ (s.bus b).txq.length
          ∨ ¬ noFault s b →
          step s = .next { s with script := rest })

/-- R178: `RCNTX` loads `next_count` and passes the chain on; with no re-arm pending, or a fault flag set, there is no
step. -/
def Obligations.RcntxLoadsTheCount : Prop :=
  ∀ (s : State) (b : Nat) (rest : List Event), ready s → s.buses.length = s.cfg.nbus → b < s.cfg.nbus →
    s.script = .rcnt b :: rest → s.cfg.handoff = .split →
    ((s.bus b).rcntPend = true → noFault s b →
        ∃ t, step s = .next t ∧ onlyBus b { s with script := rest } t
          ∧ t.bus b = { s.bus b with
              dataTransCount := s.mem.readWord (rcbAddr s.cfg b + 4), rcntPend := false, raddrPend := true })
      ∧ ((s.bus b).rcntPend = false ∨ ¬ noFault s b → step s = .next { s with script := rest })

/-- R179, R181: `RADDRX` loads `next_address` and restarts the data channel, or faults at a zero count; under `atomic`,
with no transfer pending, or with a fault flag set, there is no step. That `RADDR[b]` has none under `atomic` is log entry
17 (DESIGN CHOICE): R180 gives `REARM` to both re-arm channels together. -/
def Obligations.RaddrxRestartsTheChannel : Prop :=
  ∀ (s : State) (b : Nat) (rest : List Event), ready s → s.buses.length = s.cfg.nbus → b < s.cfg.nbus →
    s.script = .raddr b :: rest →
    (s.cfg.handoff = .split → (s.bus b).raddrPend = true → noFault s b →
        ∃ t, step s = .next t ∧ onlyBus b { s with script := rest } t
          ∧ ((s.bus b).dataTransCount ≠ 0 →
              t.bus b = { s.bus b with
                raddrPend := false, dataReadAddr := s.mem.readWord (rcbAddr s.cfg b)
                activeBase := s.mem.readWord (rcbAddr s.cfg b), dataBusy := true })
          ∧ ((s.bus b).dataTransCount = 0 →
              t.bus b = { s.bus b with
                raddrPend := false, dataReadAddr := s.mem.readWord (rcbAddr s.cfg b)
                activeBase := s.mem.readWord (rcbAddr s.cfg b), zeroCountFault := true }))
      ∧ (s.cfg.handoff = .atomic ∨ (s.bus b).raddrPend = false ∨ ¬ noFault s b →
          step s = .next { s with script := rest })

/-- R180, R181: `REARM` loads both words in one step and restarts the data channel, or faults at a zero count; with no
re-arm pending, or a fault flag set, there is no step. That the step is taken at a turn of `RCNT[b]` is log entry 17 (DESIGN
CHOICE): R180 gives it to `RCNT[b]` and `RADDR[b]` together. -/
def Obligations.RearmLoadsBothWords : Prop :=
  ∀ (s : State) (b : Nat) (rest : List Event), ready s → s.buses.length = s.cfg.nbus → b < s.cfg.nbus →
    s.script = .rcnt b :: rest → s.cfg.handoff = .atomic →
    ((s.bus b).rcntPend = true → noFault s b →
        ∃ t, step s = .next t ∧ onlyBus b { s with script := rest } t
          ∧ (s.mem.readWord (rcbAddr s.cfg b + 4) ≠ 0 →
              t.bus b = { s.bus b with
                dataTransCount := s.mem.readWord (rcbAddr s.cfg b + 4), rcntPend := false
                dataReadAddr := s.mem.readWord (rcbAddr s.cfg b), activeBase := s.mem.readWord (rcbAddr s.cfg b)
                dataBusy := true })
          ∧ (s.mem.readWord (rcbAddr s.cfg b + 4) = 0 →
              t.bus b = { s.bus b with
                dataTransCount := 0, rcntPend := false
                dataReadAddr := s.mem.readWord (rcbAddr s.cfg b), activeBase := s.mem.readWord (rcbAddr s.cfg b)
                zeroCountFault := true }))
      ∧ ((s.bus b).rcntPend = false ∨ ¬ noFault s b → step s = .next { s with script := rest })

/-- R233: while a fault flag of bus `b` is set, no DMA step of bus `b` is enabled. -/
def Obligations.FaultHaltsTheRing : Prop :=
  ∀ (s : State) (b : Nat) (e : Event) (rest : List Event), ready s →
    (s.bus b).busFault = true ∨ (s.bus b).zeroCountFault = true → e = .data b ∨ e = .rcnt b ∨ e = .raddr b →
    s.script = e :: rest → step s = .next { s with script := rest }

/-- R35, R25: no step clears a fault flag, and no step turns a state machine off. -/
def Obligations.StickyFlagsStay : Prop :=
  ∀ (s t : State) (b : Nat), step s = .next t →
    ((s.bus b).busFault = true → (t.bus b).busFault = true)
      ∧ ((s.bus b).zeroCountFault = true → (t.bus b).zeroCountFault = true)
      ∧ ((s.bus b).smEn = true → (t.bus b).smEn = true)

/-- From a state in order a started ring without a fault is never stuck: a DMA step of the bus is enabled, or the
queue is full and waits for the state machine. -/
def Obligations.RingNeverStuck : Prop :=
  ∀ (s : State) (b : Nat), MachineInv s → b < s.cfg.nbus → (s.bus b).smEn = true → noFault s b →
    dxferEnabled s.cfg (s.bus b) = true ∨ rcntEnabled (s.bus b) = true ∨ raddrEnabled s.cfg (s.bus b) = true
      ∨ (s.bus b).txq.length = s.cfg.txqDepth

/-- `k` turns of the data channel put the next `k` bytes of the pass into the queue, in ascending address order, and
complete the pass exactly when its count is used up. -/
def Obligations.DataChannelDeliversInOrder : Prop :=
  ∀ (s : State) (b k : Nat), ready s → s.buses.length = s.cfg.nbus → b < s.cfg.nbus →
    (s.bus b).dataBusy = true → (s.bus b).rcntPend = false → noFault s b →
    k ≤ (s.bus b).dataTransCount.toNat → 0 < (s.bus b).dataTransCount.toNat →
    (s.bus b).txq.length + k ≤ s.cfg.txqDepth →
    (∀ i, i < k → backedByte s.cfg ((s.bus b).dataReadAddr + BitVec.ofNat 32 i).toNat = true) →
    ∃ t, runs s (List.replicate k (.data b)) t ∧ onlyBus b { s with script := [] } t
      ∧ t.bus b = { s.bus b with
          txq := (s.bus b).txq
            ++ (List.range k).map fun i => s.mem.read ((s.bus b).dataReadAddr + BitVec.ofNat 32 i).toNat
          dataReadAddr := (s.bus b).dataReadAddr + BitVec.ofNat 32 k
          dataTransCount := (s.bus b).dataTransCount - BitVec.ofNat 32 k
          dataBusy := decide (k < (s.bus b).dataTransCount.toNat)
          rcntPend := decide (k = (s.bus b).dataTransCount.toNat) }

/-- A pass in progress is disturbed by nothing but its own channel and a `PLAY` of its bus; a `SWAP` leaves it
alone. -/
def Obligations.PassIsUndisturbed : Prop :=
  ∀ (s t : State) (b : Nat), (s.bus b).dataBusy = true → (s.bus b).rcntPend = false → (s.bus b).raddrPend = false →
    step s = .next t → s.event ≠ .data b → ¬ issuesPlay s b →
    (t.bus b).dataReadAddr = (s.bus b).dataReadAddr ∧ (t.bus b).dataTransCount = (s.bus b).dataTransCount
      ∧ (t.bus b).activeBase = (s.bus b).activeBase ∧ (t.bus b).dataBusy = true

/-- `ACTIVE_BASE` changes only to a buffer's base: the operand of a `PLAY`, or the `next_address` word at a re-arm (which
turn takes `REARM`: log entry 17, DESIGN CHOICE). -/
def Obligations.ActiveBaseIsABufferBase : Prop :=
  ∀ (s t : State) (b : Nat), step s = .next t → (t.bus b).activeBase ≠ (s.bus b).activeBase →
    (issuesPlay s b ∧ (t.bus b).activeBase = t.arg0)
      ∨ ((s.event = .rcnt b ∨ s.event = .raddr b) ∧ (t.bus b).activeBase = s.mem.readWord (rcbAddr s.cfg b))

/-- When a completed `SWAP` takes effect, under both hand-offs. While the count re-arm is pending: at that re-arm. While a
pass has `k` bytes left and the queue room for them: after `k` turns of the data channel, at the re-arm. And on every
schedule, from the record a completed `SWAP` left: exactly `k` steps of the data channel read the old buffer, then a re-arm
is due, and it loads the new pair; from the next byte on the new buffer is the active one. A re-arm under `atomic` is a turn
of `RCNT[b]` (log entry 17, DESIGN CHOICE). -/
def Obligations.SwapAppliesAtTheNextRearm : Prop :=
  (∀ (s : State) (b : BitVec 4) (addr len : Word), ready s → s.mem.wf = true → s.buses.length = s.cfg.nbus →
      b.toNat < s.cfg.nbus → s.hstate = .idle → (s.bus b.toNat).rcntPend = true → noFault s b.toNat →
      len ≠ 0 → len.getLsbD 0 = false →
      ∃ t, runs s (swapEvents s.cfg.handoff b addr len ++ rearmEvents s.cfg.handoff b.toNat) t
        ∧ (t.bus b.toNat).activeBase = addr ∧ (t.bus b.toNat).dataReadAddr = addr
        ∧ (t.bus b.toNat).dataTransCount = len ∧ (t.bus b.toNat).dataBusy = true
        ∧ (t.bus b.toNat).txq = (s.bus b.toNat).txq ∧ t.status = 0 ∧ t.hstate = .idle)
    ∧ (∀ (s : State) (b : BitVec 4) (addr len : Word) (k : Nat), ready s → s.mem.wf = true →
        s.buses.length = s.cfg.nbus → b.toNat < s.cfg.nbus → s.hstate = .idle → (s.bus b.toNat).dataBusy = true →
        k = (s.bus b.toNat).dataTransCount.toNat → 0 < k → noFault s b.toNat → len ≠ 0 → len.getLsbD 0 = false →
        (s.bus b.toNat).txq.length + k ≤ s.cfg.txqDepth →
        (∀ i, i < k → backedByte s.cfg ((s.bus b.toNat).dataReadAddr + BitVec.ofNat 32 i).toNat = true
          ∧ ¬ inRcb s.cfg b.toNat ((s.bus b.toNat).dataReadAddr + BitVec.ofNat 32 i).toNat) →
        ∃ t, runs s (swapEvents s.cfg.handoff b addr len ++ List.replicate k (.data b.toNat)
              ++ rearmEvents s.cfg.handoff b.toNat) t
          ∧ (t.bus b.toNat).activeBase = addr ∧ (t.bus b.toNat).dataReadAddr = addr
          ∧ (t.bus b.toNat).dataTransCount = len ∧ (t.bus b.toNat).dataBusy = true
          ∧ (t.bus b.toNat).txq = (s.bus b.toNat).txq
              ++ (List.range k).map fun i => s.mem.read ((s.bus b.toNat).dataReadAddr + BitVec.ofNat 32 i).toNat)
    ∧ ∀ (s u : State) (b n : Nat), MachineInv s → retainedValid s → b < s.cfg.nbus → (∀ l, s.hstate ≠ .swap2 b l) →
        (s.bus b).dataBusy = true → UndisturbedRun b s n u → noFault u b →
        let k := (s.bus b).dataTransCount.toNat
        let addr := s.mem.readWord (rcbAddr s.cfg b)
        let len := s.mem.readWord (rcbAddr s.cfg b + 4)
        (n < k → (u.bus b).dataBusy = true ∧ (u.bus b).activeBase = (s.bus b).activeBase
            ∧ (u.bus b).dataReadAddr = (s.bus b).dataReadAddr + BitVec.ofNat 32 n
            ∧ (u.bus b).dataTransCount = (s.bus b).dataTransCount - BitVec.ofNat 32 n)
          ∧ (n = k → ((u.bus b).rcntPend = true ∧ (u.bus b).activeBase = (s.bus b).activeBase)
              ∨ ((u.bus b).raddrPend = true ∧ (u.bus b).activeBase = (s.bus b).activeBase
                ∧ (u.bus b).dataTransCount = len)
              ∨ ((u.bus b).dataBusy = true ∧ (u.bus b).activeBase = addr ∧ (u.bus b).dataReadAddr = addr
                ∧ (u.bus b).dataTransCount = len))
          ∧ (k < n → (u.bus b).activeBase = addr)

/-- Under `split` a `SWAP` that lands between the two re-arm transfers gives the mixed pass: the new address with the
old count. -/
def Obligations.MixedPassUnderSplit : Prop :=
  ∀ (s : State) (b : BitVec 4) (addr len : Word), ready s → s.mem.wf = true → s.buses.length = s.cfg.nbus → b.toNat < s.cfg.nbus →
    s.cfg.handoff = .split → s.hstate = .idle → (s.bus b.toNat).rcntPend = true → noFault s b.toNat →
    len ≠ 0 → len.getLsbD 0 = false → s.mem.readWord (rcbAddr s.cfg b.toNat + 4) ≠ 0 →
    ∃ t, runs s [.rcnt b.toNat, .issue (some addr) (some len) none (0x2#4 ++ b ++ 0#24), .raddr b.toNat, .hostLoop] t
      ∧ (t.bus b.toNat).activeBase = addr ∧ (t.bus b.toNat).dataReadAddr = addr
      ∧ (t.bus b.toNat).dataTransCount = s.mem.readWord (rcbAddr s.cfg b.toNat + 4)
      ∧ (t.bus b.toNat).dataBusy = true ∧ wordAt t (rcbAddr s.cfg b.toNat + 4) len

/-! ## Rules of the whole machine -/

/-- R207: the clock state of a bus changes only in a `PLAY` of it, its retained buffer only in a `PLAY` or `SWAP` of
it. -/
def Obligations.OnlyPlayAndSwapMutateTheChannel : Prop :=
  ∀ (s t : State) (b : Nat), step s = .next t → ¬ issuesPlay s b →
    (t.bus b).sampleRate = (s.bus b).sampleRate ∧ (t.bus b).smFreq = (s.bus b).smFreq
      ∧ (t.bus b).rateClamped = (s.bus b).rateClamped ∧ (t.bus b).smEn = (s.bus b).smEn
      ∧ (¬ issuesSwap s b → (t.bus b).curAddr = (s.bus b).curAddr ∧ (t.bus b).curLen = (s.bus b).curLen)

/-- R144: `PHASE`, the lines and the DACs of a bus change only in a step of its state machine or a `PLAY` of it, its
queue only there and in its data channel. -/
def Obligations.OnlyBppAndPlayMoveTheLines : Prop :=
  ∀ (s t : State) (b : Nat), step s = .next t → s.event ≠ .bpp b → ¬ issuesPlay s b →
    (t.bus b).phase = (s.bus b).phase ∧ (t.bus b).dout = (s.bus b).dout ∧ (t.bus b).ctrl = (s.bus b).ctrl
      ∧ (t.bus b).dacSig = (s.bus b).dacSig ∧ (t.bus b).dacPwr = (s.bus b).dacPwr
      ∧ (s.event ≠ .data b → (t.bus b).txq = (s.bus b).txq)

/-- R144, R241: a step of an agent of bus `b` writes bus `b` and nothing else of the spec's state (`curBus`: log entry
10). -/
def Obligations.BusStepsWriteOnlyTheirBus : Prop :=
  ∀ (s t : State) (b : Nat), turnOfBus b s.event → step s = .next t →
    t = { s.chosen with buses := t.buses, curBus := t.curBus } ∧ t.buses.length = s.buses.length
      ∧ ∀ b', b' ≠ b → t.bus b' = s.bus b'

/-- R144: what a step of an agent of bus `b` makes of bus `b` does not depend on any other bus. -/
def Obligations.BusStepsReadOnlyTheirBus : Prop :=
  ∀ (s t s' t' : State) (b : Nat), turnOfBus b s.event → s' = { s with buses := s'.buses } →
    s'.buses.length = s.buses.length → s'.bus b = s.bus b → step s = .next t → step s' = .next t' →
    t'.bus b = t.bus b

/-- R241: no hardware agent writes memory or the command port; and the step of `ENV` gives the encoder lines its value
and changes nothing else (R41, R154; the lines are held in `encIn`: log entry 5). -/
def Obligations.HardwareNeverWritesMemory : Prop :=
  (∀ s t : State, ((∃ b, turnOfBus b s.event) ∨ s.event = .qes ∨ ∃ l, s.event = .env l) → step s = .next t →
      t.mem = s.mem ∧ t.arg0 = s.arg0 ∧ t.arg1 = s.arg1 ∧ t.arg2 = s.arg2 ∧ t.cmd = s.cmd ∧ t.status = s.status
        ∧ t.result = s.result ∧ t.hstate = s.hstate)
    ∧ ∀ (s : State) (l : Lines) (rest : List Event), ready s → s.script = .env l :: rest →
        step s = .next { s with script := rest, encIn := l }
end

