-- ==== Sys2Proof/Laws/Memory.lean ====
section
/-! SUPPORT. The laws of memory: a read after a write, the canonical form kept by every write, words and the Ring
Control Block. -/

namespace Sys2Proof.Machine

/-! ## One byte -/

/-- Below its first key a canonical memory lists nothing. -/
theorem Memory.read_below {lo a : Nat} {m : Memory} (h : m.wfFrom lo = true) (ha : a < lo) : m.read a = unlisted := by
  induction m generalizing lo with
  | nil => rfl
  | cons c m ih =>
    obtain ⟨k, w⟩ := c
    simp only [Memory.wfFrom, Bool.and_eq_true, decide_eq_true_eq] at h
    have hk : k ≠ a := by omega
    simp [Memory.read, hk, ih h.2 (by omega)]

/-- A canonical memory reads back what was written. -/
theorem Memory.read_write_same_from {lo a : Nat} {m : Memory} (v : Byte) (h : m.wfFrom lo = true) :
    (m.write a v).read a = v := by
  induction m generalizing lo with
  | nil =>
    by_cases hv : v = unlisted <;> simp [Memory.write, Memory.read, hv]
  | cons c m ih =>
    obtain ⟨k, w⟩ := c
    have h' := h
    simp only [Memory.wfFrom, Bool.and_eq_true, decide_eq_true_eq] at h'
    simp only [Memory.write]
    split
    · rename_i hak
      split
      · rename_i hv
        have hm : Memory.read m a = unlisted := Memory.read_below h'.2 (by omega)
        have hk : k ≠ a := by omega
        simp [Memory.read, hk, hm, hv]
      · simp [Memory.read]
    · split
      · rename_i hak
        split
        · rename_i hv
          subst hak
          rw [hv, Memory.read_below h'.2 (by omega)]
        · simp [Memory.read]
      · rename_i h1 h2
        have hk : k ≠ a := fun e => h2 e.symm
        simp [Memory.read, hk, ih h'.2]

/-- Reading the byte just written. -/
theorem Memory.read_write_same {a : Nat} {m : Memory} (v : Byte) (h : m.wf = true) : (m.write a v).read a = v :=
  Memory.read_write_same_from v h

/-- Reading another byte. -/
theorem Memory.read_write_other {a c : Nat} (m : Memory) (v : Byte) (h : c ≠ a) : (m.write a v).read c = m.read c := by
  induction m with
  | nil => by_cases hv : v = unlisted <;> simp [Memory.write, Memory.read, hv, h.symm]
  | cons e m ih =>
    obtain ⟨k, w⟩ := e
    simp only [Memory.write]
    split
    · split <;> simp [Memory.read, h.symm]
    · split
      · rename_i hak
        have hk : k ≠ c := fun e => h (e.symm.trans hak.symm)
        split <;> simp [Memory.read, hk, h.symm]
      · simp [Memory.read, ih]

/-- A lower bound may be lowered. -/
theorem Memory.wfFrom_mono {lo lo' : Nat} {m : Memory} (h : m.wfFrom lo' = true) (hl : lo ≤ lo') :
    m.wfFrom lo = true := by
  cases m with
  | nil => rfl
  | cons c m =>
    simp only [Memory.wfFrom, Bool.and_eq_true, decide_eq_true_eq] at h ⊢
    exact ⟨⟨⟨by omega, h.1.1.2⟩, h.1.2⟩, h.2⟩

/-- A write keeps the canonical form above any bound the address respects. -/
theorem Memory.write_wfFrom {lo a : Nat} {m : Memory} (v : Byte) (h : m.wfFrom lo = true) (hlo : lo ≤ a)
    (ha : a < 2 ^ 32) : (m.write a v).wfFrom lo = true := by
  induction m generalizing lo with
  | nil => by_cases hv : v = unlisted <;> simp [Memory.write, Memory.wfFrom, hv]; omega
  | cons c m ih =>
    obtain ⟨k, w⟩ := c
    have h' := h
    simp only [Memory.wfFrom, Bool.and_eq_true, decide_eq_true_eq] at h'
    obtain ⟨⟨⟨hk1, hk2⟩, hw⟩, hm⟩ := h'
    simp only [Memory.write]
    split
    · split
      · exact h
      · rename_i hak hv
        simp only [Memory.wfFrom, Bool.and_eq_true, decide_eq_true_eq]
        exact ⟨⟨⟨hlo, ha⟩, hv⟩, ⟨⟨by omega, hk2⟩, hw⟩, hm⟩
    · split
      · rename_i hak
        subst hak
        split
        · exact Memory.wfFrom_mono hm (by omega)
        · rename_i hv
          simp only [Memory.wfFrom, Bool.and_eq_true, decide_eq_true_eq]
          exact ⟨⟨⟨hlo, ha⟩, hv⟩, hm⟩
      · simp only [Memory.wfFrom, Bool.and_eq_true, decide_eq_true_eq]
        exact ⟨⟨⟨hk1, hk2⟩, hw⟩, ih hm (by omega)⟩

/-- A write keeps the canonical form. -/
theorem Memory.write_wf {a : Nat} {m : Memory} (v : Byte) (h : m.wf = true) (ha : a < 2 ^ 32) : (m.write a v).wf = true :=
  Memory.write_wfFrom v h (Nat.zero_le a) ha

/-- A write lists no address but its own beside those listed before. -/
theorem Memory.mem_write {a : Nat} {m : Memory} {v : Byte} {c : Host.Cell} (h : c ∈ m.write a v) : c ∈ m ∨ c = (a, v) := by
  induction m with
  | nil =>
    by_cases hv : v = unlisted
    · simp [Memory.write, hv] at h
    · simp only [Memory.write, hv, if_false, List.mem_singleton] at h
      exact .inr h
  | cons e m ih =>
    obtain ⟨k, w⟩ := e
    simp only [Memory.write] at h
    split at h
    · split at h
      · exact .inl h
      · rcases List.mem_cons.1 h with h | h
        · exact .inr h
        · exact .inl h
    · split at h
      · split at h
        · exact .inl (List.mem_cons_of_mem _ h)
        · rcases List.mem_cons.1 h with h | h
          · exact .inr h
          · exact .inl (List.mem_cons_of_mem _ h)
      · rcases List.mem_cons.1 h with h | h
        · exact .inl (h ▸ List.mem_cons_self)
        · rcases ih h with h | h
          · exact .inl (List.mem_cons_of_mem _ h)
          · exact .inr h

/-! ## A word -/

/-- Reading a byte outside the word just written. -/
theorem Memory.read_writeWord_other {a c : Nat} (m : Memory) (v : Word) (h : c < a ∨ a + 4 ≤ c) :
    (m.writeWord a v).read c = m.read c := by
  unfold Memory.writeWord
  rw [Memory.read_write_other _ _ (by omega), Memory.read_write_other _ _ (by omega),
    Memory.read_write_other _ _ (by omega), Memory.read_write_other _ _ (by omega)]

/-- A word write keeps the canonical form. -/
theorem Memory.writeWord_wf {a : Nat} {m : Memory} (v : Word) (h : m.wf = true) (ha : a + 4 ≤ 2 ^ 32) :
    (m.writeWord a v).wf = true :=
  Memory.write_wf _ (Memory.write_wf _ (Memory.write_wf _ (Memory.write_wf _ h (by omega)) (by omega)) (by omega))
    (by omega)

/-- Byte `k` of the word just written. -/
theorem Memory.read_writeWord_same {a k : Nat} {m : Memory} (v : Word) (h : m.wf = true) (ha : a + 4 ≤ 2 ^ 32)
    (hk : k < 4) : (m.writeWord a v).read (a + k) = v.extractLsb' (8 * k) 8 := by
  have h0 := Memory.write_wf (a := a) (v.extractLsb' 0 8) h (by omega)
  have h1 := Memory.write_wf (a := a + 1) (v.extractLsb' 8 8) h0 (by omega)
  have h2 := Memory.write_wf (a := a + 2) (v.extractLsb' 16 8) h1 (by omega)
  unfold Memory.writeWord
  obtain rfl | rfl | rfl | rfl : k = 0 ∨ k = 1 ∨ k = 2 ∨ k = 3 := by omega
  · rw [Memory.read_write_other _ _ (by omega), Memory.read_write_other _ _ (by omega),
      Memory.read_write_other _ _ (by omega)]
    exact Memory.read_write_same _ h
  · rw [Memory.read_write_other _ _ (by omega), Memory.read_write_other _ _ (by omega)]
    exact Memory.read_write_same _ h0
  · rw [Memory.read_write_other _ _ (by omega)]
    exact Memory.read_write_same _ h1
  · exact Memory.read_write_same _ h2

/-- Four bytes of a word, put together again. -/
theorem word_of_bytes (v : Word) :
    v.extractLsb' 24 8 ++ v.extractLsb' 16 8 ++ v.extractLsb' 8 8 ++ v.extractLsb' 0 8 = v := by
  apply BitVec.eq_of_getLsbD_eq
  intro i hi
  simp only [BitVec.getLsbD_append, BitVec.getLsbD_extractLsb']
  split
  · simp [*]
  · split
    · rw [show 8 + (i - 8) = i by omega]; simp [*]
    · split
      · rw [show 16 + (i - 8 - 8) = i by omega]; simp [*]
      · rw [show 24 + (i - 8 - 8 - 8) = i by omega]; simp; omega

/-- Reading the word just written. -/
theorem Memory.readWord_writeWord_same {a : Nat} {m : Memory} (v : Word) (h : m.wf = true) (ha : a + 4 ≤ 2 ^ 32) :
    (m.writeWord a v).readWord a = v := by
  unfold Memory.readWord
  rw [Memory.read_writeWord_same v h ha (by omega), Memory.read_writeWord_same v h ha (by omega),
    Memory.read_writeWord_same v h ha (by omega)]
  have := Memory.read_writeWord_same (k := 0) v h ha (by omega)
  rw [Nat.add_zero] at this
  rw [this]
  exact word_of_bytes v

/-- Reading a word clear of the one just written. -/
theorem Memory.readWord_writeWord_other {a c : Nat} (m : Memory) (v : Word) (h : c + 4 ≤ a ∨ a + 4 ≤ c) :
    (m.writeWord a v).readWord c = m.readWord c := by
  unfold Memory.readWord
  rw [Memory.read_writeWord_other _ _ (by omega), Memory.read_writeWord_other _ _ (by omega),
    Memory.read_writeWord_other _ _ (by omega), Memory.read_writeWord_other _ _ (by omega)]

/-- A word write lists no address but its own four. -/
theorem Memory.mem_writeWord {a : Nat} {m : Memory} {v : Word} {c : Host.Cell} (h : c ∈ m.writeWord a v) :
    c ∈ m ∨ (a ≤ c.1 ∧ c.1 < a + 4) := by
  rcases Memory.mem_write h with h | rfl
  · rcases Memory.mem_write h with h | rfl
    · rcases Memory.mem_write h with h | rfl
      · rcases Memory.mem_write h with h | rfl
        · exact .inl h
        · exact .inr ⟨by simp, by simp⟩
      · exact .inr ⟨by simp, by simp⟩
    · exact .inr ⟨by simp, by simp⟩
  · exact .inr ⟨by simp, by simp⟩

/-! ## The access primitives: everything they can do -/

/-- `Backed(a, n)` gives every byte of the range and the bound. -/
theorem backedRange_byte {cfg : Config} {a n c : Nat} (h : backedRange cfg a n = true) (h1 : a ≤ c) (h2 : c < a + n) :
    backedByte cfg c = true := by
  simp only [backedRange, Bool.and_eq_true, List.all_eq_true, List.mem_range, decide_eq_true_eq] at h
  have := h.2 (c - a) (by omega)
  rwa [show a + (c - a) = c by omega] at this

/-- `Backed(a, n)` stays inside the address space. -/
theorem backedRange_bound {cfg : Config} {a n : Nat} (h : backedRange cfg a n = true) : a + n ≤ 2 ^ 32 := by
  simp only [backedRange, Bool.and_eq_true, decide_eq_true_eq] at h
  exact h.1

/-- A range of a backed range is backed. -/
theorem backedRange_sub {cfg : Config} {a n c k : Nat} (h : backedRange cfg a n = true) (h1 : a ≤ c)
    (h2 : c + k ≤ a + n) : backedRange cfg c k = true := by
  have hb := backedRange_bound h
  simp only [backedRange, Bool.and_eq_true, List.all_eq_true, List.mem_range, decide_eq_true_eq]
  exact ⟨by omega, fun i hi => backedRange_byte h (by omega) (by omega)⟩

/-- A backed address is inside the address space. -/
theorem backedByte_bound {cfg : Config} {a : Nat} (h : backedByte cfg a = true) : a < 2 ^ 32 := by
  simp only [backedByte, Bool.and_eq_true, decide_eq_true_eq] at h
  exact h.1

/-- `MemRead(a, 1)` answers exactly at backed addresses, the byte there. -/
theorem memReadByte_some {cfg : Config} {m : Memory} {a : Nat} {v : Byte} :
    memReadByte cfg m a = some v ↔ backedByte cfg a = true ∧ v = m.read a := by
  unfold memReadByte
  split <;> simp [*, eq_comm]

/-- `MemWrite(a, 1, v)` answers exactly at backed addresses. -/
theorem memWriteByte_some {cfg : Config} {m m' : Memory} {a : Nat} {v : Byte} :
    memWriteByte cfg m a v = some m' ↔ backedByte cfg a = true ∧ m' = m.write a v := by
  unfold memWriteByte
  split <;> simp [*, eq_comm]

/-- `MemRead(a, 4)` answers exactly at aligned backed addresses. -/
theorem memReadWord_some {cfg : Config} {m : Memory} {a : Nat} {v : Word} :
    memReadWord cfg m a = some v ↔ wordAccess cfg a = true ∧ v = m.readWord a := by
  unfold memReadWord
  split <;> simp [*, eq_comm]

/-- `MemWrite(a, 4, v)` answers exactly at aligned backed addresses. -/
theorem memWriteWord_some {cfg : Config} {m m' : Memory} {a : Nat} {v : Word} :
    memWriteWord cfg m a v = some m' ↔ wordAccess cfg a = true ∧ m' = m.writeWord a v := by
  unfold memWriteWord
  split <;> simp [*, eq_comm]

/-- A word access is a backed range of four. -/
theorem wordAccess_range {cfg : Config} {a : Nat} (h : wordAccess cfg a = true) : backedRange cfg a 4 = true := by
  simp only [wordAccess, Bool.and_eq_true] at h
  exact h.2

/-- Both words of a record are written exactly when both are accessible. -/
theorem writeRcb_some {cfg : Config} {m m' : Memory} {b : Nat} {addr len : Word} :
    writeRcb cfg m b addr len = some m' ↔
      wordAccess cfg (rcbAddr cfg b) = true ∧ wordAccess cfg (rcbAddr cfg b + 4) = true
        ∧ m' = (m.writeWord (rcbAddr cfg b) addr).writeWord (rcbAddr cfg b + 4) len := by
  unfold writeRcb
  cases h : memWriteWord cfg m (rcbAddr cfg b) addr with
  | none =>
    have : wordAccess cfg (rcbAddr cfg b) ≠ true := fun hw => by simp [memWriteWord, hw] at h
    simp [this]
  | some m1 =>
    obtain ⟨h1, rfl⟩ := memWriteWord_some.1 h
    simp [memWriteWord_some, h1]

/-! ## The Ring Control Block of a well-formed configuration -/

/-- In a well-formed configuration the record of a bus is aligned and backed. -/
theorem rcb_backed {cfg : Config} {b : Nat} (h : cfgWf cfg = true) (hb : b < cfg.nbus) :
    rcbAddr cfg b % 4 = 0 ∧ backedRange cfg (rcbAddr cfg b) 8 = true := by
  simp only [cfgWf, Bool.and_eq_true, List.all_eq_true] at h
  have hk := h.1.1.1.1.2 (cfg.buses[b]) (List.getElem_mem hb)
  have e : rcbAddr cfg b = (cfg.buses[b]).rcbAddr.toNat := by simp [rcbAddr, hb]
  simp only [rcbWf, Bool.and_eq_true, decide_eq_true_eq] at hk
  rw [e]
  exact hk

/-- R76: the accesses to a Ring Control Block cannot fail in a well-formed configuration. -/
theorem rcb_access {cfg : Config} {b : Nat} (h : cfgWf cfg = true) (hb : b < cfg.nbus) :
    wordAccess cfg (rcbAddr cfg b) = true ∧ wordAccess cfg (rcbAddr cfg b + 4) = true := by
  obtain ⟨h4, h8⟩ := rcb_backed h hb
  simp only [wordAccess, Bool.and_eq_true, decide_eq_true_eq]
  exact ⟨⟨h4, backedRange_sub h8 (by omega) (by omega)⟩, by omega, backedRange_sub h8 (by omega) (by omega)⟩

end Sys2Proof.Machine
end

