-- ==== Sys2Proof/Laws/State.lean ====
section
/-! SUPPORT. One lemma per field per update of the state and of a bus, true by rfl, so that no proof unfolds a record
update; and reading a bus after writing one. -/

namespace Sys2Proof.Machine

variable (s : State) (b b' : Nat) (x y : Bus) (c : Status) (d : Byte) (k : Ctrl)

/-! ## outcome -/

@[simp] theorem outcome_run (i : Instr) : (Action.run i s).outcome = exec i s := rfl
@[simp] theorem outcome_done (o : Host.Outcome State Fault Refusal) : (Action.done o).outcome = o := rfl

/-! ## setBus -/

@[simp] theorem setBus_cfg : (s.setBus b x).cfg = s.cfg := rfl
@[simp] theorem setBus_bppRom : (s.setBus b x).bppRom = s.bppRom := rfl
@[simp] theorem setBus_qesRom : (s.setBus b x).qesRom = s.qesRom := rfl
@[simp] theorem setBus_prev : (s.setBus b x).prev = s.prev := rfl
@[simp] theorem setBus_rxq : (s.setBus b x).rxq = s.rxq := rfl
@[simp] theorem setBus_dropCount : (s.setBus b x).dropCount = s.dropCount := rfl
@[simp] theorem setBus_last : (s.setBus b x).last = s.last := rfl
@[simp] theorem setBus_acc : (s.setBus b x).acc = s.acc := rfl
@[simp] theorem setBus_arg0 : (s.setBus b x).arg0 = s.arg0 := rfl
@[simp] theorem setBus_arg1 : (s.setBus b x).arg1 = s.arg1 := rfl
@[simp] theorem setBus_arg2 : (s.setBus b x).arg2 = s.arg2 := rfl
@[simp] theorem setBus_cmd : (s.setBus b x).cmd = s.cmd := rfl
@[simp] theorem setBus_status : (s.setBus b x).status = s.status := rfl
@[simp] theorem setBus_result : (s.setBus b x).result = s.result := rfl
@[simp] theorem setBus_hstate : (s.setBus b x).hstate = s.hstate := rfl
@[simp] theorem setBus_mem : (s.setBus b x).mem = s.mem := rfl
@[simp] theorem setBus_encIn : (s.setBus b x).encIn = s.encIn := rfl
@[simp] theorem setBus_script : (s.setBus b x).script = s.script := rfl
@[simp] theorem setBus_tick : (s.setBus b x).tick = s.tick := rfl
@[simp] theorem setBus_curBus : (s.setBus b x).curBus = s.curBus := rfl
@[simp] theorem setBus_memrdOut : (s.setBus b x).memrdOut = s.memrdOut := rfl
@[simp] theorem setBus_length : (s.setBus b x).buses.length = s.buses.length := by simp [State.setBus]

/-- Reading the bus just written. -/
theorem bus_setBus_same (h : b < s.buses.length) : (s.setBus b x).bus b = x := by
  simp [State.setBus, State.bus, List.getD_eq_getElem?_getD, h]

/-- Reading another bus. -/
@[simp] theorem bus_setBus_other (h : b' ≠ b) : (s.setBus b x).bus b' = s.bus b' := by
  simp [State.setBus, State.bus, List.getD_eq_getElem?_getD, List.getElem?_set_ne h.symm]

/-- A bus that does not exist reads as a bus after reset and cannot be written. -/
theorem bus_setBus_missing (h : ¬ b < s.buses.length) : (s.setBus b x).bus b = s.bus b := by
  simp [State.setBus, State.bus, List.getD_eq_getElem?_getD, h]

/-- Every read of a bus after a write of one. -/
theorem bus_setBus : (s.setBus b x).bus b' = if b' = b ∧ b < s.buses.length then x else s.bus b' := by
  by_cases e : b' = b
  · subst e
    by_cases h : b' < s.buses.length
    · simp [h, bus_setBus_same]
    · simp [h, bus_setBus_missing]
  · simp [e]

/-- What holds of a bus before a write and of the bus written holds after. -/
theorem bus_setBus_holds (P : Bus → Prop) (old : P (s.bus b')) (new : b' = b → P x) : P ((s.setBus b x).bus b') := by
  rw [bus_setBus]
  split
  · exact new (And.left ‹_›)
  · exact old

/-! ## finish -/

@[simp] theorem finish_cfg : (s.finish c).cfg = s.cfg := rfl
@[simp] theorem finish_bppRom : (s.finish c).bppRom = s.bppRom := rfl
@[simp] theorem finish_qesRom : (s.finish c).qesRom = s.qesRom := rfl
@[simp] theorem finish_buses : (s.finish c).buses = s.buses := rfl
@[simp] theorem finish_bus : (s.finish c).bus b = s.bus b := rfl
@[simp] theorem finish_prev : (s.finish c).prev = s.prev := rfl
@[simp] theorem finish_rxq : (s.finish c).rxq = s.rxq := rfl
@[simp] theorem finish_dropCount : (s.finish c).dropCount = s.dropCount := rfl
@[simp] theorem finish_last : (s.finish c).last = s.last := rfl
@[simp] theorem finish_acc : (s.finish c).acc = s.acc := rfl
@[simp] theorem finish_arg0 : (s.finish c).arg0 = s.arg0 := rfl
@[simp] theorem finish_arg1 : (s.finish c).arg1 = s.arg1 := rfl
@[simp] theorem finish_arg2 : (s.finish c).arg2 = s.arg2 := rfl
@[simp] theorem finish_cmd : (s.finish c).cmd = s.cmd := rfl
@[simp] theorem finish_status : (s.finish c).status = c.code := rfl
@[simp] theorem finish_result : (s.finish c).result = s.result := rfl
@[simp] theorem finish_hstate : (s.finish c).hstate = .idle := rfl
@[simp] theorem finish_mem : (s.finish c).mem = s.mem := rfl
@[simp] theorem finish_script : (s.finish c).script = s.script := rfl
@[simp] theorem finish_tick : (s.finish c).tick = s.tick := rfl

/-! ## chosen: only the script and the count of free choices move -/

/-- The choice of an event touches `script` and `tick` only. -/
theorem chosen_eq : s.chosen = { s with script := s.chosen.script, tick := s.chosen.tick } := by
  rcases h : s.script with - | ⟨e, es⟩ <;> simp [State.chosen, h]

@[simp] theorem chosen_cfg : s.chosen.cfg = s.cfg := by rw [chosen_eq]
@[simp] theorem chosen_bppRom : s.chosen.bppRom = s.bppRom := by rw [chosen_eq]
@[simp] theorem chosen_qesRom : s.chosen.qesRom = s.qesRom := by rw [chosen_eq]
@[simp] theorem chosen_buses : s.chosen.buses = s.buses := by rw [chosen_eq]
@[simp] theorem chosen_bus : s.chosen.bus b = s.bus b := by simp [State.bus]
@[simp] theorem chosen_prev : s.chosen.prev = s.prev := by rw [chosen_eq]
@[simp] theorem chosen_rxq : s.chosen.rxq = s.rxq := by rw [chosen_eq]
@[simp] theorem chosen_dropCount : s.chosen.dropCount = s.dropCount := by rw [chosen_eq]
@[simp] theorem chosen_last : s.chosen.last = s.last := by rw [chosen_eq]
@[simp] theorem chosen_acc : s.chosen.acc = s.acc := by rw [chosen_eq]
@[simp] theorem chosen_arg0 : s.chosen.arg0 = s.arg0 := by rw [chosen_eq]
@[simp] theorem chosen_arg1 : s.chosen.arg1 = s.arg1 := by rw [chosen_eq]
@[simp] theorem chosen_arg2 : s.chosen.arg2 = s.arg2 := by rw [chosen_eq]
@[simp] theorem chosen_cmd : s.chosen.cmd = s.cmd := by rw [chosen_eq]
@[simp] theorem chosen_status : s.chosen.status = s.status := by rw [chosen_eq]
@[simp] theorem chosen_result : s.chosen.result = s.result := by rw [chosen_eq]
@[simp] theorem chosen_hstate : s.chosen.hstate = s.hstate := by rw [chosen_eq]
@[simp] theorem chosen_mem : s.chosen.mem = s.mem := by rw [chosen_eq]
@[simp] theorem chosen_encIn : s.chosen.encIn = s.encIn := by rw [chosen_eq]
@[simp] theorem chosen_curBus : s.chosen.curBus = s.curBus := by rw [chosen_eq]
@[simp] theorem chosen_memrdOut : s.chosen.memrdOut = s.memrdOut := by rw [chosen_eq]

/-! ## drive and advance -/

@[simp] theorem drive_phase : (x.drive d k).phase = x.phase := rfl
@[simp] theorem drive_dout : (x.drive d k).dout = d := rfl
@[simp] theorem drive_ctrl : (x.drive d k).ctrl = k := rfl
@[simp] theorem drive_txq : (x.drive d k).txq = x.txq := rfl
@[simp] theorem drive_smEn : (x.drive d k).smEn = x.smEn := rfl
@[simp] theorem drive_smFreq : (x.drive d k).smFreq = x.smFreq := rfl
@[simp] theorem drive_sampleRate : (x.drive d k).sampleRate = x.sampleRate := rfl
@[simp] theorem drive_rateClamped : (x.drive d k).rateClamped = x.rateClamped := rfl
@[simp] theorem drive_dataReadAddr : (x.drive d k).dataReadAddr = x.dataReadAddr := rfl
@[simp] theorem drive_dataTransCount : (x.drive d k).dataTransCount = x.dataTransCount := rfl
@[simp] theorem drive_dataBusy : (x.drive d k).dataBusy = x.dataBusy := rfl
@[simp] theorem drive_activeBase : (x.drive d k).activeBase = x.activeBase := rfl
@[simp] theorem drive_rcntPend : (x.drive d k).rcntPend = x.rcntPend := rfl
@[simp] theorem drive_raddrPend : (x.drive d k).raddrPend = x.raddrPend := rfl
@[simp] theorem drive_busFault : (x.drive d k).busFault = x.busFault := rfl
@[simp] theorem drive_zeroCountFault : (x.drive d k).zeroCountFault = x.zeroCountFault := rfl
@[simp] theorem drive_curAddr : (x.drive d k).curAddr = x.curAddr := rfl
@[simp] theorem drive_curLen : (x.drive d k).curLen = x.curLen := rfl
@[simp] theorem advance_phase : x.advance.phase = x.phase + 1 := rfl
@[simp] theorem advance_dout : x.advance.dout = x.dout := rfl
@[simp] theorem advance_ctrl : x.advance.ctrl = x.ctrl := rfl
@[simp] theorem advance_txq : x.advance.txq = x.txq := rfl
@[simp] theorem advance_smEn : x.advance.smEn = x.smEn := rfl
@[simp] theorem advance_smFreq : x.advance.smFreq = x.smFreq := rfl
@[simp] theorem advance_sampleRate : x.advance.sampleRate = x.sampleRate := rfl
@[simp] theorem advance_rateClamped : x.advance.rateClamped = x.rateClamped := rfl
@[simp] theorem advance_dataReadAddr : x.advance.dataReadAddr = x.dataReadAddr := rfl
@[simp] theorem advance_dataTransCount : x.advance.dataTransCount = x.dataTransCount := rfl
@[simp] theorem advance_dataBusy : x.advance.dataBusy = x.dataBusy := rfl
@[simp] theorem advance_activeBase : x.advance.activeBase = x.activeBase := rfl
@[simp] theorem advance_rcntPend : x.advance.rcntPend = x.rcntPend := rfl
@[simp] theorem advance_raddrPend : x.advance.raddrPend = x.raddrPend := rfl
@[simp] theorem advance_busFault : x.advance.busFault = x.busFault := rfl
@[simp] theorem advance_zeroCountFault : x.advance.zeroCountFault = x.zeroCountFault := rfl
@[simp] theorem advance_curAddr : x.advance.curAddr = x.curAddr := rfl
@[simp] theorem advance_curLen : x.advance.curLen = x.curLen := rfl
@[simp] theorem advance_dacSig : x.advance.dacSig = x.dacSig := rfl
@[simp] theorem advance_dacPwr : x.advance.dacPwr = x.dacPwr := rfl

/-! ## A state with fields other than the buses replaced reads its buses as before -/

/-- `bus` looks at the bus list only. -/
theorem bus_congr (t : State) (h : t.buses = s.buses) : t.bus b = s.bus b := by simp [State.bus, h]

end Sys2Proof.Machine
end

