-- ==== Sys2Proof/Laws/Step.lean ====
section
/-! SUPPORT. Once for all: everything a step can do. `step_cases` turns a step that answers a next state into one of the
cases of `StepCase`, with the guards of that case; the invariants and the whole-machine rules cite it and never unfold
the step. -/

namespace Sys2Proof.Machine

/-- The port of the chosen state after the host's writes. -/
def State.issued (s : State) (a0 a1 a2 : Option Word) (w : Word) : State := s.chosen.portWritten a0 a1 a2 w

/-- A host event issues the command `i`: the port after the writes is `p`. -/
inductive Issues (s : State) (i : Instr) : State → Prop
  | mk (a0 a1 a2 : Option Word) (w : Word) (he : s.event = .issue a0 a1 a2 w) (hi : s.hstate = .idle)
      (hd : decode (.cmd w) = .ok i) : Issues s i (s.issued a0 a1 a2 w)

/-- The state after `UPDPWR` wrote index `i` of bus `b`. -/
def afterPower (b i : Nat) (v : Byte) (p : State) : State :=
  if i + 2 < (p.bus b).curLen.toNat then
    { p with mem := p.mem.write (powerAddr (p.bus b) i) v, hstate := .updpwr b (i + 2) v }
  else { p with mem := p.mem.write (powerAddr (p.bus b) i) v }.finish .ok

/-- What a step from `s` can answer. -/
inductive StepCase (s : State) : State → Prop
  /-- The chosen agent has no enabled step. -/
  | idle : StepCase s s.chosen
  | nopc (b : Nat) (c : Ctrl) (he : s.event = .bpp b) (hb : b < s.cfg.nbus) (hen : bppEnabled (s.bus b) = true)
      (hd : decode (.micro (s.bppRom.fetch (s.bus b).phase)) = .ok (.nopc c)) :
      StepCase s ({ s.chosen with curBus := b }.setBus b ((s.bus b).drive (s.bus b).dout c).advance)
  | outb (b : Nat) (c : Ctrl) (he : s.event = .bpp b) (hb : b < s.cfg.nbus) (hen : bppEnabled (s.bus b) = true)
      (hd : decode (.micro (s.bppRom.fetch (s.bus b).phase)) = .ok (.outb c)) :
      StepCase s ({ s.chosen with curBus := b }.setBus b (outbBus s.cfg.stallCtrl c (s.bus b)))
  | dxfer (b : Nat) (he : s.event = .data b) (hb : b < s.cfg.nbus) (hen : dxferEnabled s.cfg (s.bus b) = true) :
      StepCase s (s.chosen.setBus b (dxferBus (memReadByte s.cfg s.mem (s.bus b).dataReadAddr.toNat) (s.bus b)))
  | rcntx (b : Nat) (he : s.event = .rcnt b) (hb : b < s.cfg.nbus) (hen : rcntEnabled (s.bus b) = true)
      (hh : s.cfg.handoff = .split) :
      StepCase s (s.chosen.setBus b (rcntBus (s.mem.readWord (rcbAddr s.cfg b + 4)) (s.bus b)))
  | rearm (b : Nat) (he : s.event = .rcnt b) (hb : b < s.cfg.nbus) (hen : rcntEnabled (s.bus b) = true)
      (hh : s.cfg.handoff = .atomic) :
      StepCase s (s.chosen.setBus b
        (rearmBus (s.mem.readWord (rcbAddr s.cfg b + 4)) (s.mem.readWord (rcbAddr s.cfg b)) (s.bus b)))
  | raddrx (b : Nat) (he : s.event = .raddr b) (hb : b < s.cfg.nbus) (hen : raddrEnabled s.cfg (s.bus b) = true) :
      StepCase s (s.chosen.setBus b (raddrBus (s.mem.readWord (rcbAddr s.cfg b)) (s.bus b)))
  | snp (he : s.event = .qes) (hc : s.encIn ≠ s.prev) : StepCase s (takeReading s.encIn s.chosen)
  | env (l : Lines) (he : s.event = .env l) : StepCase s { s.chosen with encIn := l }
  /-- A command word whose bits are illegal. -/
  | illegal (a0 a1 a2 : Option Word) (w : Word) (e : DecodeError) (he : s.event = .issue a0 a1 a2 w)
      (hi : s.hstate = .idle) (hd : decode (.cmd w) = .error e) :
      StepCase s ((s.issued a0 a1 a2 w).finish .invalidCommand)
  /-- A command rejected with a code. -/
  | rejected (i : Instr) (p : State) (c : Status) (h : Issues s i p) : StepCase s (p.finish c)
  | play (b : BitVec 4) (p : State) (h : Issues s (.play b) p) (hb : b.toNat < s.cfg.nbus)
      (hl : badLength p.arg1 = false) :
      StepCase s (({ p with
        mem := (s.mem.writeWord (rcbAddr s.cfg b.toNat) p.arg0).writeWord (rcbAddr s.cfg b.toNat + 4) p.arg1 }.setBus
          b.toNat (playBus p.arg0 p.arg1 p.arg2 (s.bus b.toNat))).finish .ok)
  | swap (b : BitVec 4) (p : State) (h : Issues s (.swap b) p) (hb : b.toNat < s.cfg.nbus)
      (hl : badLength p.arg1 = false) (hh : s.cfg.handoff = .atomic) :
      StepCase s ({ p.setBus b.toNat (retain p.arg0 p.arg1 (s.bus b.toNat)) with
        mem := (s.mem.writeWord (rcbAddr s.cfg b.toNat) p.arg0).writeWord (rcbAddr s.cfg b.toNat + 4) p.arg1 }.finish .ok)
  | swapFirst (b : BitVec 4) (p : State) (h : Issues s (.swap b) p) (hb : b.toNat < s.cfg.nbus)
      (hl : badLength p.arg1 = false) (hh : s.cfg.handoff = .split) :
      StepCase s { p.setBus b.toNat (retain p.arg0 p.arg1 (s.bus b.toNat)) with
        mem := s.mem.writeWord (rcbAddr s.cfg b.toNat) p.arg0, hstate := .swap2 b.toNat p.arg1 }
  | swapSecond (b : Nat) (len : Word) (he : s.event = .hostLoop) (hi : s.hstate = .swap2 b len)
      (hw : wordAccess s.cfg (rcbAddr s.cfg b + 4) = true) :
      StepCase s ({ s.chosen with mem := s.mem.writeWord (rcbAddr s.cfg b + 4) len }.finish .ok)
  | updpwrFirst (b : BitVec 4) (p : State) (h : Issues s (.updpwr b) p) (hb : b.toNat < s.cfg.nbus)
      (hl : (s.bus b.toNat).curLen ≠ 0) (hw : backedByte s.cfg (powerAddr (s.bus b.toNat) 1) = true) :
      StepCase s (afterPower b.toNat 1 (clampLevel p.arg0) p)
  | updpwrLoop (b i : Nat) (v : Byte) (he : s.event = .hostLoop) (hi : s.hstate = .updpwr b i v)
      (hw : backedByte s.cfg (powerAddr (s.bus b) i) = true) : StepCase s (afterPower b i v s.chosen)
  | drainFirst (p : State) (h : Issues s .drain p) : StepCase s (drainIter { p with hstate := .drain })
  | drainLoop (he : s.event = .hostLoop) (hi : s.hstate = .drain) : StepCase s (drainIter s.chosen)
  | rdreg (b : BitVec 4) (r : BitVec 12) (p : State) (v : Word) (h : Issues s (.rdreg b r) p) :
      StepCase s ({ p with result := v }.finish .ok)
  | memwr (a : Word) (v : Byte) (he : s.event = .memwr a v) (hi : s.hstate = .idle)
      (hw : backedByte s.cfg a.toNat = true) : StepCase s { s.chosen with mem := s.mem.write a.toNat v }
  | memrd (a : Word) (he : s.event = .memrd a) (hi : s.hstate = .idle) :
      StepCase s { s.chosen with memrdOut := s.mem.read a.toNat }

/-! ## The port after the host's writes -/

variable {s : State} {a0 a1 a2 : Option Word} {w : Word}

@[simp] theorem issued_cfg : (s.issued a0 a1 a2 w).cfg = s.cfg := by simp [State.issued, State.portWritten]
@[simp] theorem issued_bppRom : (s.issued a0 a1 a2 w).bppRom = s.bppRom := by simp [State.issued, State.portWritten]
@[simp] theorem issued_qesRom : (s.issued a0 a1 a2 w).qesRom = s.qesRom := by simp [State.issued, State.portWritten]
@[simp] theorem issued_buses : (s.issued a0 a1 a2 w).buses = s.buses := by simp [State.issued, State.portWritten]
@[simp] theorem issued_bus (b : Nat) : (s.issued a0 a1 a2 w).bus b = s.bus b := by simp [State.bus]
@[simp] theorem issued_prev : (s.issued a0 a1 a2 w).prev = s.prev := by simp [State.issued, State.portWritten]
@[simp] theorem issued_rxq : (s.issued a0 a1 a2 w).rxq = s.rxq := by simp [State.issued, State.portWritten]
@[simp] theorem issued_dropCount : (s.issued a0 a1 a2 w).dropCount = s.dropCount := by
  simp [State.issued, State.portWritten]
@[simp] theorem issued_last : (s.issued a0 a1 a2 w).last = s.last := by simp [State.issued, State.portWritten]
@[simp] theorem issued_acc : (s.issued a0 a1 a2 w).acc = s.acc := by simp [State.issued, State.portWritten]
@[simp] theorem issued_status : (s.issued a0 a1 a2 w).status = s.status := by simp [State.issued, State.portWritten]
@[simp] theorem issued_hstate : (s.issued a0 a1 a2 w).hstate = s.hstate := by simp [State.issued, State.portWritten]
@[simp] theorem issued_mem : (s.issued a0 a1 a2 w).mem = s.mem := by simp [State.issued, State.portWritten]

/-- What an issued command finds: the state as it was, but for the port's own registers, the script and the count of
free choices. -/
theorem Issues.same {i : Instr} {p : State} (h : Issues s i p) :
    p.cfg = s.cfg ∧ p.bppRom = s.bppRom ∧ p.qesRom = s.qesRom ∧ p.buses = s.buses ∧ p.prev = s.prev ∧ p.rxq = s.rxq
      ∧ p.dropCount = s.dropCount ∧ p.last = s.last ∧ p.acc = s.acc ∧ p.status = s.status ∧ p.hstate = s.hstate
      ∧ p.mem = s.mem := by
  cases h
  simp

/-! ## The inversion of a step -/

/-- `UPDPWR`'s loop step answers a next state exactly at a backed address. -/
theorem updpwrIter_next {b i : Nat} {v : Byte} {p t : State} (h : updpwrIter b i v p = .next t) :
    backedByte p.cfg (powerAddr (p.bus b) i) = true ∧ t = afterPower b i v p := by
  unfold updpwrIter at h
  split at h
  · cases h
  · rename_i m hm
    obtain ⟨hw, rfl⟩ := memWriteByte_some.1 hm
    refine ⟨hw, ?_⟩
    unfold afterPower
    split at h <;> rename_i hlt <;> cases h <;> simp [hlt]

/-- Every command word that decodes is executed by the host. -/
theorem decodeCmd_executor {w : Word} {i : Instr} (h : decode (.cmd w) = .ok i) : i.executor = .host := by
  simp only [decode, decodeCmd] at h
  repeat' split at h
  all_goals first | cases h; rfl | cases h

/-- A command's first step, inverted. -/
theorem exec_host_cases {i : Instr} {p t : State} (hi : i.executor = .host) (h : Issues s i p)
    (he : exec i p = .next t) : StepCase s t := by
  obtain ⟨hcfg, -, -, hbuses, -, -, -, -, -, -, -, hmem⟩ := h.same
  have hbus : ∀ b, p.bus b = s.bus b := fun b => bus_congr _ _ _ hbuses
  cases i with
  | nopc c => cases hi
  | outb c => cases hi
  | snp => cases hi
  | play b =>
    simp only [exec, execPlay] at he
    split at he
    · cases he; exact .rejected _ _ _ h
    · rename_i hb
      split at he
      · cases he; exact .rejected _ _ _ h
      · rename_i hl
        split at he
        · cases he
        · rename_i m hm
          cases he
          obtain ⟨-, -, rfl⟩ := writeRcb_some.1 hm
          have c := StepCase.play b p h (by simpa [State.hasBus, hcfg] using hb) (by simpa [State.bufLen] using hl)
          simpa only [hcfg, hmem, hbus, State.bufAddr, State.bufLen, State.rate] using c
  | swap b =>
    simp only [exec, execSwap] at he
    split at he
    · cases he; exact .rejected _ _ _ h
    · rename_i hb
      split at he
      · cases he; exact .rejected _ _ _ h
      · rename_i hl
        have hb' : b.toNat < s.cfg.nbus := by simpa [State.hasBus, hcfg] using hb
        have hl' : badLength p.arg1 = false := by simpa [State.bufLen] using hl
        split at he
        · rename_i hh
          split at he
          · cases he
          · rename_i m hm
            cases he
            obtain ⟨-, -, rfl⟩ := writeRcb_some.1 hm
            have c := StepCase.swap b p h hb' hl' (hcfg ▸ hh)
            simpa only [hcfg, hmem, hbus, State.bufAddr, State.bufLen, State.rate] using c
        · rename_i hh
          split at he
          · cases he
          · rename_i m hm
            cases he
            obtain ⟨-, rfl⟩ := memWriteWord_some.1 hm
            have c := StepCase.swapFirst b p h hb' hl' (hcfg ▸ hh)
            simpa only [hcfg, hmem, hbus, State.bufAddr, State.bufLen, State.rate] using c
  | updpwr b =>
    simp only [exec, execUpdpwr] at he
    split at he
    · cases he; exact .rejected _ _ _ h
    · rename_i hb
      split at he
      · cases he; exact .rejected _ _ _ h
      · rename_i hl
        obtain ⟨hw, rfl⟩ := updpwrIter_next he
        rw [hcfg, hbus] at hw
        rw [hbus] at hl
        exact .updpwrFirst b p h (by simpa [State.hasBus, hcfg] using hb) hl hw
  | drain =>
    simp only [exec, execDrain] at he
    cases he
    exact .drainFirst p h
  | rdreg b r =>
    simp only [exec, execRdreg] at he
    split at he
    · cases he; exact .rejected _ _ _ h
    · cases he; exact .rdreg b r p _ h

/-- A turn of a state machine, inverted. -/
theorem bppTurn_cases {b : Nat} {t : State} (he : s.event = .bpp b)
    (h : (bppTurn b s.chosen).outcome = .next t) : StepCase s t := by
  unfold bppTurn at h
  by_cases hen : (s.chosen.hasBus b && bppEnabled (s.chosen.bus b)) = true
  · rw [if_pos hen] at h
    simp only [State.hasBus, chosen_cfg, chosen_bus, Bool.and_eq_true, decide_eq_true_eq] at hen
    simp only [Action.outcome, runMicroword, chosen_bppRom, chosen_bus] at h
    cases hd : decode (.micro (s.bppRom.fetch (s.bus b).phase)) with
    | error e => simp [hd] at h
    | ok i =>
      cases i <;> simp [hd, Instr.executor] at h
      · simp only [exec, execNopc] at h
        cases h
        rw [bus_congr s b _ (by simp)]
        simpa using StepCase.nopc b _ he hen.1 hen.2 hd
      · simp only [exec, execOutb] at h
        cases h
        rw [bus_congr s b _ (by simp)]
        simpa using StepCase.outb b _ he hen.1 hen.2 hd
  · rw [if_neg hen] at h
    cases h
    exact .idle

/-- A turn of the sampler, inverted. -/
theorem qesTurn_cases {t : State} (he : s.event = .qes)
    (h : (qesTurn s.chosen).outcome = .next t) : StepCase s t := by
  simp only [qesTurn, runMicroword, chosen_qesRom] at h
  cases hd : decode (.micro s.qesRom) with
  | error e => simp [hd] at h
  | ok i =>
    cases i <;> simp [hd, Instr.executor] at h
    simp only [exec, execSnp, chosen_encIn, chosen_prev] at h
    split at h
    · cases h; exact .idle
    · cases h; exact .snp he ‹_›

/-- The issue of a command, inverted. -/
theorem issueTurn_cases {a0 a1 a2 : Option Word} {w : Word} {t : State} (he : s.event = .issue a0 a1 a2 w)
    (h : (issueTurn a0 a1 a2 w s.chosen).outcome = .next t) :
    StepCase s t := by
  unfold issueTurn at h
  by_cases hi : s.hstate = .idle
  · simp only [chosen_hstate, hi, if_true, runCommand] at h
    cases hd : decode (.cmd w) with
    | error e =>
      simp only [State.portWritten, hd] at h
      cases h
      exact .illegal a0 a1 a2 w e he hi hd
    | ok i =>
      simp only [State.portWritten, hd] at h
      exact exec_host_cases (decodeCmd_executor hd) (.mk a0 a1 a2 w he hi hd) h
  · simp only [chosen_hstate, hi, if_false, noStep] at h
    cases h
    exact .idle

/-- A turn of the data channel, inverted. -/
theorem dataTurn_cases {b : Nat} {t : State} (he : s.event = .data b) (h : dataTurn b s.chosen = .next t) :
    StepCase s t := by
  simp only [dataTurn, State.hasBus, chosen_cfg, chosen_bus, chosen_mem, Bool.and_eq_true, decide_eq_true_eq] at h
  split at h <;> cases h
  · rename_i hen
    exact .dxfer b he hen.1 hen.2
  · exact .idle

/-- A turn of the count re-arm channel, inverted. -/
theorem rcntTurn_cases {b : Nat} {t : State} (he : s.event = .rcnt b) (h : rcntTurn b s.chosen = .next t) :
    StepCase s t := by
  simp only [rcntTurn, State.hasBus, chosen_cfg, chosen_bus, chosen_mem, Bool.and_eq_true, decide_eq_true_eq] at h
  split at h
  · rename_i hen
    split at h
    · cases h
    · rename_i n hn hh
      cases h
      obtain ⟨-, rfl⟩ := memReadWord_some.1 hn
      exact .rcntx b he hen.1 hen.2 hh
    · rename_i n hn hh
      split at h
      · cases h
      · rename_i a ha
        cases h
        obtain ⟨-, rfl⟩ := memReadWord_some.1 hn
        obtain ⟨-, rfl⟩ := memReadWord_some.1 ha
        exact .rearm b he hen.1 hen.2 hh
  · cases h; exact .idle

/-- A turn of the address re-arm channel, inverted. -/
theorem raddrTurn_cases {b : Nat} {t : State} (he : s.event = .raddr b) (h : raddrTurn b s.chosen = .next t) :
    StepCase s t := by
  simp only [raddrTurn, State.hasBus, chosen_cfg, chosen_bus, chosen_mem, Bool.and_eq_true, decide_eq_true_eq] at h
  split at h
  · rename_i hen
    split at h
    · cases h
    · rename_i a ha
      cases h
      obtain ⟨-, rfl⟩ := memReadWord_some.1 ha
      exact .raddrx b he hen.1 hen.2
  · cases h; exact .idle

/-- A further step of a command, inverted. -/
theorem hostLoopTurn_cases {t : State} (he : s.event = .hostLoop) (h : hostLoopTurn s.chosen = .next t) :
    StepCase s t := by
  simp only [hostLoopTurn, chosen_hstate] at h
  split at h
  · cases h; exact .idle
  · rename_i b len hi
    simp only [swapSecond, chosen_cfg, chosen_mem] at h
    split at h
    · cases h
    · rename_i m hm
      cases h
      obtain ⟨hw, rfl⟩ := memWriteWord_some.1 hm
      simpa using StepCase.swapSecond b len he hi hw
  · rename_i b i v hi
    obtain ⟨hw, rfl⟩ := updpwrIter_next h
    exact .updpwrLoop b i v he hi (by simpa using hw)
  · rename_i hi
    cases h
    exact .drainLoop he hi

/-- The host's own byte store, inverted. -/
theorem memwrTurn_cases {a : Word} {v : Byte} {t : State} (he : s.event = .memwr a v)
    (h : memwrTurn a v s.chosen = .next t) : StepCase s t := by
  simp only [memwrTurn, chosen_hstate, chosen_cfg, chosen_mem] at h
  split at h
  · rename_i hi
    split at h
    · cases h
    · rename_i m hm
      cases h
      obtain ⟨hw, rfl⟩ := memWriteByte_some.1 hm
      simpa using StepCase.memwr a v he hi hw
  · cases h; exact .idle

/-- The host's own byte load, inverted. -/
theorem memrdTurn_cases {a : Word} {t : State} (he : s.event = .memrd a) (h : memrdTurn a s.chosen = .next t) :
    StepCase s t := by
  simp only [memrdTurn, chosen_hstate, chosen_cfg, chosen_mem] at h
  split at h
  · rename_i hi
    split at h
    · cases h
    · rename_i v hv
      cases h
      obtain ⟨-, rfl⟩ := memReadByte_some.1 hv
      simpa using StepCase.memrd a he hi
  · cases h; exact .idle

/-- A step that answers a next state needs a well-formed configuration and unreserved ROMs, and is one of the cases. -/
theorem step_cases {t : State} (h : step s = .next t) : cfgWf s.cfg = true ∧ romsOk s = true ∧ StepCase s t := by
  unfold step nextAction at h
  by_cases hc : cfgWf s.cfg = true
  · by_cases hr : romsOk s = true
    · refine ⟨hc, hr, ?_⟩
      simp only [hc, hr, Bool.not_true, Bool.false_eq_true, if_false] at h
      cases he : s.event with
      | bpp b => rw [he] at h; exact bppTurn_cases he h
      | data b => rw [he] at h; exact dataTurn_cases he h
      | rcnt b => rw [he] at h; exact rcntTurn_cases he h
      | raddr b => rw [he] at h; exact raddrTurn_cases he h
      | qes => rw [he] at h; exact qesTurn_cases he h
      | issue a0 a1 a2 w => rw [he] at h; exact issueTurn_cases he h
      | hostLoop => rw [he] at h; exact hostLoopTurn_cases he h
      | memwr a v => rw [he] at h; exact memwrTurn_cases he h
      | memrd a => rw [he] at h; exact memrdTurn_cases he h
      | env l => rw [he] at h; cases h; simpa using StepCase.env l he
    · simp [hc, hr] at h
  · simp [hc] at h

/-- A step with an event at the head of the script, on a state the rules apply to, is what that event's agent does. -/
theorem step_script {e : Event} {rest : List Event} (hc : cfgWf s.cfg = true) (hr : romsOk s = true)
    (hs : s.script = e :: rest) :
    step s = (perform e { s with script := rest }).outcome := by
  have he : s.event = e := by simp [State.event, hs]
  have hn : s.chosen = { s with script := rest } := by simp [State.chosen, hs]
  unfold step nextAction
  rw [if_neg (by simp [hc]), if_neg (by simp [hr]), he, hn]

end Sys2Proof.Machine
end

