-- ==== Sys2Proof/Laws/BusStep.lean ====
section
/-! SUPPORT. What one step can make of one bus: `bus_cases`, derived once from `step_cases`. A claim about a bus cites
it and never looks at the steps that leave the bus alone. -/

namespace Sys2Proof.Machine

variable {s : State}

/-- The state after `UPDPWR` wrote one byte, field by field. -/
theorem afterPower_eq (b i : Nat) (v : Byte) (p : State) :
    afterPower b i v p = { p with
      mem := p.mem.write (powerAddr (p.bus b) i) v
      hstate := if i + 2 < (p.bus b).curLen.toNat then .updpwr b (i + 2) v else .idle
      status := if i + 2 < (p.bus b).curLen.toNat then p.status else 0 } := by
  unfold afterPower
  split <;> simp [State.finish, Status.code]

/-- The idle port an issued command finds. -/
theorem Issues.idle {i : Instr} {p : State} (h : Issues s i p) : p.hstate = .idle := by
  cases h
  simp [*]

/-- What a step makes of bus `b`: the bus after it, with the guard of the step that changed it. -/
inductive BusCase (s : State) (b : Nat) : Bus → Prop
  | same : BusCase s b (s.bus b)
  | nopc (c : Ctrl) (he : s.event = .bpp b) (hb : b < s.cfg.nbus) (hen : bppEnabled (s.bus b) = true)
      (hd : decode (.micro (s.bppRom.fetch (s.bus b).phase)) = .ok (.nopc c)) :
      BusCase s b ((s.bus b).drive (s.bus b).dout c).advance
  | outb (c : Ctrl) (he : s.event = .bpp b) (hb : b < s.cfg.nbus) (hen : bppEnabled (s.bus b) = true)
      (hd : decode (.micro (s.bppRom.fetch (s.bus b).phase)) = .ok (.outb c)) :
      BusCase s b (outbBus s.cfg.stallCtrl c (s.bus b))
  | dxfer (he : s.event = .data b) (hb : b < s.cfg.nbus) (hen : dxferEnabled s.cfg (s.bus b) = true) :
      BusCase s b (dxferBus (memReadByte s.cfg s.mem (s.bus b).dataReadAddr.toNat) (s.bus b))
  | rcntx (he : s.event = .rcnt b) (hb : b < s.cfg.nbus) (hen : rcntEnabled (s.bus b) = true)
      (hh : s.cfg.handoff = .split) :
      BusCase s b (rcntBus (s.mem.readWord (rcbAddr s.cfg b + 4)) (s.bus b))
  | rearm (he : s.event = .rcnt b) (hb : b < s.cfg.nbus) (hen : rcntEnabled (s.bus b) = true)
      (hh : s.cfg.handoff = .atomic) :
      BusCase s b
        (rearmBus (s.mem.readWord (rcbAddr s.cfg b + 4)) (s.mem.readWord (rcbAddr s.cfg b)) (s.bus b))
  | raddrx (he : s.event = .raddr b) (hb : b < s.cfg.nbus) (hen : raddrEnabled s.cfg (s.bus b) = true) :
      BusCase s b (raddrBus (s.mem.readWord (rcbAddr s.cfg b)) (s.bus b))
  | play (k : BitVec 4) (p : State) (h : Issues s (.play k) p) (hk : k.toNat = b) (hb : b < s.cfg.nbus)
      (hl : badLength p.arg1 = false) : BusCase s b (playBus p.arg0 p.arg1 p.arg2 (s.bus b))
  | swap (k : BitVec 4) (p : State) (h : Issues s (.swap k) p) (hk : k.toNat = b) (hb : b < s.cfg.nbus)
      (hl : badLength p.arg1 = false) : BusCase s b (retain p.arg0 p.arg1 (s.bus b))

/-- A step writes bus `b` in one of the ways of `BusCase`. -/
theorem bus_cases {t : State} (h : step s = .next t) (b : Nat) : BusCase s b (t.bus b) := by
  obtain ⟨-, -, hc⟩ := step_cases h
  have kept : ∀ u : State, u.buses = s.buses → BusCase s b (u.bus b) := fun u hu => by
    rw [bus_congr s b u hu]; exact .same
  have wrote : ∀ (p : State) (b' : Nat) (x : Bus), p.buses = s.buses → (b = b' → BusCase s b x) →
      BusCase s b ((p.setBus b' x).bus b) := fun p b' x hp hx =>
    bus_setBus_holds _ _ _ _ _ (kept p hp) hx
  cases hc with
  | idle => exact kept _ (by simp)
  | nopc b' c he hb hen hd => exact wrote _ _ _ (by simp) (by rintro rfl; exact .nopc c he hb hen hd)
  | outb b' c he hb hen hd => exact wrote _ _ _ (by simp) (by rintro rfl; exact .outb c he hb hen hd)
  | dxfer b' he hb hen => exact wrote _ _ _ (by simp) (by rintro rfl; exact .dxfer he hb hen)
  | rcntx b' he hb hen hh => exact wrote _ _ _ (by simp) (by rintro rfl; exact .rcntx he hb hen hh)
  | rearm b' he hb hen hh => exact wrote _ _ _ (by simp) (by rintro rfl; exact .rearm he hb hen hh)
  | raddrx b' he hb hen => exact wrote _ _ _ (by simp) (by rintro rfl; exact .raddrx he hb hen)
  | snp he hcc => unfold takeReading; split <;> exact kept _ (by simp)
  | env l he => exact kept _ (by simp)
  | illegal a0 a1 a2 w e he hi hd => exact kept _ (by simp)
  | rejected i p c hh => exact kept _ (by simpa using hh.same.2.2.2.1)
  | play k p hh hb hl =>
    exact wrote _ _ _ (by simpa using hh.same.2.2.2.1) (by rintro rfl; exact .play k p hh rfl hb hl)
  | swap k p hh hb hl hhh =>
    have := wrote p k.toNat (retain p.arg0 p.arg1 (s.bus k.toNat)) (by simpa using hh.same.2.2.2.1)
      (by rintro rfl; exact .swap k p hh rfl hb hl)
    exact this
  | swapFirst k p hh hb hl hhh =>
    have := wrote p k.toNat (retain p.arg0 p.arg1 (s.bus k.toNat)) (by simpa using hh.same.2.2.2.1)
      (by rintro rfl; exact .swap k p hh rfl hb hl)
    exact this
  | swapSecond b' len he hi hw => exact kept _ (by simp)
  | updpwrFirst k p hh hb hl hw => rw [afterPower_eq]; exact kept _ hh.same.2.2.2.1
  | updpwrLoop b' i v he hi hw => rw [afterPower_eq]; exact kept _ (by simp)
  | drainFirst p hh => unfold drainIter; split <;> exact kept _ (by simpa using hh.same.2.2.2.1)
  | drainLoop he hi => unfold drainIter; split <;> exact kept _ (by simp)
  | rdreg k r p v hh => exact kept _ (by simpa using hh.same.2.2.2.1)
  | memwr a v he hi hw => exact kept _ (by simp)
  | memrd a he hi => exact kept _ (by simp)

end Sys2Proof.Machine
end

