-- ==== Sys2Proof/Laws/Invariant.lean ====
section
/-! SUPPORT. What each bus operation keeps of the bus invariants (spec R189, R137, R142): one lemma per operation. -/

namespace Sys2Proof.Machine

variable {cfg : Config} {x : Bus}

/-! ## The clock -/

/-- The effective frequency, as a number (R137). -/
theorem effectiveFreq_toNat (r : Word) : (effectiveFreq r).toNat = min (4 * r.toNat) Config.fMax := by
  simp only [effectiveFreq, BitVec.toNat_ofNat, Config.fMax]
  omega

/-- A good length is not zero. -/
theorem badLength_ne_zero {len : Word} (h : badLength len = false) : len ≠ 0 := by
  rintro rfl
  simp [badLength] at h

/-- A good length is even. -/
theorem badLength_even {len : Word} (h : badLength len = false) : len.getLsbD 0 = false := by
  simp only [badLength, Bool.or_eq_false_iff] at h
  exact h.2

/-! ## BusInv -/

/-- A bus after reset is in order. -/
theorem BusInv.reset : BusInv cfg Bus.reset where
  txqFits := by simp [Bus.reset]
  clock := by simp [Bus.reset]
  clampFlag := by simp [Bus.reset]
  notDataAndCount := by simp [Bus.reset]
  notDataAndAddr := by simp [Bus.reset]
  notCountAndAddr := by simp [Bus.reset]
  atomicRearm := by simp [Bus.reset]
  busyCount := by simp [Bus.reset]
  pendCount := by simp [Bus.reset]
  retainedEven := by simp [Bus.reset]
  offIdle := by simp [Bus.reset]
  ringAlive := by simp [Bus.reset]

/-- A step that changes only the phase, the lines and the observer of a running bus keeps its order. -/
theorem BusInv.lines (h : BusInv cfg x) (hs : x.smEn = true) (p : BitVec 2) (d : Byte) (c : Ctrl) (q : List Byte)
    (hq : q.length ≤ cfg.txqDepth) (u v : Option Byte) :
    BusInv cfg { x with phase := p, dout := d, ctrl := c, txq := q, dacSig := u, dacPwr := v } where
  txqFits := hq
  clock := h.clock
  clampFlag := h.clampFlag
  notDataAndCount := h.notDataAndCount
  notDataAndAddr := h.notDataAndAddr
  notCountAndAddr := h.notCountAndAddr
  atomicRearm := h.atomicRearm
  busyCount := h.busyCount
  pendCount := h.pendCount
  retainedEven := h.retainedEven
  offIdle := fun e => by rw [hs] at e; cases e
  ringAlive := h.ringAlive

/-- `NOPC` keeps a bus in order. -/
theorem BusInv.nopc (h : BusInv cfg x) (hs : x.smEn = true) (c : Ctrl) : BusInv cfg (x.drive x.dout c).advance :=
  h.lines hs _ _ _ x.txq h.txqFits _ _

/-- `OUTB` keeps a bus in order. -/
theorem BusInv.outb (h : BusInv cfg x) (hs : x.smEn = true) (k : StallCtrl) (c : Ctrl) :
    BusInv cfg (outbBus k c x) := by
  have hf := h.txqFits
  unfold outbBus
  split
  · rename_i v q e
    rw [e, List.length_cons] at hf
    exact h.lines hs _ _ _ q (by omega) _ _
  · cases k with
    | hold => exact h
    | drive => exact h.lines hs _ _ _ x.txq h.txqFits _ _

/-- `DXFER` keeps a bus in order. -/
theorem BusInv.dxfer (h : BusInv cfg x) (hen : dxferEnabled cfg x = true) (r : Option Byte) :
    BusInv cfg (dxferBus r x) := by
  simp only [dxferEnabled, dreq, dmaHalted, Bool.and_eq_true, bne_iff_ne, decide_eq_true_eq, Bool.not_eq_true',
    Bool.or_eq_false_iff] at hen
  obtain ⟨⟨⟨hb, hc⟩, hq⟩, -, -⟩ := hen
  have hr : x.rcntPend = false := by have := h.notDataAndCount; simp_all
  have ha : x.raddrPend = false := by have := h.notDataAndAddr; simp_all
  have hs : x.smEn = true := by
    rcases hs : x.smEn with - | -
    · have := (h.offIdle hs).2.2.2.1; simp [hb] at this
    · rfl
  cases r with
  | none => exact { h with busyCount := h.busyCount }
  | some v =>
    have he := h.retainedEven
    have hlen : (x.txq ++ [v]).length ≤ cfg.txqDepth := by simp; omega
    by_cases hn : x.dataTransCount - 1 = 0
    · constructor <;> simp_all [dxferBus, movedByte, h.clock, h.clampFlag]
    · constructor <;> simp_all [dxferBus, movedByte, h.clock, h.clampFlag]

/-- `RCNTX` keeps a bus in order. -/
theorem BusInv.rcntx (h : BusInv cfg x) (hen : rcntEnabled x = true) (hh : cfg.handoff = .split) (n : Word) :
    BusInv cfg (rcntBus n x) := by
  simp only [rcntEnabled, Bool.and_eq_true] at hen
  have hb : x.dataBusy = false := by have := h.notDataAndCount; simp_all
  have hs : x.smEn = true := by
    rcases hs : x.smEn with - | -
    · have := (h.offIdle hs).2.2.2.2.1; simp [hen.1] at this
    · rfl
  have he := h.retainedEven
  have := h.txqFits
  constructor <;> simp_all [rcntBus, h.clock, h.clampFlag]

/-- The write to the trigger-address register restarts the channel of a bus in order, or faults (R181). -/
theorem BusInv.triggered (h : BusInv cfg x) (hs : x.smEn = true) (hb : x.dataBusy = false) (n a : Word) :
    BusInv cfg (trigger a { x with dataTransCount := n, rcntPend := false, raddrPend := false }) := by
  have he := h.retainedEven
  have := h.txqFits
  by_cases hn : n = 0
  · constructor <;> simp_all [trigger, h.clock, h.clampFlag]
  · constructor <;> simp_all [trigger, h.clock, h.clampFlag]

/-- `RADDRX` keeps a bus in order. -/
theorem BusInv.raddrx (h : BusInv cfg x) (hen : raddrEnabled cfg x = true) (a : Word) : BusInv cfg (raddrBus a x) := by
  simp only [raddrEnabled, Bool.and_eq_true] at hen
  have hb : x.dataBusy = false := by have := h.notDataAndAddr; simp_all
  have hr : x.rcntPend = false := by have := h.notCountAndAddr; simp_all
  have hs : x.smEn = true := by
    rcases hs : x.smEn with - | -
    · have := (h.offIdle hs).2.2.2.2.2; simp [hen.1.2] at this
    · rfl
  have e : raddrBus a x = trigger a { x with dataTransCount := x.dataTransCount, rcntPend := false, raddrPend := false } := by
    simp [raddrBus, trigger, hr]
  exact e ▸ h.triggered hs hb x.dataTransCount a

/-- `REARM` keeps a bus in order. -/
theorem BusInv.rearm (h : BusInv cfg x) (hen : rcntEnabled x = true) (n a : Word) : BusInv cfg (rearmBus n a x) := by
  simp only [rcntEnabled, Bool.and_eq_true] at hen
  have hb : x.dataBusy = false := by have := h.notDataAndCount; simp_all
  have hr : x.raddrPend = false := by have := h.notCountAndAddr; simp_all
  have hs : x.smEn = true := by
    rcases hs : x.smEn with - | -
    · have := (h.offIdle hs).2.2.2.2.1; simp [hen.1] at this
    · rfl
  have e : rearmBus n a x = trigger a { x with dataTransCount := n, rcntPend := false, raddrPend := false } := by
    simp [rearmBus, trigger, hr]
  exact e ▸ h.triggered hs hb n a

/-- `PLAY` leaves a bus in order, whatever it was (R202). -/
theorem BusInv.play (addr rate : Word) {len : Word} (hl : badLength len = false) :
    BusInv cfg (playBus addr len rate x) where
  txqFits := Nat.zero_le _
  clock := effectiveFreq_toNat rate
  clampFlag := rfl
  notDataAndCount := by simp [playBus]
  notDataAndAddr := by simp [playBus]
  notCountAndAddr := by simp [playBus]
  atomicRearm := by simp [playBus]
  busyCount := fun _ => badLength_ne_zero hl
  pendCount := by simp [playBus]
  retainedEven := badLength_even hl
  offIdle := by simp [playBus]
  ringAlive := by simp [playBus]

/-- Retaining a buffer of good length keeps a bus in order. -/
theorem BusInv.retained (h : BusInv cfg x) (addr : Word) {len : Word} (hl : badLength len = false) :
    BusInv cfg (retain addr len x) :=
  { h with retainedEven := badLength_even hl }

end Sys2Proof.Machine
end

