-- ==== Sys2Proof/Laws/MachineInv.lean ====
section
/-! SUPPORT. How the machine invariant passes over the shared operations: one lemma per kind of update. -/

namespace Sys2Proof.Machine

variable {s t p : State}

/-- The machine invariant looks at memory, configuration, buses, the length of `RXQ`, `HSTATE`, `ACC` and `STATUS`. -/
theorem MachineInv.congr (h : MachineInv s) (hmem : t.mem = s.mem) (hcfg : t.cfg = s.cfg) (hbuses : t.buses = s.buses)
    (hrxq : t.rxq.length ≤ s.cfg.rxqDepth) (hhs : t.hstate = s.hstate) (hacc : t.acc = s.acc)
    (hst : t.status = s.status) : MachineInv t where
  memWf := hmem ▸ h.memWf
  memBacked := by rw [hmem, hcfg]; exact h.memBacked
  busCount := by rw [hcfg, hbuses]; exact h.busCount
  busOk := fun b => by rw [hcfg, bus_congr s b t hbuses]; exact h.busOk b
  rxqFits := hcfg ▸ hrxq
  accIdle := by rw [hhs, hacc]; exact h.accIdle
  hostOk := by
    have ho := h.hostOk
    unfold hostInv at ho ⊢
    rw [hhs]
    revert ho
    cases s.hstate <;> simp [hcfg, bus_congr s _ t hbuses]
  statusCode := hst ▸ h.statusCode

/-- Writing a bus in order, with the retained length as it was, keeps the machine invariant. -/
theorem MachineInv.setBus (h : MachineInv s) (b : Nat) {x : Bus} (hx : BusInv s.cfg x)
    (hl : x.curLen = (s.bus b).curLen) : MachineInv (s.setBus b x) where
  memWf := h.memWf
  memBacked := h.memBacked
  busCount := by simpa using h.busCount
  busOk := fun b' hb' => bus_setBus_holds s b b' x (BusInv s.cfg) (h.busOk b' hb') fun _ => hx
  rxqFits := h.rxqFits
  accIdle := h.accIdle
  hostOk := by
    have ho := h.hostOk
    unfold hostInv at ho ⊢
    simp only [setBus_hstate]
    revert ho
    cases s.hstate with
    | updpwr b' i v =>
      simp only [setBus_cfg]
      rw [bus_setBus]
      split
      · rename_i e
        rw [e.1, hl]
        exact id
      · exact id
    | _ => exact id
  statusCode := h.statusCode

/-- A command that ends outside `DRAIN` keeps the machine invariant. -/
theorem MachineInv.finish (h : MachineInv s) (hacc : s.acc = 0) (c : Status) : MachineInv (s.finish c) :=
  ⟨h.memWf, h.memBacked, h.busCount, h.busOk, h.rxqFits, fun _ => hacc, trivial, by cases c <;> simp [Status.code]⟩

/-- The port an issued command finds meets the machine invariant. -/
theorem Issues.inv {i : Instr} (h : Issues s i p) (hm : MachineInv s) : MachineInv p := by
  obtain ⟨h1, -, -, h4, -, h6, -, -, h9, h10, h11, h12⟩ := h.same
  exact hm.congr h12 h1 h4 (h6 ▸ hm.rxqFits) h11 h9 h10

/-- An iteration of `DRAIN` keeps the machine invariant. -/
theorem MachineInv.drainIter (h : MachineInv s) (hd : s.hstate = .drain) : MachineInv (drainIter s) := by
  unfold Machine.drainIter
  split
  · rename_i v q e
    have hq := h.rxqFits
    rw [e, List.length_cons] at hq
    exact ⟨h.memWf, h.memBacked, h.busCount, h.busOk, by dsimp only; omega, by simp [hd], by simp [hostInv, hd],
      h.statusCode⟩
  · exact ⟨h.memWf, h.memBacked, h.busCount, h.busOk, h.rxqFits, fun _ => rfl, trivial, .inl rfl⟩

/-- A word write at an accessible address lists backed bytes only. -/
theorem writeWord_backed {cfg : Config} {m : Memory} {a : Nat} {v : Word} (h : ∀ c ∈ m, backedByte cfg c.1 = true)
    (hw : wordAccess cfg a = true) : ∀ c ∈ m.writeWord a v, backedByte cfg c.1 = true := by
  intro c hc
  rcases Memory.mem_writeWord hc with hc | hc
  · exact h c hc
  · exact backedRange_byte (wordAccess_range hw) hc.1 hc.2

/-- A loop step of `UPDPWR` keeps the machine invariant. -/
theorem MachineInv.afterPower (h : MachineInv s) {b i : Nat} (v : Byte) (hb : b < s.cfg.nbus) (hi : i % 2 = 1)
    (hw : backedByte s.cfg (powerAddr (s.bus b) i) = true) (hacc : s.acc = 0) : MachineInv (afterPower b i v s) := by
  rw [afterPower_eq]
  refine ⟨Memory.write_wf v h.memWf (backedByte_bound hw), ?_, h.busCount, h.busOk, h.rxqFits, fun _ => hacc, ?_, ?_⟩
  · intro c hc
    rcases Memory.mem_write hc with hc | rfl
    · exact h.memBacked c hc
    · exact hw
  · unfold hostInv
    split <;> rename_i e
    · trivial
    · dsimp only at e; split at e <;> cases e
    · dsimp only at e
      split at e <;> cases e
      exact ⟨hb, by omega, ‹_›⟩
    · trivial
  · dsimp only
    split
    · exact h.statusCode
    · exact .inl rfl

end Sys2Proof.Machine
end

