-- ==== Sys2Proof/Laws/Setup.lean ====
section
/-! SUPPORT. What a well-formed configuration gives (spec R11): the lists of ids and pins have no repeats, and the Ring
Control Blocks of two buses are apart. -/

namespace Sys2Proof.Machine

/-- `allDistinct` is `List.Nodup`. -/
theorem allDistinct_iff {l : List Nat} : allDistinct l = true ↔ l.Nodup := by
  induction l with
  | nil => simp [allDistinct]
  | cons a l ih => simp [allDistinct, ih]

/-- `Backed(a, n)` in the words of R14. -/
theorem backedRange_iff {cfg : Config} {a n : Nat} :
    backedRange cfg a n = true ↔ a + n ≤ 2 ^ 32 ∧ ∀ c, a ≤ c → c < a + n → backedByte cfg c = true := by
  refine ⟨fun h => ⟨backedRange_bound h, fun c h1 h2 => backedRange_byte h h1 h2⟩, ?_⟩
  rintro ⟨h1, h2⟩
  simp only [backedRange, Bool.and_eq_true, List.all_eq_true, List.mem_range, decide_eq_true_eq]
  exact ⟨h1, fun i hi => h2 _ (by omega) (by omega)⟩

/-- `RCB_ADDR[b]` of an existing bus. -/
theorem rcbAddr_eq {cfg : Config} {b : Nat} (hb : b < cfg.nbus) : rcbAddr cfg b = (cfg.buses[b]).rcbAddr.toNat := by
  simp [rcbAddr, hb]

/-- The words of a list of records have no repeats exactly when no two records share a word. -/
theorem rcbWords_nodup_iff {l : List BusConfig} :
    (l.flatMap rcbWords).Nodup ↔ l.Pairwise fun k m =>
      k.rcbAddr.toNat ≠ m.rcbAddr.toNat ∧ k.rcbAddr.toNat ≠ m.rcbAddr.toNat + 4
        ∧ k.rcbAddr.toNat + 4 ≠ m.rcbAddr.toNat := by
  rw [List.nodup_flatMap]
  have word : Function.onFun List.Disjoint rcbWords = fun k m : BusConfig =>
      k.rcbAddr.toNat ≠ m.rcbAddr.toNat ∧ k.rcbAddr.toNat ≠ m.rcbAddr.toNat + 4
        ∧ k.rcbAddr.toNat + 4 ≠ m.rcbAddr.toNat := by
    funext k m
    apply propext
    simp [Function.onFun, rcbWords, List.Disjoint]
    omega
  rw [word, and_iff_right fun k _ => by simp [rcbWords]]

/-- The Ring Control Blocks of two buses of a well-formed configuration are apart (R11). -/
theorem rcb_disjoint {cfg : Config} {b b' : Nat} (h : cfgWf cfg = true) (hb : b < cfg.nbus) (hb' : b' < cfg.nbus)
    (hne : b ≠ b') : rcbAddr cfg b + 8 ≤ rcbAddr cfg b' ∨ rcbAddr cfg b' + 8 ≤ rcbAddr cfg b := by
  have ha := (rcb_backed h hb).1
  have ha' := (rcb_backed h hb').1
  have hw : (cfg.buses.flatMap rcbWords).Nodup := by
    simp only [cfgWf, Bool.and_eq_true, allDistinct_iff] at h
    exact h.1.1.1.2
  rw [rcbWords_nodup_iff, List.pairwise_iff_getElem] at hw
  rw [rcbAddr_eq hb, rcbAddr_eq hb'] at *
  rcases Nat.lt_or_gt_of_ne hne with hlt | hlt
  · have := hw b b' hb hb' hlt
    omega
  · have := hw b' b hb' hb hlt
    omega

/-- Reading a word no byte of which a byte write touches. -/
theorem Memory.readWord_write_other {a c : Nat} (m : Memory) (v : Byte) (h : a < c ∨ c + 4 ≤ a) :
    (m.write a v).readWord c = m.readWord c := by
  unfold Memory.readWord
  rw [Memory.read_write_other _ _ (by omega), Memory.read_write_other _ _ (by omega),
    Memory.read_write_other _ _ (by omega), Memory.read_write_other _ _ (by omega)]

end Sys2Proof.Machine
end

