-- ==== Sys2Proof/Laws/MemStep.lean ====
section
/-! SUPPORT. What one step can make of memory: `mem_cases`, derived once from `step_cases`; and what a step within the
contract of the host can make of one Ring Control Block: `record_cases` (spec R77, R82, R202 to R204, R283). -/

namespace Sys2Proof.Machine

variable {s t p : State}

/-! ## All of memory -/

/-- What a step makes of memory, with the guard of the step that wrote it. -/
inductive MemCase (s : State) : Memory → Prop
  | same : MemCase s s.mem
  /-- `PLAY`, or `SWAP` under `atomic`. -/
  | record (i : Instr) (b : BitVec 4) (p : State) (h : Issues s i p)
      (hi : i = .play b ∨ (i = .swap b ∧ s.cfg.handoff = .atomic)) (hb : b.toNat < s.cfg.nbus)
      (hl : badLength p.arg1 = false) :
      MemCase s ((s.mem.writeWord (rcbAddr s.cfg b.toNat) p.arg0).writeWord (rcbAddr s.cfg b.toNat + 4) p.arg1)
  | swapFirst (b : BitVec 4) (p : State) (h : Issues s (.swap b) p) (hb : b.toNat < s.cfg.nbus)
      (hl : badLength p.arg1 = false) (hh : s.cfg.handoff = .split) :
      MemCase s (s.mem.writeWord (rcbAddr s.cfg b.toNat) p.arg0)
  | swapSecond (b : Nat) (len : Word) (he : s.event = .hostLoop) (hi : s.hstate = .swap2 b len) :
      MemCase s (s.mem.writeWord (rcbAddr s.cfg b + 4) len)
  /-- One byte of `UPDPWR`, in its issue step or in a loop step. -/
  | power (b i : Nat) (v : Byte)
      (hi : (b < s.cfg.nbus ∧ i = 1 ∧ (s.bus b).curLen ≠ 0 ∧ s.hstate = .idle) ∨ s.hstate = .updpwr b i v)
      (hw : backedByte s.cfg (powerAddr (s.bus b) i) = true) : MemCase s (s.mem.write (powerAddr (s.bus b) i) v)
  | byte (a : Word) (v : Byte) (he : s.event = .memwr a v) (hi : s.hstate = .idle)
      (hw : backedByte s.cfg a.toNat = true) : MemCase s (s.mem.write a.toNat v)

/-- A step writes memory in one of the ways of `MemCase`. -/
theorem mem_cases (h : step s = .next t) : MemCase s t.mem := by
  obtain ⟨-, -, hc⟩ := step_cases h
  have kept : ∀ u : State, u.mem = s.mem → MemCase s u.mem := fun u hu => hu ▸ .same
  cases hc with
  | play b p hh hb hl => exact .record _ b p hh (.inl rfl) hb hl
  | swap b p hh hb hl ha => exact .record _ b p hh (.inr ⟨rfl, ha⟩) hb hl
  | swapFirst b p hh hb hl hs => exact .swapFirst b p hh hb hl hs
  | swapSecond b len he hi => exact .swapSecond b len he hi
  | updpwrFirst b p hh hb hl hw =>
    have hm := hh.same.2.2.2.2.2.2.2.2.2.2.2
    have hbus := bus_congr s b.toNat p hh.same.2.2.2.1
    rw [afterPower_eq]
    dsimp only
    rw [hm, hbus]
    exact .power b.toNat 1 _ (.inl ⟨hb, rfl, hl, hh.same.2.2.2.2.2.2.2.2.2.2.1 ▸ hh.idle⟩) hw
  | updpwrLoop b i v he hi hw =>
    rw [afterPower_eq]
    simpa using MemCase.power b i v (.inr hi) hw
  | memwr a v he hi hw => exact .byte a v he hi hw
  | snp => unfold takeReading; split <;> exact kept _ (by simp)
  | rejected i p c hh => exact kept _ (by simpa using hh.same.2.2.2.2.2.2.2.2.2.2.2)
  | rdreg k r p v hh => exact kept _ (by simpa using hh.same.2.2.2.2.2.2.2.2.2.2.2)
  | drainFirst p hh => unfold drainIter; split <;> exact kept _ (by simpa using hh.same.2.2.2.2.2.2.2.2.2.2.2)
  | drainLoop => unfold drainIter; split <;> exact kept _ (by simp)
  | _ => exact kept _ (by simp)

/-! ## One Ring Control Block -/

/-- The operands of an accepted `PLAY` or `SWAP` within the contract name a valid buffer (R82). -/
theorem Issues.valid {i : Instr} {b : BitVec 4} (h : Issues s i p) (hi : i = .play b ∨ i = .swap b)
    (hin : s.hstate = .idle → eventInContract s s.event) (hb : b.toNat < s.cfg.nbus) (hl : badLength p.arg1 = false) :
    bufferValid s.cfg p.arg0 p.arg1 := by
  cases h with
  | mk a0 a1 a2 w he hid hd =>
    have hv := hin hid
    rw [he] at hv
    simp only [State.issued, State.portWritten, chosen_arg0, chosen_arg1] at hl ⊢
    exact hv b (by rcases hi with rfl | rfl <;> simp [hd]) hb hl

/-- A byte of a valid buffer lies in no Ring Control Block, and the address `UPDPWR` computes for it does not wrap. -/
theorem bufferValid.power {x : Bus} {i b : Nat} (h : bufferValid s.cfg x.curAddr x.curLen) (hi : i < x.curLen.toNat)
    (hb : b < s.cfg.nbus) : powerAddr x i = x.curAddr.toNat + i ∧ ¬ inRcb s.cfg b (powerAddr x i) := by
  have hr := backedRange_bound h.2.1
  have e : powerAddr x i = x.curAddr.toNat + i := Nat.mod_eq_of_lt (by omega)
  exact ⟨e, e ▸ h.2.2 b _ hb (by omega) (by omega)⟩

/-- A byte write off a Ring Control Block keeps both of its words. -/
theorem record_write_other {cfg : Config} {b a : Nat} (m : Memory) (v : Byte) (h : ¬ inRcb cfg b a) :
    (m.write a v).readWord (rcbAddr cfg b) = m.readWord (rcbAddr cfg b)
      ∧ (m.write a v).readWord (rcbAddr cfg b + 4) = m.readWord (rcbAddr cfg b + 4) := by
  unfold inRcb at h
  exact ⟨Memory.readWord_write_other m v (by omega), Memory.readWord_write_other m v (by omega)⟩

/-- What a step makes of the record of bus `b`: the words `next_address` and `next_count` after it. -/
inductive RecordCase (s : State) (b : Nat) : Word → Word → Prop
  | same : RecordCase s b (s.mem.readWord (rcbAddr s.cfg b)) (s.mem.readWord (rcbAddr s.cfg b + 4))
  | both (i : Instr) (k : BitVec 4) (p : State) (h : Issues s i p)
      (hi : i = .play k ∨ (i = .swap k ∧ s.cfg.handoff = .atomic)) (hk : k.toNat = b)
      (hl : badLength p.arg1 = false) : RecordCase s b p.arg0 p.arg1
  | address (k : BitVec 4) (p : State) (h : Issues s (.swap k) p) (hk : k.toNat = b)
      (hl : badLength p.arg1 = false) (hh : s.cfg.handoff = .split) :
      RecordCase s b p.arg0 (s.mem.readWord (rcbAddr s.cfg b + 4))
  | count (len : Word) (hi : s.hstate = .swap2 b len) :
      RecordCase s b (s.mem.readWord (rcbAddr s.cfg b)) len

/-- A step within the contract writes the record of bus `b` in one of the ways of `RecordCase`: only a `PLAY` or a
`SWAP` of the bus does. -/
theorem record_cases (hm : MachineInv s) (hv : retainedValid s) (hin : s.hstate = .idle → eventInContract s s.event)
    (h : step s = .next t) {b : Nat} (hb : b < s.cfg.nbus) :
    RecordCase s b (t.mem.readWord (rcbAddr s.cfg b)) (t.mem.readWord (rcbAddr s.cfg b + 4)) := by
  have hwf := (step_cases h).1
  have hc := mem_cases h
  generalize t.mem = m at hc ⊢
  have room : ∀ k, k < s.cfg.nbus → rcbAddr s.cfg k + 8 ≤ 2 ^ 32 := fun k hk =>
    backedRange_bound (rcb_backed hwf hk).2
  have off : ∀ a v, ¬ inRcb s.cfg b a →
      RecordCase s b ((s.mem.write a v).readWord (rcbAddr s.cfg b)) ((s.mem.write a v).readWord (rcbAddr s.cfg b + 4)) := by
    intro a v ha
    rw [(record_write_other s.mem v ha).1, (record_write_other s.mem v ha).2]
    exact .same
  have h1 := room b hb
  cases hc with
  | same => exact .same
  | record i k p hh hi hk hl =>
    by_cases e : k.toNat = b
    · subst e
      rw [Memory.readWord_writeWord_other _ _ (by omega), Memory.readWord_writeWord_same _ hm.memWf (by omega),
        Memory.readWord_writeWord_same _ (Memory.writeWord_wf _ hm.memWf (by omega)) (by omega)]
      exact .both i k p hh hi rfl hl
    · have := rcb_disjoint hwf hk hb e
      rw [Memory.readWord_writeWord_other _ _ (by omega), Memory.readWord_writeWord_other _ _ (by omega),
        Memory.readWord_writeWord_other _ _ (by omega), Memory.readWord_writeWord_other _ _ (by omega)]
      exact .same
  | swapFirst k p hh hk hl hs =>
    by_cases e : k.toNat = b
    · subst e
      rw [Memory.readWord_writeWord_same _ hm.memWf (by omega), Memory.readWord_writeWord_other _ _ (by omega)]
      exact .address k p hh rfl hl hs
    · have := rcb_disjoint hwf hk hb e
      rw [Memory.readWord_writeWord_other _ _ (by omega), Memory.readWord_writeWord_other _ _ (by omega)]
      exact .same
  | swapSecond k len he hi =>
    have ho := hm.hostOk
    simp only [hostInv, hi] at ho
    by_cases e : k = b
    · subst e
      rw [Memory.readWord_writeWord_other _ _ (by omega), Memory.readWord_writeWord_same _ hm.memWf (by omega)]
      exact .count len hi
    · have := rcb_disjoint hwf ho.1 hb e
      rw [Memory.readWord_writeWord_other _ _ (by omega), Memory.readWord_writeWord_other _ _ (by omega)]
      exact .same
  | power k i v hi hw =>
    refine off _ v ?_
    rcases hi with ⟨hk, rfl, hl, -⟩ | hi
    · have heven := badLength_even (hv k hk hl).1
      have hne : (s.bus k).curLen.toNat ≠ 0 := fun e => hl (BitVec.eq_of_toNat_eq (by simpa using e))
      have hone : (s.bus k).curLen.toNat % 2 = 0 := by
        have := heven
        simpa [BitVec.getLsbD, Nat.testBit_zero] using this
      exact ((hv k hk hl).power (by omega) hb).2
    · have ho := hm.hostOk
      simp only [hostInv, hi] at ho
      have hl : (s.bus k).curLen ≠ 0 := by
        intro e
        rw [e] at ho
        exact absurd ho.2.2 (by simp)
      exact ((hv k ho.1 hl).power ho.2.2 hb).2
  | byte a v he hi hw =>
    have := hin hi
    rw [he] at this
    exact off _ v (this.2 b hb)

end Sys2Proof.Machine
end

