-- ==== Sys2Proof/Laws/PerInstr.lean ====
section
/-! SUPPORT. The per-instruction family TableMatch: the word of every instruction carries the fixed bits of its row of the
opcode table (spec R102, R109, R121). -/

namespace Sys2Proof.Laws.TableMatch

/-- A row of the opcode table: the fixed bits and which bits they are. -/
structure Row where
  nbits : Nat
  fixed : Nat
  mask  : Nat

/-- The row of an instruction, as R102 and R109 print it. -/
def row : Instr → Row
  | .nopc _ => ⟨8, 0x00, 0xF8⟩
  | .outb _ => ⟨8, 0x10, 0xF8⟩
  | .snp => ⟨8, 0x20, 0xFF⟩
  | .play _ => ⟨32, 0x10000000, 0xF0FFFFFF⟩
  | .swap _ => ⟨32, 0x20000000, 0xF0FFFFFF⟩
  | .updpwr _ => ⟨32, 0x30000000, 0xF0FFFFFF⟩
  | .drain => ⟨32, 0x40000000, 0xFFFFFFFF⟩
  | .rdreg _ _ => ⟨32, 0x50000000, 0xF0FFF000⟩

/-- A code word carries the fixed bits of a row, and has its length. -/
def carries (r : Row) : CodeWord → Prop
  | .micro w => r.nbits = 8 ∧ w &&& BitVec.ofNat 8 r.mask = BitVec.ofNat 8 r.fixed
  | .cmd w => r.nbits = 32 ∧ w &&& BitVec.ofNat 32 r.mask = BitVec.ofNat 32 r.fixed

/-- The encoding of an instruction matches its row. -/
def Statement (i : Instr) : Prop := carries (row i) (encode i)

theorem nopc (c : Ctrl) : Statement (.nopc c) := ⟨rfl, by revert c; decide⟩
theorem outb (c : Ctrl) : Statement (.outb c) := ⟨rfl, by revert c; decide⟩
theorem snp : Statement .snp := ⟨rfl, by decide⟩
theorem play (b : BitVec 4) : Statement (.play b) := ⟨rfl, by revert b; decide⟩
theorem swap (b : BitVec 4) : Statement (.swap b) := ⟨rfl, by revert b; decide⟩
theorem updpwr (b : BitVec 4) : Statement (.updpwr b) := ⟨rfl, by revert b; decide⟩
theorem drain : Statement .drain := ⟨rfl, by decide⟩

theorem rdreg (b : BitVec 4) (r : BitVec 12) : Statement (.rdreg b r) := by
  refine ⟨rfl, ?_⟩
  apply BitVec.eq_of_getLsbD_eq
  intro i hi
  simp only [row, BitVec.getLsbD_and, BitVec.getLsbD_append, BitVec.getLsbD_ofNat]
  interval_cases i <;> simp [Nat.testBit]

end Sys2Proof.Laws.TableMatch
end

