-- ==== Sys2Proof/Tests/Slice0.lean ====
section
/-! SUPPORT. The model's own tests: words written out from the spec's encodings, ill-formed terms, one step per instruction
with the values of the spec's file 95, and for every statement a concrete state that meets its hypotheses. -/

namespace Sys2Proof.Tests

open Sys2Proof Sys2Proof.Machine Sys2Proof.Claims

/-! ## Words (file 95, V-ENC) -/

theorem test_decode_nopc : decodeTableWord 8 0x07 = some (.nopc 0b111) := by decide
theorem test_decode_outb : decodeTableWord 8 0x14 = some (.outb 0b100) := by decide
theorem test_decode_snp : decodeTableWord 8 0x20 = some .snp := by decide
theorem test_decode_play : decodeTableWord 32 0x11000000 = some (.play 1) := by decide
theorem test_decode_swap : decodeTableWord 32 0x20000000 = some (.swap 0) := by decide
theorem test_decode_updpwr : decodeTableWord 32 0x31000000 = some (.updpwr 1) := by decide
theorem test_decode_drain : decodeTableWord 32 0x40000000 = some .drain := by decide
theorem test_decode_rdreg : decodeTableWord 32 0x51000005 = some (.rdreg 1 0x005) := by decide

theorem test_reserved_microwords :
    [0x21, 0x30, 0x80, 0x08, 0x1C].map (decodeTableWord 8) = [none, none, none, none, none] := by decide

theorem test_illegal_command_bits :
    [0x00000000, 0x60000000, 0xF0000000, 0x10001000, 0x10000001, 0x41000000, 0x40000001].map (decodeTableWord 32)
      = [none, none, none, none, none, none, none] := by decide

theorem test_encode_words :
    encode (.outb 0b010) = .micro 0x12 ∧ encode (.play 0) = .cmd 0x10000000
      ∧ encode (.rdreg 0 0x100) = .cmd 0x50000100 := by decide

theorem test_delta_rom_packed :
    (List.range 16).map (fun i => (delta (BitVec.ofNat 4 i)).toInt)
      = [0, 1, -1, 0, -1, 0, 0, 1, 1, 0, 0, -1, 0, -1, 1, 0] := by decide

/-! ## Ill-formed terms (R111, R112) -/

theorem test_wf_refuses_play_of_missing_bus : (Instr.play 2).wf 2 = false := by decide
theorem test_wf_refuses_swap_of_missing_bus : (Instr.swap 2).wf 2 = false := by decide
theorem test_wf_refuses_updpwr_of_missing_bus : (Instr.updpwr 15).wf 2 = false := by decide
theorem test_wf_refuses_rdreg_of_missing_bus : (Instr.rdreg 2 0x000).wf 2 = false := by decide
theorem test_wf_refuses_undefined_register : (Instr.rdreg 0 0x00B).wf 2 = false := by decide
theorem test_wf_refuses_global_register_of_bus_1 : (Instr.rdreg 1 0x100).wf 2 = false := by decide
theorem test_wf_accepts : (Instr.rdreg 1 0x00A).wf 2 = true ∧ (Instr.play 1).wf 2 = true := by decide

/-- CFG-A with the records of both buses replaced. -/
def cfgWith (f g : BusConfig → BusConfig) : Config :=
  match Config.cfgA.buses with
  | [k, l] => { Config.cfgA with buses := [f k, g l] }
  | _ => Config.cfgA

theorem test_cfgWf_accepts_cfgA : cfgWf Config.cfgA = true := by decide
theorem test_cfgWf_refuses_no_bus : cfgWf { Config.cfgA with buses := [] } = false := by decide
theorem test_cfgWf_refuses_empty_queue : cfgWf { Config.cfgA with txqDepth := 0 } = false := by decide
theorem test_cfgWf_refuses_misaligned_record : cfgWf (cfgWith (fun k => { k with rcbAddr := 0x20001002 }) id) = false := by
  decide
theorem test_cfgWf_refuses_unbacked_record : cfgWf (cfgWith (fun k => { k with rcbAddr := 0x20001FFC }) id) = false := by
  decide
theorem test_cfgWf_refuses_overlapping_records :
    cfgWf (cfgWith id fun k => { k with rcbAddr := 0x20001004 }) = false := by decide
theorem test_cfgWf_refuses_shared_pin : cfgWf (cfgWith id fun k => { k with dataBase := 10 }) = false := by decide
theorem test_cfgWf_refuses_shared_state_machine : cfgWf (cfgWith id fun k => { k with smId := 0 }) = false := by decide
theorem test_cfgWf_refuses_shared_channel : cfgWf (cfgWith id fun k => { k with dmaAddr := 1 }) = false := by decide

/-! ## Small states -/

/-- The buffer `[10,100,20,100,30,100]` at 0x2000_0000 and the record of bus 0 naming it. -/
def mem0 : Memory :=
  [(0x20000000, 10), (0x20000001, 100), (0x20000002, 20), (0x20000003, 100), (0x20000004, 30), (0x20000005, 100),
    (0x20001003, 0x20), (0x20001004, 6)]

/-- Bus 0 right after `PLAY 0, 0x2000_0000, 6, 1000`. -/
def played : Bus := playBus 0x20000000 6 1000 Bus.reset

/-- Bus 0 with two bytes queued. -/
def fed : Bus := { played with txq := [10, 100], dataReadAddr := 0x20000002, dataTransCount := 4 }

/-- Bus 0 with the pass complete and the re-arm pending. -/
def wrapped : Bus :=
  { played with txq := [30, 100], dataReadAddr := 0x20000006, dataTransCount := 0, dataBusy := false, rcntPend := true }

/-- CFG-A with `HANDOFF` = `split`. -/
def cfgSplit : Config := { Config.cfgA with handoff := .split }

/-- A state of a block with configuration `cfg`, bus 0 at `x`, and the events `es` next. -/
def on (cfg : Config) (x : Bus) (es : List Event) : State :=
  { State.resetWith cfg mem0 0b00 with buses := [x, Bus.reset], script := es }

/-- The same with the port's operands `a`, `l`, `r` written. -/
def ported (cfg : Config) (x : Bus) (a l r : Word) : State := { on cfg x [] with arg0 := a, arg1 := l, arg2 := r }

/-- A look at the next state, if there is one. -/
def after {α : Type} (o : Host.Outcome State Fault Refusal) (f : State → α) : Option α :=
  match o with
  | .next t => some (f t)
  | .fault _ => none
  | .refused _ => none

/-- A look that sees `v` is a look at a next state. -/
theorem goesTo {α : Type} {s : State} {f : State → α} {v : α} (h : after (step s) f = some v) :
    ∃ t, step s = .next t ∧ f t = v := by
  cases e : step s with
  | next t =>
    rw [e] at h
    exact ⟨t, rfl, Option.some.inj h⟩
  | fault r => rw [e] at h; cases h
  | refused r => rw [e] at h; cases h

/-- A step goes on where a look at its next state sees something. -/
theorem goes {s : State} (h : (after (step s) fun _ => ()) = some ()) : ∃ t, step s = .next t :=
  let ⟨t, ht, _⟩ := goesTo h
  ⟨t, ht⟩

/-! ## One step of each instruction (file 95, part 2) -/

theorem test_outb_takes_byte :
    after (exec (.outb 0b100) (on Config.cfgA fed [])) (fun t =>
      ((t.bus 0).dout, (t.bus 0).ctrl, (t.bus 0).txq, (t.bus 0).phase)) = some (10, 0b100, [100], 1) := by decide

theorem test_outb_stall_drive :
    after (exec (.outb 0b010) (on { Config.cfgA with stallCtrl := .drive }
      { played with phase := 2, dout := 10 } [])) (fun t =>
      ((t.bus 0).dout, (t.bus 0).ctrl, (t.bus 0).txq, (t.bus 0).phase)) = some (10, 0b010, [], 2) := by decide

theorem test_nopc_latches_signal :
    after (exec (.nopc 0b111) (on Config.cfgA { fed with phase := 1, dout := 10, ctrl := 0b100 } [])) (fun t =>
      ((t.bus 0).dout, (t.bus 0).ctrl, (t.bus 0).phase, (t.bus 0).dacSig, (t.bus 0).dacPwr))
      = some (10, 0b111, 2, some 10, none) := by decide

theorem test_nopc_wraps_and_latches_power :
    after (exec (.nopc 0b111) (on Config.cfgA { fed with phase := 3, dout := 100, ctrl := 0b010 } [])) (fun t =>
      ((t.bus 0).ctrl, (t.bus 0).phase, (t.bus 0).dacSig, (t.bus 0).dacPwr)) = some (0b111, 0, none, some 100) := by
  decide

theorem test_snp_pushes_change :
    after (exec .snp { State.reset with prev := 0b01, rxq := [0b01], encIn := 0b10 }) (fun t =>
      (t.rxq, t.prev, t.dropCount)) = some ([0b01, 0b10], 0b10, 0) := by decide

theorem test_snp_drop_wraps :
    after (exec .snp { State.reset with
      prev := 0b01, rxq := [0b01, 0b11, 0b10, 0b00], encIn := 0b11, dropCount := 0xFFFFFFFF }) (fun t =>
      (t.rxq, t.prev, t.dropCount)) = some ([0b01, 0b11, 0b10, 0b00], 0b11, 0) := by decide

theorem test_play_mid_write :
    after (exec (.play 0) (ported Config.cfgA { fed with txq := [2, 3, 4], dout := 1, ctrl := 0b100, phase := 1 }
      0x20000100 2 3000000)) (fun t => t.bus 0)
      = some { fed with
          ctrl := 0b111, dacSig := some 1, dout := 1, txq := [], phase := 0, smFreq := 10000000, rateClamped := true
          sampleRate := 3000000, dataReadAddr := 0x20000100, activeBase := 0x20000100, dataTransCount := 2
          curAddr := 0x20000100, curLen := 2 } := by decide

theorem test_play_writes_record :
    after (exec (.play 1) (ported Config.cfgA Bus.reset 0x20000200 2 0x40000000)) (fun t =>
      ((List.range 8).map fun i => t.mem.read (0x20001008 + i), (t.bus 1).smFreq, t.status))
      = some ([0x00, 0x02, 0x00, 0x20, 0x02, 0x00, 0x00, 0x00], 10000000, 0) := by decide

theorem test_swap_leaves_pass :
    after (exec (.swap 0) (ported Config.cfgA fed 0x20000100 2 0)) (fun t =>
      ((t.bus 0).curAddr, (t.bus 0).curLen, t.mem.readWord 0x20001000, t.mem.readWord 0x20001004,
        (t.bus 0).dataReadAddr, (t.bus 0).dataTransCount, (t.bus 0).activeBase, t.status))
      = some (0x20000100, 2, 0x20000100, 2, 0x20000002, 4, 0x20000000, 0) := by decide

theorem test_swap_split_first :
    after (exec (.swap 0) (ported cfgSplit fed 0x20000100 4 0)) (fun t =>
      (t.mem.readWord 0x20001000, t.mem.readWord 0x20001004, t.hstate))
      = some (0x20000100, 6, .swap2 0 4) := by decide

theorem test_updpwr_first_byte :
    after (exec (.updpwr 0) (ported Config.cfgA played 0x100 0 0)) (fun t =>
      ((List.range 6).map fun i => t.mem.read (0x20000000 + i), t.hstate))
      = some ([10, 255, 20, 100, 30, 100], .updpwr 0 3 0xFF) := by decide

theorem test_updpwr_nothing_retained :
    after (exec (.updpwr 0) (ported Config.cfgA Bus.reset 50 0 0)) (fun t => (t.mem == mem0, t.status, t.hstate))
      = some (true, 0, .idle) := by decide

theorem test_drain_pops_first :
    after (exec .drain { State.reset with rxq := [0b10, 0b11] }) (fun t => (t.acc, t.last, t.rxq, t.hstate))
      = some (0xFFFFFFFF, 0b10, [0b11], .drain) := by decide

theorem test_drain_accumulator_wraps :
    after (step { State.reset with hstate := .drain, acc := 0x7FFFFFFF, rxq := [0b01], script := [.hostLoop] })
      (fun t => (t.acc, t.last, t.hstate)) = some (0x80000000, 0b01, .drain) := by decide

theorem test_rdreg_playing :
    ([0x005, 0x001, 0x007, 0x000, 0x003, 0x006].map fun r =>
      after (exec (.rdreg 0 r) (on Config.cfgA played [])) (fun t => t.result))
      = [some 6, some 4000, some 0x20000000, some 1, some 0x700, some 1] := by decide

theorem test_rdreg_rejects :
    ([(0, 0x00B), (0, 0x103), (1, 0x100), (2, 0x000)].map fun br : BitVec 4 × BitVec 12 =>
      after (exec (.rdreg br.1 br.2) State.reset) (fun t => (t.status, t.result)))
      = [some (2, 0), some (2, 0), some (2, 0), some (2, 0)] := by decide

/-! ## The ring (file 95, V-DMA) -/

theorem test_dxfer_last_byte :
    after (step (on Config.cfgA
      { played with txq := [30], dataReadAddr := 0x20000005, dataTransCount := 1 } [.data 0])) (fun t => t.bus 0)
      = some wrapped := by decide

theorem test_dxfer_bus_fault :
    after (step (on Config.cfgA { played with dataReadAddr := 0x20002000, dataTransCount := 2 } [.data 0]))
      (fun t => t.bus 0)
      = some { played with dataReadAddr := 0x20002000, dataTransCount := 2, busFault := true } := by decide

theorem test_rearm :
    after (step (on Config.cfgA wrapped [.rcnt 0])) (fun t => t.bus 0)
      = some { played with txq := [30, 100] } := by decide

theorem test_rearm_zero_count :
    after (step { on Config.cfgA wrapped [.rcnt 0] with mem := [(0x20001003, 0x20)] }) (fun t =>
      ((t.bus 0).dataTransCount, (t.bus 0).activeBase, (t.bus 0).zeroCountFault, (t.bus 0).dataBusy, (t.bus 0).rcntPend))
      = some (0, 0x20000000, true, false, false) := by decide

/-! ## Placing a word for the next step -/

theorem test_fetch_microword :
    after (step (State.reset.withFetchWord 8 0x07)) (fun t => ((t.bus 0).ctrl, (t.bus 0).phase)) = some (0b111, 1) := by
  decide

theorem test_fetch_command :
    after (step (State.reset.withFetchWord 32 0x50000003)) (fun t => (t.result, t.status)) = some (0x700, 0) := by decide

/-! ## States that meet the hypotheses of the statements, one theorem a statement -/

/-- Both buses of a state of `on`. -/
theorem on_bus {P : Nat → Bus → Prop} {cfg : Config} {x : Bus} {es : List Event} (h0 : P 0 x) (h1 : P 1 Bus.reset) :
    ∀ b, b < 2 → P b ((on cfg x es).bus b) := by
  intro b hb
  interval_cases b
  · exact h0
  · exact h1

/-- A state of `on` meets the machine invariant when its bus 0 is in order. -/
theorem on_inv {cfg : Config} {x : Bus} (es : List Event) (h2 : cfg.nbus = 2)
    (hb : ∀ c ∈ mem0, backedByte cfg c.1 = true) (hx : BusInv cfg x) : MachineInv (on cfg x es) where
  memWf := show mem0.wf = true by decide
  memBacked := hb
  busCount := h2.symm
  busOk := by
    intro b hlt
    exact on_bus (P := fun _ y => BusInv cfg y) hx BusInv.reset b (h2 ▸ hlt)
  rxqFits := Nat.zero_le _
  accIdle := fun _ => rfl
  hostOk := trivial
  statusCode := .inl rfl

/-- Bus 0 right after `PLAY` is in order. -/
theorem played_inv {cfg : Config} : BusInv cfg played := BusInv.play _ _ (by decide)

theorem witness_EncodeInvertsDecode : decode (.cmd 0x5100000A) = .ok (.rdreg 1 0x00A) := by decide

theorem witness_ReservedMicrowordsRefused :
    cfgWf { State.reset with qesRom := 0x21 }.cfg = true ∧ reservedMicroword 0x21 :=
  ⟨by decide, .inr (.inr (.inr (by decide)))⟩

theorem witness_IllegalCommandWordRejected :
    ready (on Config.cfgA played [.issue none (some 2) none 0x60000000])
      ∧ (on Config.cfgA played [.issue none (some 2) none 0x60000000]).hstate = .idle
      ∧ illegalCommand 2 0x60000000 ∧ illegalCommand 2 0x00000000 ∧ illegalCommand 2 0x10001000
      ∧ illegalCommand 2 0x10000001 ∧ illegalCommand 2 0x41000000 ∧ illegalCommand 2 0x12000000
      ∧ illegalCommand 2 0x5000000B ∧ illegalCommand 2 0x51000100 := by
  refine ⟨by decide, rfl, ?_, ?_, ?_, ?_, ?_, ?_, ?_, ?_⟩
  · exact .inl (by decide)
  · exact .inl (by decide)
  · exact .inr (.inl (by decide))
  · exact .inr (.inr (.inl (by decide)))
  · exact .inr (.inr (.inr (.inl (by decide))))
  · exact .inr (.inr (.inr (.inr (.inl (by decide)))))
  · exact .inr (.inr (.inr (.inr (.inr (.inl (by decide))))))
  · exact .inr (.inr (.inr (.inr (.inr (.inr (by decide))))))

theorem witness_ResetMeetsInvariants :
    cfgWf Config.cfgA = true ∧ mem0.wf = true ∧ (∀ c ∈ mem0, backedByte Config.cfgA c.1 = true)
      ∧ Config.cfgA.prevReset = Config.cfgA.lastReset ∧ Config.cfgA.handoff = .atomic := by decide

theorem witness_StepKeepsMachineInvariant :
    MachineInv (on Config.cfgA played [.data 0]) ∧ ∃ t, step (on Config.cfgA played [.data 0]) = .next t :=
  ⟨on_inv _ rfl (by decide) played_inv, goes (by decide)⟩

/-- The lines of both buses of `on` agree with the program when those of bus 0 do. -/
theorem on_pins {cfg : Config} {x : Bus} {es : List Event} (h2 : cfg.nbus = 2) (h : pinsInv cfg.stallCtrl x) :
    ∀ b, b < (on cfg x es).cfg.nbus → pinsInv (on cfg x es).cfg.stallCtrl ((on cfg x es).bus b) := by
  intro b hb
  refine on_bus (P := fun _ y => pinsInv cfg.stallCtrl y) h ?_ b (h2 ▸ hb)
  simp [pinsInv, Bus.reset]

theorem witness_StepKeepsControlLines :
    fixedProgram (on Config.cfgA fed [.bpp 0])
      ∧ (∀ b, b < (on Config.cfgA fed [.bpp 0]).cfg.nbus →
          pinsInv (on Config.cfgA fed [.bpp 0]).cfg.stallCtrl ((on Config.cfgA fed [.bpp 0]).bus b))
      ∧ ∃ t, step (on Config.cfgA fed [.bpp 0]) = .next t :=
  ⟨⟨rfl, rfl⟩, on_pins rfl (by simp [pinsInv, fed, played, playBus]), goes (by decide)⟩

/-- The state of the parity witness: both records named, bus 0 playing. -/
def evenRecords : State := on Config.cfgA played [.data 0]

/-- The record and the buffer of `mem0` keep the contract. -/
theorem mem0_valid : bufferValid Config.cfgA 0x20000000 6 := by
  refine ⟨by decide, by decide, ?_⟩
  intro b a hb h1 h2
  have : b < 2 := hb
  simp at h1 h2
  interval_cases b <;> (intro h; have := h.1; simp [rcbAddr, Config.cfgA] at this; omega)

/-- The retained buffer of bus 0 of `on` is valid when it is the one of `mem0`. -/
theorem on_retained {x : Bus} {es : List Event} (ha : x.curAddr = 0x20000000) (hl : x.curLen = 6) :
    retainedValid (on Config.cfgA x es) :=
  on_bus (P := fun _ y => y.curLen ≠ 0 → bufferValid Config.cfgA y.curAddr y.curLen)
    (fun _ => by rw [ha, hl]; exact mem0_valid) (fun h => absurd rfl h)

/-- `SWAP 0, 0x2000_0000, 6` is issued next. -/
def swapNext : State := on Config.cfgA played [.issue (some 0x20000000) (some 6) none 0x20000000]

theorem witness_StepKeepsParity :
    (MachineInv evenRecords ∧ fixedProgram evenRecords ∧ recordsEven evenRecords
        ∧ (∀ b, b < evenRecords.cfg.nbus → parityInv (evenRecords.bus b)) ∧ ∃ t, step evenRecords = .next t)
      ∧ MachineInv swapNext ∧ recordsEven swapNext ∧ retainedValid swapNext ∧ swapNext.hstate = .idle
      ∧ eventInContract swapNext swapNext.event ∧ ∃ t, step swapNext = .next t := by
  have even : ∀ es, recordsEven (on Config.cfgA played es) := fun es =>
    on_bus (P := fun b y => y.smEn = true → (mem0.readWord (rcbAddr Config.cfgA b + 4)).getLsbD 0 = false)
      (fun _ => by decide) (fun h => by cases h)
  refine ⟨⟨on_inv _ rfl (by decide) played_inv, ⟨rfl, rfl⟩, even _, ?_, goes (by decide)⟩,
    on_inv _ rfl (by decide) played_inv, even _, on_retained rfl rfl, rfl, ?_, goes (by decide)⟩
  · exact on_bus (P := fun _ y => parityInv y) (fun _ => by decide) (fun h => by cases h)
  · exact fun _ _ _ _ => mem0_valid

theorem witness_StepKeepsParameters : ∃ t, step (on Config.cfgA played [.rcnt 1]) = .next t := goes (by decide)

/-- The sampler saw 0b01, 0b11 and queued both. -/
def sampled : State := { State.reset with prev := 0b11, rxq := [0b01, 0b11], encIn := 0b10, script := [.qes] }

theorem witness_StepKeepsReadingsChained :
    readingsChained sampled ∧ ∃ t, step sampled = .next t ∧ t.dropCount = sampled.dropCount :=
  ⟨by unfold readingsChained; decide, goesTo (f := (·.dropCount)) (by decide)⟩

theorem witness_StepRunsFetchedMicroword :
    (ready (on Config.cfgA fed [.bpp 0]) ∧ 0 < (on Config.cfgA fed [.bpp 0]).cfg.nbus
        ∧ ((on Config.cfgA fed [.bpp 0]).bus 0).smEn = true ∧ ((on Config.cfgA fed [.bpp 0]).bus 0).smFreq ≠ 0
        ∧ decode (.micro ((on Config.cfgA fed [.bpp 0]).bppRom.fetch ((on Config.cfgA fed [.bpp 0]).bus 0).phase))
          = .ok (.outb 0b100) ∧ (Instr.outb 0b100).executor = .bpp)
      ∧ ready sampled ∧ sampled.script = [.qes] ∧ decode (.micro sampled.qesRom) = .ok .snp
      ∧ Instr.snp.executor = .qes := by decide

theorem witness_StepRunsIssuedCommand :
    ready (on Config.cfgA played [.issue none none none 0x50000005])
      ∧ (on Config.cfgA played [.issue none none none 0x50000005]).hstate = .idle
      ∧ decode (.cmd 0x50000005) = .ok (.rdreg 0 0x005) := by decide

theorem witness_StoppedStateMachineHasNoStep :
    ready (on Config.cfgA Bus.reset [.bpp 0]) ∧ ((on Config.cfgA Bus.reset [.bpp 0]).bus 0).smEn = false
      ∧ ready (on Config.cfgA (playBus 0x20000000 6 0 Bus.reset) [.bpp 0])
      ∧ ((on Config.cfgA (playBus 0x20000000 6 0 Bus.reset) [.bpp 0]).bus 0).smFreq = 0 := by decide

theorem witness_BusyHostIssuesNothing :
    ready { on Config.cfgA played [.issue none none none 0x40000000] with hstate := .updpwr 0 3 0x32 }
      ∧ { on Config.cfgA played [.issue none none none 0x40000000] with hstate := .updpwr 0 3 0x32 }.hstate ≠ .idle
      ∧ ready { on Config.cfgA played [.memwr 0x20000000 1] with hstate := .drain }
      ∧ ready { on Config.cfgA played [.memrd 0x20000000] with hstate := .drain } := by decide

theorem witness_ExactlyWellFormedConfigurationsRun :
    cfgWf Config.cfgA = true ∧ cfgWf { State.reset with cfg := { Config.cfgA with buses := [] } }.cfg = false := by decide

theorem witness_ContractRunsNeverFault :
    ready (on Config.cfgA played [.data 0]) ∧ fixedProgram (on Config.cfgA played [.data 0])
      ∧ MachineInv (on Config.cfgA played [.data 0]) ∧ ContractInv (on Config.cfgA played [.data 0])
      ∧ eventInContract (on Config.cfgA played [.data 0]) (on Config.cfgA played [.data 0]).event := by
  refine ⟨by decide, ⟨rfl, rfl⟩, on_inv _ rfl (by decide) played_inv, ⟨rfl, ?_, ?_, ?_, ?_⟩, trivial⟩
  · exact on_bus (P := fun _ y => y.busFault = false ∧ y.zeroCountFault = false) ⟨rfl, rfl⟩ ⟨rfl, rfl⟩
  · exact on_bus (P := fun _ y => y.dataBusy = true →
      backedRange Config.cfgA y.dataReadAddr.toNat y.dataTransCount.toNat = true) (fun _ => by decide) (fun h => by cases h)
  · exact on_bus (P := fun b y => y.smEn = true →
      bufferValid Config.cfgA (mem0.readWord (rcbAddr Config.cfgA b)) (mem0.readWord (rcbAddr Config.cfgA b + 4)))
      (fun _ => mem0_valid) (fun h => by cases h)
  · exact on_retained rfl rfl

theorem witness_NopcDrivesCodeAndAdvances :
    (on Config.cfgA fed []).curBus < (on Config.cfgA fed []).buses.length := by decide

theorem witness_OutbTakesOldestByte :
    (on Config.cfgA fed []).curBus < (on Config.cfgA fed []).buses.length
      ∧ ((on Config.cfgA fed []).bus 0).txq = [10, 100] := by decide

theorem witness_OutbStallsOnEmptyQueue :
    (on Config.cfgA played []).curBus < (on Config.cfgA played []).buses.length
      ∧ ((on Config.cfgA played []).bus 0).txq = [] ∧ (on Config.cfgA played []).cfg.stallCtrl = .hold
      ∧ (on { Config.cfgA with stallCtrl := .drive } played []).cfg.stallCtrl = .drive
      ∧ ((on { Config.cfgA with stallCtrl := .drive } played []).bus 0).txq = [] := by decide

theorem witness_FourCyclesWriteOnePair :
    ready (on Config.cfgA fed []) ∧ fixedProgram (on Config.cfgA fed []) ∧ 0 < (on Config.cfgA fed []).cfg.nbus
      ∧ (on Config.cfgA fed []).buses.length = (on Config.cfgA fed []).cfg.nbus
      ∧ ((on Config.cfgA fed []).bus 0).smEn = true ∧ ((on Config.cfgA fed []).bus 0).smFreq ≠ 0
      ∧ ((on Config.cfgA fed []).bus 0).phase = 0 ∧ ((on Config.cfgA fed []).bus 0).txq = [10, 100] :=
  ⟨by decide, ⟨rfl, rfl⟩, by decide⟩

theorem witness_PlaySetsClampedClock :
    cfgWf (ported Config.cfgA fed 0x20000100 2 2500001).cfg = true
      ∧ (ported Config.cfgA fed 0x20000100 2 2500001).buses.length = (ported Config.cfgA fed 0x20000100 2 2500001).cfg.nbus
      ∧ (0 : BitVec 4).toNat < (ported Config.cfgA fed 0x20000100 2 2500001).cfg.nbus
      ∧ (ported Config.cfgA fed 0x20000100 2 2500001).arg1 ≠ 0
      ∧ (ported Config.cfgA fed 0x20000100 2 2500001).arg1.getLsbD 0 = false := by decide

theorem witness_LinesAreOnTheirPins :
    cfgWf (on Config.cfgA fed []).cfg = true ∧ (on Config.cfgA fed []).buses.length = (on Config.cfgA fed []).cfg.nbus
      ∧ ((on Config.cfgA fed []).cfg.buses[1]?).isSome = true := by decide

theorem witness_SnpPushesOrDropsChanges :
    { State.reset with encIn := 0b00 }.encIn = { State.reset with encIn := 0b00 }.prev
      ∧ (sampled.encIn ≠ sampled.prev ∧ sampled.rxq.length < sampled.cfg.rxqDepth)
      ∧ ({ sampled with rxq := [0b01, 0b11, 0b01, 0b11] }.encIn ≠ sampled.prev
        ∧ sampled.cfg.rxqDepth ≤ { sampled with rxq := [0b01, 0b11, 0b01, 0b11] }.rxq.length) := by decide

theorem witness_DrainIssueDecodesOrReturns : sampled.rxq = [0b01, 0b11] ∧ State.reset.rxq = [] := by decide

theorem witness_DrainLoopDecodesOrReturns :
    ready { sampled with hstate := .drain, script := [.hostLoop] }
      ∧ { sampled with hstate := .drain, script := [.hostLoop] }.rxq = [0b01, 0b11]
      ∧ ready { State.reset with hstate := .drain, script := [.hostLoop] }
      ∧ { State.reset with hstate := .drain, script := [.hostLoop] }.rxq = [] := by decide

theorem witness_DrainReturnsTheSum : ready sampled ∧ sampled.hstate = .idle ∧ sampled.acc = 0 := by decide

theorem witness_OnlyDrainTouchesTheDecoder : (∃ t, step sampled = .next t) ∧ ¬ drainsNext sampled := by
  refine ⟨goes (by decide), ?_⟩
  rintro (⟨-, a0, a1, a2, w, he, -⟩ | ⟨hi, -⟩)
  · cases he
  · cases hi

theorem witness_PlayStartsPlayback :
    cfgWf (ported Config.cfgA fed 0x20000100 2 1000).cfg = true ∧ (ported Config.cfgA fed 0x20000100 2 1000).mem.wf = true
      ∧ (ported Config.cfgA fed 0x20000100 2 1000).buses.length = (ported Config.cfgA fed 0x20000100 2 1000).cfg.nbus
      ∧ (1 : BitVec 4).toNat < (ported Config.cfgA fed 0x20000100 2 1000).cfg.nbus
      ∧ (ported Config.cfgA fed 0x20000100 2 1000).arg1 ≠ 0
      ∧ (ported Config.cfgA fed 0x20000100 2 1000).arg1.getLsbD 0 = false := by decide

theorem witness_SwapRewritesTheRecord :
    cfgWf (ported Config.cfgA fed 0x20000100 2 0).cfg = true ∧ (ported Config.cfgA fed 0x20000100 2 0).mem.wf = true
      ∧ (ported Config.cfgA fed 0x20000100 2 0).buses.length = (ported Config.cfgA fed 0x20000100 2 0).cfg.nbus
      ∧ (0 : BitVec 4).toNat < (ported Config.cfgA fed 0x20000100 2 0).cfg.nbus
      ∧ (ported Config.cfgA fed 0x20000100 2 0).cfg.handoff = .atomic
      ∧ (ported Config.cfgA fed 0x20000100 2 0).arg1 ≠ 0
      ∧ (ported Config.cfgA fed 0x20000100 2 0).arg1.getLsbD 0 = false := by decide

theorem witness_SplitSwapWritesAddressFirst :
    cfgWf (ported cfgSplit fed 0x20000100 2 0).cfg = true ∧ (ported cfgSplit fed 0x20000100 2 0).mem.wf = true
      ∧ (ported cfgSplit fed 0x20000100 2 0).buses.length = (ported cfgSplit fed 0x20000100 2 0).cfg.nbus
      ∧ (0 : BitVec 4).toNat < (ported cfgSplit fed 0x20000100 2 0).cfg.nbus
      ∧ (ported cfgSplit fed 0x20000100 2 0).cfg.handoff = .split
      ∧ (ported cfgSplit fed 0x20000100 2 0).arg1 ≠ 0
      ∧ (ported cfgSplit fed 0x20000100 2 0).arg1.getLsbD 0 = false := by decide

theorem witness_SplitSwapWritesCountSecond :
    ready { on cfgSplit fed [.hostLoop] with hstate := .swap2 0 2 }
      ∧ { on cfgSplit fed [.hostLoop] with hstate := .swap2 0 2 }.mem.wf = true
      ∧ 0 < { on cfgSplit fed [.hostLoop] with hstate := .swap2 0 2 }.cfg.nbus := by decide

theorem witness_BadLengthRejected :
    (0 : BitVec 4).toNat < (ported Config.cfgA fed 0x20000100 0 0).cfg.nbus
      ∧ (ported Config.cfgA fed 0x20000100 0 0).hstate = .idle ∧ (ported Config.cfgA fed 0x20000100 0 0).arg1 = 0
      ∧ (ported Config.cfgA fed 0x20000100 7 0).arg1.getLsbD 0 = true := by decide

theorem witness_MissingBusRejectedFirst :
    (ported Config.cfgA fed 0x20000100 7 0).cfg.nbus ≤ (2 : BitVec 4).toNat
      ∧ (ported Config.cfgA fed 0x20000100 7 0).hstate = .idle := by decide

theorem witness_UpdpwrIssueWritesFirstPowerByte :
    (0 : BitVec 4).toNat < (on Config.cfgA played []).cfg.nbus ∧ (on Config.cfgA played []).mem.wf = true
      ∧ ((on Config.cfgA Bus.reset []).bus 0).curLen = 0 ∧ ((on Config.cfgA played []).bus 0).curLen ≠ 0
      ∧ backedByte (on Config.cfgA played []).cfg (powerAddr ((on Config.cfgA played []).bus 0) 1) = true := by decide

theorem witness_UpdpwrLoopWritesOneByte :
    ready { on Config.cfgA played [.hostLoop] with hstate := .updpwr 0 3 0x32 }
      ∧ { on Config.cfgA played [.hostLoop] with hstate := .updpwr 0 3 0x32 }.mem.wf = true
      ∧ backedByte Config.cfgA (powerAddr ((on Config.cfgA played [.hostLoop]).bus 0) 3) = true := by decide

/-- Bus 0 with a retained buffer no memory backs. -/
def unbacked : Bus := playBus 0x30000000 6 1000 Bus.reset

theorem witness_UnbackedHostAccessStops :
    ((0 : BitVec 4).toNat < (on Config.cfgA unbacked []).cfg.nbus ∧ ((on Config.cfgA unbacked []).bus 0).curLen ≠ 0
        ∧ backedByte (on Config.cfgA unbacked []).cfg (powerAddr ((on Config.cfgA unbacked []).bus 0) 1) = false)
      ∧ (ready { on Config.cfgA unbacked [.hostLoop] with hstate := .updpwr 0 3 0x32 }
        ∧ backedByte Config.cfgA (powerAddr ((on Config.cfgA unbacked [.hostLoop]).bus 0) 3) = false)
      ∧ (ready (on Config.cfgA played [.memwr 0x30000000 1]) ∧ (on Config.cfgA played [.memwr 0x30000000 1]).hstate = .idle
        ∧ ready (on Config.cfgA played [.memrd 0x30000000])
        ∧ backedByte Config.cfgA (0x30000000 : Word).toNat = false) := by decide

theorem witness_UpdpwrOverwritesEveryPowerByte :
    ready (on Config.cfgA played []) ∧ (on Config.cfgA played []).mem.wf = true ∧ (on Config.cfgA played []).hstate = .idle
      ∧ (0 : BitVec 4).toNat < (on Config.cfgA played []).cfg.nbus ∧ ((on Config.cfgA played []).bus 0).curLen ≠ 0
      ∧ ((on Config.cfgA played []).bus 0).curLen.getLsbD 0 = false
      ∧ ∀ i, i % 2 = 1 → i < ((on Config.cfgA played []).bus 0).curLen.toNat →
          backedByte (on Config.cfgA played []).cfg (powerAddr ((on Config.cfgA played []).bus 0) i) = true := by
  refine ⟨by decide, by decide, rfl, by decide, by decide, by decide, ?_⟩
  intro i _ hi
  have : i < 6 := hi
  interval_cases i <;> decide

theorem witness_ResetValues : cfgWf Config.cfgA = true ∧ 1 < Config.cfgA.nbus := by decide

theorem witness_RdregReturnsTheRegister :
    (on Config.cfgA played []).cfg.nbus ≤ (2 : BitVec 4).toNat ∧ (0 : BitVec 4).toNat < (on Config.cfgA played []).cfg.nbus
      ∧ ((1 : BitVec 4).toNat < (on Config.cfgA played []).cfg.nbus ∧ (on Config.cfgA played []).hstate = .idle)
      ∧ (0x100 : BitVec 12) ∈ globalRegNumbers ∧ (0x00B : BitVec 12) ∉ busRegNumbers
      ∧ (0x00B : BitVec 12) ∉ globalRegNumbers := by decide

theorem witness_StatusRegisterFields : fed.txq.length ≤ 255 ∧ sampled.rxq.length ≤ 255 := by decide

theorem witness_HostByteAccess :
    ready (on Config.cfgA played [.memwr 0x20000000 1]) ∧ (on Config.cfgA played [.memwr 0x20000000 1]).mem.wf = true
      ∧ (on Config.cfgA played [.memwr 0x20000000 1]).hstate = .idle
      ∧ ready (on Config.cfgA played [.memrd 0x20001FFF])
      ∧ backedByte Config.cfgA (0x20000000 : Word).toNat = true ∧ backedByte Config.cfgA (0x20001FFF : Word).toNat = true := by
  decide

theorem witness_DxferMovesOneByteOrWaits :
    (ready (on Config.cfgA fed [.data 0]) ∧ (on Config.cfgA fed [.data 0]).buses.length = (on Config.cfgA fed [.data 0]).cfg.nbus
        ∧ 0 < (on Config.cfgA fed [.data 0]).cfg.nbus)
      ∧ (fed.dataBusy = true ∧ fed.dataTransCount ≠ 0 ∧ fed.txq.length < Config.cfgA.txqDepth ∧ fed.busFault = false
        ∧ fed.zeroCountFault = false ∧ backedByte Config.cfgA fed.dataReadAddr.toNat = true
        ∧ backedByte Config.cfgA unbacked.dataReadAddr.toNat = false ∧ unbacked.dataBusy = true)
      ∧ (wrapped.dataBusy = false ∧ Config.cfgA.txqDepth ≤ { fed with txq := [1, 2, 3, 4] }.txq.length
        ∧ wrapped.dataTransCount = 0 ∧ { fed with busFault := true }.busFault ≠ false) := by decide

theorem witness_RcntxLoadsTheCount :
    ready (on cfgSplit wrapped [.rcnt 0]) ∧ (on cfgSplit wrapped [.rcnt 0]).buses.length = (on cfgSplit wrapped [.rcnt 0]).cfg.nbus
      ∧ 0 < (on cfgSplit wrapped [.rcnt 0]).cfg.nbus ∧ (on cfgSplit wrapped [.rcnt 0]).cfg.handoff = .split
      ∧ ((on cfgSplit wrapped [.rcnt 0]).bus 0).rcntPend = true
      ∧ ((on cfgSplit wrapped [.rcnt 0]).bus 0).busFault = false
      ∧ ((on cfgSplit wrapped [.rcnt 0]).bus 0).zeroCountFault = false
      ∧ ((on cfgSplit played [.rcnt 0]).bus 0).rcntPend = false := by decide

/-- Bus 0 between the two re-arm transfers. -/
def counted : Bus := { wrapped with rcntPend := false, raddrPend := true, dataTransCount := 6 }

theorem witness_RaddrxRestartsTheChannel :
    ready (on cfgSplit counted [.raddr 0]) ∧ (on cfgSplit counted [.raddr 0]).buses.length = (on cfgSplit counted [.raddr 0]).cfg.nbus
      ∧ (on cfgSplit counted [.raddr 0]).cfg.handoff = .split ∧ ((on cfgSplit counted [.raddr 0]).bus 0).raddrPend = true
      ∧ ((on cfgSplit counted [.raddr 0]).bus 0).busFault = false
      ∧ ((on cfgSplit counted [.raddr 0]).bus 0).zeroCountFault = false
      ∧ ((on cfgSplit counted [.raddr 0]).bus 0).dataTransCount ≠ 0
      ∧ ((on cfgSplit { counted with dataTransCount := 0 } [.raddr 0]).bus 0).dataTransCount = 0
      ∧ ready (on Config.cfgA counted [.raddr 0]) ∧ (on Config.cfgA counted [.raddr 0]).cfg.handoff = .atomic := by decide

theorem witness_RearmLoadsBothWords :
    ready (on Config.cfgA wrapped [.rcnt 0]) ∧ (on Config.cfgA wrapped [.rcnt 0]).buses.length = (on Config.cfgA wrapped [.rcnt 0]).cfg.nbus
      ∧ (on Config.cfgA wrapped [.rcnt 0]).cfg.handoff = .atomic ∧ ((on Config.cfgA wrapped [.rcnt 0]).bus 0).rcntPend = true
      ∧ ((on Config.cfgA wrapped [.rcnt 0]).bus 0).busFault = false
      ∧ ((on Config.cfgA wrapped [.rcnt 0]).bus 0).zeroCountFault = false
      ∧ (on Config.cfgA wrapped [.rcnt 0]).mem.readWord (rcbAddr Config.cfgA 0 + 4) ≠ 0
      ∧ { on Config.cfgA wrapped [.rcnt 0] with mem := [] }.mem.readWord (rcbAddr Config.cfgA 0 + 4) = 0
      ∧ ((on Config.cfgA played [.rcnt 0]).bus 0).rcntPend = false := by decide

theorem witness_FaultHaltsTheRing :
    ready (on Config.cfgA { fed with busFault := true } [.data 0])
      ∧ ((on Config.cfgA { fed with busFault := true } [.data 0]).bus 0).busFault = true
      ∧ ready (on Config.cfgA { wrapped with zeroCountFault := true } [.rcnt 0])
      ∧ ((on Config.cfgA { wrapped with zeroCountFault := true } [.rcnt 0]).bus 0).zeroCountFault = true := by decide

theorem witness_StickyFlagsStay :
    (∃ t, step (on Config.cfgA { fed with busFault := true, zeroCountFault := true } [.bpp 0]) = .next t)
      ∧ ((on Config.cfgA { fed with busFault := true, zeroCountFault := true } [.bpp 0]).bus 0).busFault = true
      ∧ ((on Config.cfgA { fed with busFault := true, zeroCountFault := true } [.bpp 0]).bus 0).zeroCountFault = true
      ∧ ((on Config.cfgA { fed with busFault := true, zeroCountFault := true } [.bpp 0]).bus 0).smEn = true :=
  ⟨goes (by decide), rfl, rfl, rfl⟩

theorem witness_RingNeverStuck :
    MachineInv (on Config.cfgA played []) ∧ 0 < (on Config.cfgA played []).cfg.nbus
      ∧ ((on Config.cfgA played []).bus 0).smEn = true ∧ noFault (on Config.cfgA played []) 0 :=
  ⟨on_inv _ rfl (by decide) played_inv, by decide, rfl, rfl, rfl⟩

theorem witness_DataChannelDeliversInOrder :
    ready (on Config.cfgA fed []) ∧ (on Config.cfgA fed []).buses.length = (on Config.cfgA fed []).cfg.nbus
      ∧ ((on Config.cfgA fed []).bus 0).dataBusy = true ∧ ((on Config.cfgA fed []).bus 0).rcntPend = false
      ∧ noFault (on Config.cfgA fed []) 0 ∧ 2 ≤ ((on Config.cfgA fed []).bus 0).dataTransCount.toNat
      ∧ 0 < ((on Config.cfgA fed []).bus 0).dataTransCount.toNat
      ∧ ((on Config.cfgA fed []).bus 0).txq.length + 2 ≤ (on Config.cfgA fed []).cfg.txqDepth
      ∧ ∀ i, i < 2 → backedByte (on Config.cfgA fed []).cfg
          (((on Config.cfgA fed []).bus 0).dataReadAddr + BitVec.ofNat 32 i).toNat = true :=
  ⟨by decide, by decide, rfl, rfl, ⟨rfl, rfl⟩, by decide, by decide, by decide, by decide⟩

theorem witness_PassIsUndisturbed :
    ((on Config.cfgA fed [.bpp 0]).bus 0).dataBusy = true ∧ ((on Config.cfgA fed [.bpp 0]).bus 0).rcntPend = false
      ∧ ((on Config.cfgA fed [.bpp 0]).bus 0).raddrPend = false ∧ (∃ t, step (on Config.cfgA fed [.bpp 0]) = .next t)
      ∧ (on Config.cfgA fed [.bpp 0]).event ≠ .data 0 ∧ ¬ issuesPlay (on Config.cfgA fed [.bpp 0]) 0 := by
  refine ⟨rfl, rfl, rfl, goes (by decide), by decide, ?_⟩
  rintro ⟨-, a0, a1, a2, w, k, he, -⟩
  cases he

theorem witness_ActiveBaseIsABufferBase :
    (∃ t, step (on Config.cfgA { wrapped with activeBase := 0x20000100 } [.rcnt 0]) = .next t
        ∧ (t.bus 0).activeBase ≠ ((on Config.cfgA { wrapped with activeBase := 0x20000100 } [.rcnt 0]).bus 0).activeBase)
      ∧ ∃ t, step (on Config.cfgA played [.issue (some 0x20000100) (some 2) none 0x10000000]) = .next t
        ∧ (t.bus 0).activeBase
          ≠ ((on Config.cfgA played [.issue (some 0x20000100) (some 2) none 0x10000000]).bus 0).activeBase := by
  constructor
  · obtain ⟨t, h, e⟩ := goesTo (s := on Config.cfgA { wrapped with activeBase := 0x20000100 } [.rcnt 0])
      (f := fun t => (t.bus 0).activeBase) (v := 0x20000000) (by decide)
    exact ⟨t, h, by rw [show (t.bus 0).activeBase = _ from e]; decide⟩
  · obtain ⟨t, h, e⟩ := goesTo (s := on Config.cfgA played [.issue (some 0x20000100) (some 2) none 0x10000000])
      (f := fun t => (t.bus 0).activeBase) (v := 0x20000100) (by decide)
    exact ⟨t, h, by rw [show (t.bus 0).activeBase = _ from e]; decide⟩

/-- Bus 0 with two bytes queued and the last two bytes of the pass still to come. -/
def ending : Bus := { fed with dataReadAddr := 0x20000004, dataTransCount := 2 }

/-- Bus 0 with the last byte of the pass still to come. -/
def last : Bus := { fed with dataReadAddr := 0x20000005, dataTransCount := 1 }

/-- The next state of a step, where there is one. -/
def following (s : State) : State :=
  match step s with
  | .next t => t
  | _ => s

/-- A turn of an agent of bus 0 continues an undisturbed run. -/
theorem turn {s u : State} {n : Nat} (e : Event) (hs : (after (step s) fun _ => ()) = some ()) (he : s.event = e)
    (ht : e = .data 0 ∨ e = .rcnt 0) (hr : UndisturbedRun 0 (following s) n u) :
    UndisturbedRun 0 s (n + if s.event = .data 0 ∧ dxferEnabled s.cfg (s.bus 0) = true then 1 else 0) u := by
  obtain ⟨t, h⟩ := goes hs
  have hf : following s = t := by unfold following; rw [h]
  have no : ∀ a0 a1 a2 w, s.event ≠ .issue a0 a1 a2 w := by
    rw [he]
    rcases ht with rfl | rfl <;> simp
  refine .more h (fun _ => ?_) ?_ ?_ (hf ▸ hr)
  · rw [he]
    rcases ht with rfl | rfl <;> trivial
  · rintro ⟨-, a0, a1, a2, w, k, hi, -⟩
    exact no _ _ _ _ hi
  · rintro ⟨-, a0, a1, a2, w, k, hi, -⟩
    exact no _ _ _ _ hi

/-- The last byte of the pass, the re-arm, and the first byte of the next pass. -/
def wrap : State := on Config.cfgA last [.data 0, .rcnt 0, .data 0]

theorem witness_SwapAppliesAtTheNextRearm :
    ((ready (on Config.cfgA wrapped []) ∧ ready (on cfgSplit wrapped []))
        ∧ (on Config.cfgA wrapped []).mem.wf = true
        ∧ (on Config.cfgA wrapped []).buses.length = (on Config.cfgA wrapped []).cfg.nbus
        ∧ (0 : BitVec 4).toNat < (on Config.cfgA wrapped []).cfg.nbus ∧ (on Config.cfgA wrapped []).hstate = .idle
        ∧ ((on Config.cfgA wrapped []).bus 0).rcntPend = true ∧ ((on Config.cfgA wrapped []).bus 0).busFault = false
        ∧ ((on Config.cfgA wrapped []).bus 0).zeroCountFault = false ∧ (2 : Word) ≠ 0 ∧ (2 : Word).getLsbD 0 = false)
      ∧ ((ready (on Config.cfgA ending []) ∧ ready (on cfgSplit ending []))
        ∧ ((on Config.cfgA ending []).bus 0).dataBusy = true ∧ 2 = ((on Config.cfgA ending []).bus 0).dataTransCount.toNat
        ∧ ((on Config.cfgA ending []).bus 0).busFault = false ∧ ((on Config.cfgA ending []).bus 0).zeroCountFault = false
        ∧ ((on Config.cfgA ending []).bus 0).txq.length + 2 ≤ (on Config.cfgA ending []).cfg.txqDepth
        ∧ ∀ i, i < 2 →
            backedByte Config.cfgA (((on Config.cfgA ending []).bus 0).dataReadAddr + BitVec.ofNat 32 i).toNat = true
              ∧ ¬ inRcb Config.cfgA 0 (((on Config.cfgA ending []).bus 0).dataReadAddr + BitVec.ofNat 32 i).toNat)
      ∧ MachineInv wrap ∧ retainedValid wrap ∧ (∀ l, wrap.hstate ≠ .swap2 0 l) ∧ (wrap.bus 0).dataBusy = true
      ∧ (wrap.bus 0).dataTransCount.toNat = 1
      ∧ (∃ u, UndisturbedRun 0 wrap 0 u ∧ noFault u 0) ∧ (∃ u, UndisturbedRun 0 wrap 1 u ∧ noFault u 0)
      ∧ ∃ u, UndisturbedRun 0 wrap 2 u ∧ noFault u 0 := by
  refine ⟨by decide, ⟨by decide, by decide, by decide, by decide, by decide, by decide, ?_⟩,
    on_inv _ rfl (by decide) (by constructor <;> decide), on_retained rfl rfl, fun l => by rintro ⟨⟩, rfl, rfl,
    ⟨_, .done _, rfl, rfl⟩, ⟨_, turn (.data 0) (by decide) rfl (.inl rfl) (.done _), by decide, by decide⟩,
    ⟨_, turn (.data 0) (by decide) rfl (.inl rfl) (turn (.rcnt 0) (by decide) rfl (.inr rfl)
      (turn (.data 0) (by decide) rfl (.inl rfl) (.done _))), by decide, by decide⟩⟩
  intro i hi
  interval_cases i <;> (unfold inRcb; decide)

theorem witness_MixedPassUnderSplit :
    ready (on cfgSplit wrapped []) ∧ (on cfgSplit wrapped []).mem.wf = true
      ∧ (on cfgSplit wrapped []).buses.length = (on cfgSplit wrapped []).cfg.nbus
      ∧ (0 : BitVec 4).toNat < (on cfgSplit wrapped []).cfg.nbus ∧ (on cfgSplit wrapped []).cfg.handoff = .split
      ∧ (on cfgSplit wrapped []).hstate = .idle ∧ ((on cfgSplit wrapped []).bus 0).rcntPend = true
      ∧ ((on cfgSplit wrapped []).bus 0).busFault = false ∧ ((on cfgSplit wrapped []).bus 0).zeroCountFault = false
      ∧ (2 : Word) ≠ 0 ∧ (2 : Word).getLsbD 0 = false
      ∧ (on cfgSplit wrapped []).mem.readWord (rcbAddr (on cfgSplit wrapped []).cfg 0 + 4) ≠ 0 := by decide

theorem witness_OnlyPlayAndSwapMutateTheChannel :
    (∃ t, step (on Config.cfgA fed [.bpp 0]) = .next t) ∧ ¬ issuesPlay (on Config.cfgA fed [.bpp 0]) 0
      ∧ ¬ issuesSwap (on Config.cfgA fed [.bpp 0]) 0 := by
  refine ⟨goes (by decide), ?_, ?_⟩
  · rintro ⟨-, a0, a1, a2, w, k, he, -⟩
    cases he
  · rintro ⟨-, a0, a1, a2, w, k, he, -⟩
    cases he

theorem witness_OnlyBppAndPlayMoveTheLines :
    (∃ t, step (on Config.cfgA fed [.hostLoop]) = .next t) ∧ (on Config.cfgA fed [.hostLoop]).event ≠ .bpp 0
      ∧ (on Config.cfgA fed [.hostLoop]).event ≠ .data 0 ∧ ¬ issuesPlay (on Config.cfgA fed [.hostLoop]) 0 := by
  refine ⟨goes (by decide), by decide, by decide, ?_⟩
  rintro ⟨-, a0, a1, a2, w, k, he, -⟩
  cases he

theorem witness_BusStepsWriteOnlyTheirBus :
    turnOfBus 0 (on Config.cfgA fed [.data 0]).event ∧ ∃ t, step (on Config.cfgA fed [.data 0]) = .next t :=
  ⟨.inr (.inl rfl), goes (by decide)⟩

/-- `fed` on bus 0, with bus 1 started as well. -/
def twoBuses : State := { on Config.cfgA fed [.data 0] with buses := [fed, played] }

theorem witness_BusStepsReadOnlyTheirBus :
    turnOfBus 0 (on Config.cfgA fed [.data 0]).event
      ∧ twoBuses = { on Config.cfgA fed [.data 0] with buses := twoBuses.buses }
      ∧ twoBuses.buses.length = (on Config.cfgA fed [.data 0]).buses.length
      ∧ twoBuses.bus 0 = (on Config.cfgA fed [.data 0]).bus 0
      ∧ (∃ t, step (on Config.cfgA fed [.data 0]) = .next t) ∧ ∃ t, step twoBuses = .next t :=
  ⟨.inr (.inl rfl), rfl, rfl, rfl, goes (by decide), goes (by decide)⟩

theorem witness_HardwareNeverWritesMemory :
    (∃ t, step (on Config.cfgA wrapped [.rcnt 0]) = .next t) ∧ turnOfBus 0 (on Config.cfgA wrapped [.rcnt 0]).event
      ∧ (∃ t, step sampled = .next t) ∧ sampled.event = .qes
      ∧ (∃ t, step { sampled with script := [.env 0b01] } = .next t) ∧ { sampled with script := [.env 0b01] }.event = .env 0b01
      ∧ ready { sampled with script := [.env 0b01] } :=
  ⟨goes (by decide), .inr (.inr (.inl rfl)), goes (by decide), rfl, goes (by decide), rfl, by decide⟩

end Sys2Proof.Tests
end

section
/-! PROOFS of the statements on the scope of the model (spec R10, R11): which configurations the rules speak of. -/

namespace Sys2Proof.Proofs.Scope

open Sys2Proof Sys2Proof.Machine Sys2Proof.Claims

variable {cfg : Config}

/-- The configuration check, condition by condition. -/
theorem cfgWf_iff :
    cfgWf cfg = true ↔
      (1 ≤ cfg.nbus ∧ cfg.nbus ≤ 16 ∧ 1 ≤ cfg.txqDepth ∧ cfg.txqDepth ≤ 255 ∧ 1 ≤ cfg.rxqDepth ∧ cfg.rxqDepth ≤ 255)
        ∧ (∀ k ∈ cfg.buses, rcbWf cfg k = true)
        ∧ (cfg.buses.flatMap rcbWords).Nodup
        ∧ (cfg.buses.flatMap busPins ++ [cfg.encBase, cfg.encBase + 1]).Nodup
        ∧ (cfg.buses.map (·.smId) ++ [cfg.qesSmId]).Nodup
        ∧ (cfg.buses.flatMap fun k => [k.dmaData, k.dmaCount, k.dmaAddr]).Nodup := by
  simp only [cfgWf, Bool.and_eq_true, decide_eq_true_eq, List.all_eq_true, allDistinct_iff, and_assoc]

/-- Every bus of the list passes the record check exactly when every record is aligned, inside the address space and
backed. -/
theorem forall_rcbWf_iff :
    (∀ k ∈ cfg.buses, rcbWf cfg k = true) ↔
      ∀ b, b < cfg.nbus → rcbAddr cfg b % 4 = 0 ∧ rcbAddr cfg b + 8 ≤ 2 ^ 32
        ∧ ∀ a, inRcb cfg b a → backedByte cfg a = true := by
  rw [List.forall_mem_iff_getElem]
  refine forall₂_congr fun b hb => ?_
  simp only [rcbWf, Bool.and_eq_true, decide_eq_true_eq, backedRange_iff, inRcb, rcbAddr_eq hb, and_imp]

/-- No byte lies in the records of two buses of a well-formed configuration. -/
theorem not_inRcb_two {b b' a : Nat} (h : cfgWf cfg = true) (hb : b < cfg.nbus) (hb' : b' < cfg.nbus) (hne : b ≠ b')
    (ha : inRcb cfg b a) : ¬ inRcb cfg b' a := by
  have := rcb_disjoint h hb hb' hne
  unfold inRcb at *
  omega

/-- Records that share no byte share no word: a shared word would have its first byte in both. -/
theorem rcbWords_nodup_of_apart
    (h : ∀ b b' a, b < cfg.nbus → b' < cfg.nbus → b ≠ b' → inRcb cfg b a → ¬ inRcb cfg b' a) :
    (cfg.buses.flatMap rcbWords).Nodup := by
  rw [rcbWords_nodup_iff, List.pairwise_iff_getElem]
  intro b b' hb hb' hlt
  have first := h b b' (rcbAddr cfg b) hb hb' (by omega)
  have second := h b b' (rcbAddr cfg b + 4) hb hb' (by omega)
  simp only [inRcb, rcbAddr_eq hb, rcbAddr_eq hb'] at first second
  omega

/-- An ill-formed configuration is refused before any agent is looked at (R11). -/
theorem step_of_illFormed {s : State} (h : cfgWf s.cfg = false) : step s = .refused .illFormedConfig := by
  simp [step, nextAction, h, Action.outcome]

/-- Settles O17: the conditions on numbers are the check's own; the check on the words of the records is R11's
disjointness, as aligned records overlap exactly when they share a word. -/
theorem exactlyWellFormedConfigurationsRun : Obligations.ExactlyWellFormedConfigurationsRun := by
  unfold Obligations.ExactlyWellFormedConfigurationsRun
  refine ⟨fun cfg => ⟨fun h => ?_, ?_⟩, fun s => step_of_illFormed⟩
  · obtain ⟨bounds, records, -, pins, machines, channels⟩ := cfgWf_iff.1 h
    exact ⟨bounds, forall_rcbWf_iff.1 records, fun b b' a => not_inRcb_two h, pins, machines, channels⟩
  · rintro ⟨bounds, records, apart, pins, machines, channels⟩
    exact cfgWf_iff.2 ⟨bounds, forall_rcbWf_iff.2 records, rcbWords_nodup_of_apart apart, pins, machines, channels⟩

end Sys2Proof.Proofs.Scope
end

section
/-! SUPPORT. Laws the statements on the state use: what the shared operations leave unchanged, what a step can do to the
flags and the base address of a bus, the step of an issued command, and how the machine invariant passes over the updates
of a command. -/

namespace Sys2Proof.Machine

variable {s t p : State} {x : Bus} {b : Nat}

/-! ## Frames of the shared operations -/

/-- `OUTB`, completed or stalled, moves only the phase, the lines, the queue and the observer (R132, R134). -/
theorem outbBus_frame (k : StallCtrl) (c : Ctrl) (x : Bus) :
    outbBus k c x = { x with
      phase := (outbBus k c x).phase, dout := (outbBus k c x).dout, ctrl := (outbBus k c x).ctrl
      txq := (outbBus k c x).txq, dacSig := (outbBus k c x).dacSig, dacPwr := (outbBus k c x).dacPwr } := by
  unfold outbBus
  split
  · rfl
  · cases k <;> rfl

@[simp] theorem outbBus_smEn (k : StallCtrl) (c : Ctrl) (x : Bus) : (outbBus k c x).smEn = x.smEn := by
  rw [outbBus_frame]
@[simp] theorem outbBus_activeBase (k : StallCtrl) (c : Ctrl) (x : Bus) :
    (outbBus k c x).activeBase = x.activeBase := by rw [outbBus_frame]
@[simp] theorem outbBus_busFault (k : StallCtrl) (c : Ctrl) (x : Bus) :
    (outbBus k c x).busFault = x.busFault := by rw [outbBus_frame]
@[simp] theorem outbBus_zeroCountFault (k : StallCtrl) (c : Ctrl) (x : Bus) :
    (outbBus k c x).zeroCountFault = x.zeroCountFault := by rw [outbBus_frame]
@[simp] theorem outbBus_curLen (k : StallCtrl) (c : Ctrl) (x : Bus) : (outbBus k c x).curLen = x.curLen := by
  rw [outbBus_frame]

@[simp] theorem dxferBus_smEn (r : Option Byte) (x : Bus) : (dxferBus r x).smEn = x.smEn := by cases r <;> rfl
@[simp] theorem dxferBus_activeBase (r : Option Byte) (x : Bus) : (dxferBus r x).activeBase = x.activeBase := by
  cases r <;> rfl
@[simp] theorem dxferBus_zeroCountFault (r : Option Byte) (x : Bus) :
    (dxferBus r x).zeroCountFault = x.zeroCountFault := by cases r <;> rfl
@[simp] theorem dxferBus_curLen (r : Option Byte) (x : Bus) : (dxferBus r x).curLen = x.curLen := by cases r <;> rfl

theorem dxferBus_busFault_of_set (r : Option Byte) (h : x.busFault = true) : (dxferBus r x).busFault = true := by
  cases r
  · rfl
  · exact h

theorem trigger_zeroCountFault_of_set (a : Word) (h : x.zeroCountFault = true) :
    (trigger a x).zeroCountFault = true := by
  simp [trigger, h]

/-- A reading taken moves only the sampler's own state (R151 to R153). -/
theorem takeReading_frame (cur : Lines) (s : State) :
    takeReading cur s = { s with
      prev := cur, rxq := (takeReading cur s).rxq, dropCount := (takeReading cur s).dropCount } := by
  unfold takeReading
  split <;> rfl

/-- An iteration of `DRAIN` moves only the decoder's and the port's own state (R163). -/
theorem drainIter_frame (s : State) :
    drainIter s = { s with
      rxq := (drainIter s).rxq, acc := (drainIter s).acc, last := (drainIter s).last
      result := (drainIter s).result, status := (drainIter s).status, hstate := (drainIter s).hstate } := by
  unfold drainIter
  split <;> rfl

/-- A state machine that has a step is on (R131). -/
theorem smEn_of_bppEnabled (h : bppEnabled x = true) : x.smEn = true := by
  simp only [bppEnabled, Bool.and_eq_true] at h
  exact h.1

/-! ## One bus after a step -/

/-- No step clears `BUS_FAULT` (R35). -/
theorem BusCase.busFault_of_set {y : Bus} (hc : BusCase s b y) (h : (s.bus b).busFault = true) : y.busFault = true := by
  cases hc with
  | dxfer => exact dxferBus_busFault_of_set _ h
  | outb => simpa using h
  | _ => exact h

/-- No step clears `ZERO_COUNT_FAULT` (R35). -/
theorem BusCase.zeroCountFault_of_set {y : Bus} (hc : BusCase s b y) (h : (s.bus b).zeroCountFault = true) :
    y.zeroCountFault = true := by
  cases hc with
  | rearm | raddrx => exact trigger_zeroCountFault_of_set _ h
  | outb | dxfer => simpa using h
  | _ => exact h

/-- No step clears `SM_EN` (R25). -/
theorem BusCase.smEn_of_set {y : Bus} (hc : BusCase s b y) (h : (s.bus b).smEn = true) : y.smEn = true := by
  cases hc with
  | play => rfl
  | outb | dxfer => simpa using h
  | _ => exact h

/-- `ACTIVE_BASE` is written by `PLAY` and by the two steps that trigger the data channel, with what they read
(R179 to R181, R202). -/
theorem BusCase.activeBase_cases {y : Bus} (hc : BusCase s b y) :
    y.activeBase = (s.bus b).activeBase
      ∨ (∃ k p, Issues s (.play k) p ∧ k.toNat = b ∧ y.activeBase = p.arg0)
      ∨ ((s.event = .rcnt b ∨ s.event = .raddr b) ∧ y.activeBase = s.mem.readWord (rcbAddr s.cfg b)) := by
  cases hc with
  | play k p h hk => exact .inr (.inl ⟨k, p, h, hk, rfl⟩)
  | rearm he => exact .inr (.inr ⟨.inl he, rfl⟩)
  | raddrx he => exact .inr (.inr ⟨.inr he, rfl⟩)
  | outb | dxfer => exact .inl (by simp)
  | _ => exact .inl rfl

/-! ## The step of an issued command -/

/-- What an issued command reads of the state before the step, it finds at the written port. -/
theorem Issues.reads {i : Instr} (hp : Issues s i p) : s.cfg = p.cfg ∧ s.mem = p.mem ∧ ∀ b, s.bus b = p.bus b := by
  obtain ⟨hcfg, -, -, hbuses, -, -, -, -, -, -, -, hmem⟩ := hp.same
  exact ⟨hcfg.symm, hmem.symm, fun b => (bus_congr s b p hbuses).symm⟩

/-- The step of an issued command runs it at the written port (R200). -/
theorem step_of_issues {i : Instr} (hc : cfgWf s.cfg = true) (hr : romsOk s = true) (h : Issues s i p) :
    step s = exec i p := by
  cases h with
  | mk a0 a1 a2 w he hi hd =>
    have hcmd : (s.issued a0 a1 a2 w).cmd = w := rfl
    have hissued : s.chosen.portWritten a0 a1 a2 w = s.issued a0 a1 a2 w := rfl
    simp [step, nextAction, hc, hr, he, perform, issueTurn, hi, runCommand, hissued, hcmd, hd]

/-- `PLAY`, accepted or rejected, leaves its address operand in the port. -/
theorem execPlay_arg0 {k : BitVec 4} (h : execPlay k p = .next t) : t.arg0 = p.arg0 := by
  unfold execPlay at h
  split at h
  · cases h; rfl
  · split at h
    · cases h; rfl
    · split at h <;> cases h
      rfl

/-- A turn of a hardware agent or of the environment is no event of the host. -/
theorem not_host_of_hardware (h : (∃ b, Claims.turnOfBus b s.event) ∨ s.event = .qes ∨ ∃ l, s.event = .env l) :
    (∀ i p, ¬ Issues s i p) ∧ (∀ a0 a1 a2 w, s.event ≠ .issue a0 a1 a2 w) ∧ s.event ≠ .hostLoop
      ∧ ∀ a v, s.event ≠ .memwr a v := by
  have noIssue : ∀ a0 a1 a2 w, s.event ≠ .issue a0 a1 a2 w := by
    rcases h with ⟨b, h | h | h | h⟩ | h | ⟨l, h⟩ <;> simp [h]
  refine ⟨?_, noIssue, ?_⟩
  · rintro i p ⟨a0, a1, a2, w, he, -, -⟩
    exact noIssue _ _ _ _ he
  · rcases h with ⟨b, h | h | h | h⟩ | h | ⟨l, h⟩ <;> simp [h]

/-! ## The machine invariant over the updates a command makes -/

/-- With the port idle the accumulator is zero (R43). -/
theorem MachineInv.acc_of_idle (h : MachineInv s) (hi : s.hstate = .idle) : s.acc = 0 :=
  h.accIdle (by simp [hi])

/-- Replacing memory by one in canonical form and backed keeps the machine invariant. -/
theorem MachineInv.setMem (h : MachineInv s) {m : Memory} (hwf : m.wf = true)
    (hb : ∀ c ∈ m, backedByte s.cfg c.1 = true) : MachineInv { s with mem := m } :=
  { h with memWf := hwf, memBacked := hb, hostOk := h.hostOk }

/-- Writing an accessible word of memory keeps the machine invariant. -/
theorem MachineInv.writeWord (h : MachineInv s) {a : Nat} (v : Word) (ha : wordAccess s.cfg a = true) :
    MachineInv { s with mem := s.mem.writeWord a v } :=
  h.setMem (Memory.writeWord_wf v h.memWf (backedRange_bound (wordAccess_range ha))) (writeWord_backed h.memBacked ha)

/-- With the port idle, writing any bus in order keeps the machine invariant: no command in progress reads its
retained length. -/
theorem MachineInv.setBus_idle (h : MachineInv s) (hi : s.hstate = .idle) (b : Nat) {x : Bus} (hx : BusInv s.cfg x) :
    MachineInv (s.setBus b x) where
  memWf := h.memWf
  memBacked := h.memBacked
  busCount := by simpa using h.busCount
  busOk := fun b' hb' => bus_setBus_holds s b b' x (BusInv s.cfg) (h.busOk b' hb') fun _ => hx
  rxqFits := h.rxqFits
  accIdle := h.accIdle
  hostOk := by simp [hostInv, hi]
  statusCode := h.statusCode

/-- With the port idle, recording a command that can be in progress keeps the machine invariant. -/
theorem MachineInv.setHState (h : MachineInv s) (hi : s.hstate = .idle) {k : HState}
    (hk : hostInv { s with hstate := k }) : MachineInv { s with hstate := k } :=
  { h with accIdle := fun _ => h.acc_of_idle hi, hostOk := hk }

/-- A changed reading, pushed or dropped, keeps the machine invariant (R39). -/
theorem MachineInv.takeReading (h : MachineInv s) (cur : Lines) : MachineInv (takeReading cur s) := by
  unfold Machine.takeReading
  split
  · exact h.congr rfl rfl rfl (by simpa using ‹_›) rfl rfl rfl
  · exact h.congr rfl rfl rfl h.rxqFits rfl rfl rfl

/-- The choice of the next event keeps the machine invariant. -/
theorem MachineInv.chosen (h : MachineInv s) : MachineInv s.chosen :=
  h.congr (by simp) (by simp) (by simp) (by simpa using h.rxqFits) (by simp) (by simp) (by simp)

/-- The host's writes to the port keep the machine invariant. -/
theorem MachineInv.issued (h : MachineInv s) (a0 a1 a2 : Option Word) (w : Word) : MachineInv (s.issued a0 a1 a2 w) :=
  h.congr (by simp) (by simp) (by simp) (by simpa using h.rxqFits) (by simp) (by simp) (by simp)

/-- Writing both words of the record of a bus keeps the machine invariant (R77). -/
theorem MachineInv.writeRecord (h : MachineInv s) (hc : cfgWf s.cfg = true) {b : Nat} (hb : b < s.cfg.nbus)
    (addr len : Word) :
    MachineInv { s with mem := (s.mem.writeWord (rcbAddr s.cfg b) addr).writeWord (rcbAddr s.cfg b + 4) len } :=
  have access := rcb_access hc hb
  (h.writeWord addr access.1).writeWord len access.2

/-- Storing a byte at a backed address keeps the machine invariant. -/
theorem MachineInv.writeByte (h : MachineInv s) {a : Nat} (v : Byte) (ha : backedByte s.cfg a = true) :
    MachineInv { s with mem := s.mem.write a v } := by
  refine h.setMem (Memory.write_wf v h.memWf (backedByte_bound ha)) fun c hc => ?_
  rcases Memory.mem_write hc with hc | rfl
  · exact h.memBacked c hc
  · exact ha

/-- The machine invariant does not look at `RESULT`. -/
theorem MachineInv.setResult (h : MachineInv s) (v : Word) : MachineInv { s with result := v } :=
  h.congr rfl rfl rfl h.rxqFits rfl rfl rfl

/-- What the invariant says of an `UPDPWR` in progress (R204). -/
theorem MachineInv.updpwr_ok (h : MachineInv s) {b i : Nat} {v : Byte} (hi : s.hstate = .updpwr b i v) :
    b < s.cfg.nbus ∧ i % 2 = 1 ∧ i < (s.bus b).curLen.toNat := by
  simpa [hostInv, hi] using h.hostOk

/-- A step that writes an existing bus of the chosen state in order, and leaves its retained length, keeps the machine
invariant. -/
theorem MachineInv.chosen_setBus (h : MachineInv s) (b : Nat) {x : Bus} (hx : BusInv s.cfg x)
    (hl : x.curLen = (s.bus b).curLen) : MachineInv (s.chosen.setBus b x) :=
  h.chosen.setBus b (by simpa using hx) (by simpa using hl)

/-- A microword step, which also sets the current bus, keeps the machine invariant. -/
theorem MachineInv.curBus_setBus (h : MachineInv s) (b : Nat) {x : Bus} (hx : BusInv s.cfg x)
    (hl : x.curLen = (s.bus b).curLen) : MachineInv ({ s.chosen with curBus := b }.setBus b x) :=
  (h.chosen_setBus b hx hl).congr rfl rfl rfl (h.chosen_setBus b hx hl).rxqFits rfl rfl rfl

end Sys2Proof.Machine
end

section
/-! PROOFS of the statements on the state (spec 10_state.md): its values after reset, the machine invariant, what no step
writes, the registers composed of fields, and the pins. -/

namespace Sys2Proof.Proofs.MachineState

open Sys2Proof Sys2Proof.Machine Sys2Proof.Claims

variable {s t p : State} {b : Nat} {cfg : Config} {mem : Memory} {enc : Lines}

/-! ## The machine invariant -/

/-- The machine invariant over every case of a step: a bus that is written stays in order, a command in progress can
be, and memory is written at accessible addresses only. -/
theorem machineInv_of_stepCase (h : MachineInv s) (hc : cfgWf s.cfg = true) (ht : StepCase s t) : MachineInv t := by
  cases ht with
  | idle => exact h.chosen
  | nopc b c he hb hen hd => exact h.curBus_setBus b ((h.busOk b hb).nopc (smEn_of_bppEnabled hen) c) rfl
  | outb b c he hb hen hd =>
    exact h.curBus_setBus b ((h.busOk b hb).outb (smEn_of_bppEnabled hen) _ c) (by simp)
  | dxfer b he hb hen => exact h.chosen_setBus b ((h.busOk b hb).dxfer hen _) (by simp)
  | rcntx b he hb hen hh => exact h.chosen_setBus b ((h.busOk b hb).rcntx hen hh _) rfl
  | rearm b he hb hen hh => exact h.chosen_setBus b ((h.busOk b hb).rearm hen _ _) rfl
  | raddrx b he hb hen => exact h.chosen_setBus b ((h.busOk b hb).raddrx hen _) rfl
  | snp he hne => exact h.chosen.takeReading _
  | env l he => exact h.chosen.congr rfl rfl rfl h.chosen.rxqFits rfl rfl rfl
  | memrd a he hi => exact h.chosen.congr rfl rfl rfl h.chosen.rxqFits rfl rfl rfl
  | memwr a v he hi hw => simpa using h.chosen.writeByte v (by simpa using hw)
  | illegal a0 a1 a2 w e he hi hd =>
    exact (h.issued a0 a1 a2 w).finish (by simpa using h.acc_of_idle hi) _
  | rejected i p c hp => exact (hp.inv h).finish ((hp.inv h).acc_of_idle hp.idle) c
  | rdreg b r p v hp => exact ((hp.inv h).setResult v).finish ((hp.inv h).acc_of_idle hp.idle) .ok
  | drainFirst p hp => exact ((hp.inv h).setHState (k := .drain) hp.idle trivial).drainIter rfl
  | drainLoop he hi => exact h.chosen.drainIter (by simpa using hi)
  | updpwrFirst b p hp hb hl hw =>
    obtain ⟨hcfg, -, hbus⟩ := hp.reads
    rw [hcfg, hbus] at hw
    rw [hcfg] at hb
    exact (hp.inv h).afterPower _ hb rfl hw ((hp.inv h).acc_of_idle hp.idle)
  | updpwrLoop b i v he hi hw =>
    obtain ⟨hb, hodd, -⟩ := h.updpwr_ok hi
    exact h.chosen.afterPower v (by simpa using hb) hodd (by simpa using hw) (by simpa using h.accIdle (by simp [hi]))
  | play b p hp hb hl =>
    obtain ⟨hcfg, hmem, hbus⟩ := hp.reads
    rw [hcfg] at hc hb
    rw [hcfg, hmem, hbus]
    have hx := BusInv.play (cfg := p.cfg) (x := p.bus b.toNat) p.arg0 p.arg2 hl
    exact (((hp.inv h).writeRecord hc hb p.arg0 p.arg1).setBus_idle hp.idle b.toNat hx).finish
      ((hp.inv h).acc_of_idle hp.idle) .ok
  | swap b p hp hb hl hh =>
    obtain ⟨hcfg, hmem, hbus⟩ := hp.reads
    rw [hcfg] at hc hb
    rw [hcfg, hmem, hbus]
    have hx := ((hp.inv h).busOk _ hb).retained p.arg0 hl
    exact (((hp.inv h).setBus_idle hp.idle b.toNat hx).writeRecord hc hb p.arg0 p.arg1).finish
      ((hp.inv h).acc_of_idle hp.idle) .ok
  | swapFirst b p hp hb hl hh =>
    obtain ⟨hcfg, hmem, hbus⟩ := hp.reads
    rw [hcfg] at hc hb hh
    rw [hcfg, hmem, hbus]
    have hx := ((hp.inv h).busOk _ hb).retained p.arg0 hl
    exact (((hp.inv h).setBus_idle hp.idle b.toNat hx).writeWord p.arg0 (rcb_access hc hb).1).setHState hp.idle
      ⟨hb, hl, hh⟩
  | swapSecond b len he hi hw =>
    simpa using (h.chosen.writeWord len (by simpa using hw)).finish (by simpa using h.accIdle (by simp [hi])) .ok

/-- Settles O8, by the cases of a step. -/
theorem stepKeepsMachineInvariant : Obligations.StepKeepsMachineInvariant := by
  unfold Obligations.StepKeepsMachineInvariant
  intro s t h hstep
  obtain ⟨hc, -, ht⟩ := step_cases hstep
  exact machineInv_of_stepCase h hc ht

/-! ## What no step writes -/

/-- Settles O11: the cases of a step write none of the three; the four shared operations by their frames. -/
theorem stepKeepsParameters : Obligations.StepKeepsParameters := by
  unfold Obligations.StepKeepsParameters
  intro s t h
  obtain ⟨-, -, hc⟩ := step_cases h
  cases hc with
  | snp => rw [takeReading_frame]; simp
  | drainFirst p hp => obtain ⟨hcfg, hbpp, hqes, -⟩ := hp.same; rw [drainIter_frame]; exact ⟨hcfg, hbpp, hqes⟩
  | drainLoop => rw [drainIter_frame]; simp
  | updpwrFirst b p hp => obtain ⟨hcfg, hbpp, hqes, -⟩ := hp.same; rw [afterPower_eq]; exact ⟨hcfg, hbpp, hqes⟩
  | updpwrLoop => rw [afterPower_eq]; simp
  | rejected _ p _ hp | play _ p hp | swap _ p hp | swapFirst _ p hp | rdreg _ _ p _ hp =>
    obtain ⟨hcfg, hbpp, hqes, -⟩ := hp.same
    exact ⟨hcfg, hbpp, hqes⟩
  | _ => simp

/-- Settles O49, from what a step can make of one bus. -/
theorem stickyFlagsStay : Obligations.StickyFlagsStay := by
  unfold Obligations.StickyFlagsStay
  intro s t b h
  have hc := bus_cases h b
  exact ⟨hc.busFault_of_set, hc.zeroCountFault_of_set, hc.smEn_of_set⟩

theorem issuesPlay_of_issues {k : BitVec 4} (h : Issues s (.play k) p) : issuesPlay s k.toNat := by
  obtain ⟨a0, a1, a2, w, he, hi, hd⟩ := h
  exact ⟨hi, a0, a1, a2, w, k, he, hd, rfl⟩

/-- Settles O53: a `PLAY` leaves its operand in `ARG0`, and the other writers are the re-arms. -/
theorem activeBaseIsABufferBase : Obligations.ActiveBaseIsABufferBase := by
  unfold Obligations.ActiveBaseIsABufferBase
  intro s t b h hne
  obtain ⟨hc, hr, -⟩ := step_cases h
  obtain hkept | ⟨k, p, hp, rfl, hbase⟩ | hrearm := (bus_cases h b).activeBase_cases
  · exact absurd hkept hne
  · rw [step_of_issues hc hr hp] at h
    exact .inl ⟨issuesPlay_of_issues hp, hbase.trans (execPlay_arg0 h).symm⟩
  · exact .inr hrearm

/-- Settles O60: the steps that write memory or the port are steps of events of the host. -/
theorem hardwareNeverWritesMemory : Obligations.HardwareNeverWritesMemory := by
  unfold Obligations.HardwareNeverWritesMemory
  refine ⟨fun s t hev h => ?_, fun s l rest hready hs => ?_⟩
  · obtain ⟨noCommand, noIssue, noLoop, noStore⟩ := not_host_of_hardware hev
    obtain ⟨-, -, hc⟩ := step_cases h
    cases hc with
    | idle | nopc | outb | dxfer | rcntx | rearm | raddrx | env | memrd => simp
    | snp => rw [takeReading_frame]; simp
    | illegal a0 a1 a2 w e he => exact absurd he (noIssue a0 a1 a2 w)
    | swapSecond _ _ he | updpwrLoop _ _ _ he | drainLoop he => exact absurd he noLoop
    | memwr a v he => exact absurd he (noStore a v)
    | rejected _ p _ hp | play _ p hp | swap _ p hp | swapFirst _ p hp | updpwrFirst _ p hp | drainFirst p hp
    | rdreg _ _ p _ hp => exact absurd hp (noCommand _ p)
  · obtain ⟨hc, hr⟩ := hready
    rw [step_script hc hr hs]
    rfl

/-- Settles O16: each of the three turns asks for an idle `HSTATE`. -/
theorem busyHostIssuesNothing : Obligations.BusyHostIssuesNothing := by
  unfold Obligations.BusyHostIssuesNothing
  rintro s e rest ⟨hc, hr⟩ hbusy hs he
  rw [step_script hc hr hs]
  obtain ⟨a0, a1, a2, w, rfl⟩ | ⟨a, v, rfl⟩ | ⟨a, rfl⟩ := he
  · simp [perform, issueTurn, hbusy, noStep]
  · simp [perform, memwrTurn, hbusy]
  · simp [perform, memrdTurn, hbusy]

/-! ## Reset -/

/-- Every bus, existing or not, reads after reset as `Bus.reset`. -/
theorem resetWith_bus (b : Nat) : (State.resetWith cfg mem enc).bus b = Bus.reset := by
  simp only [State.bus, State.resetWith, List.getD_eq_getElem?_getD, List.getElem?_replicate]
  split <;> rfl

/-- The fixed program has no reserved microword (R107). -/
theorem romsOk_of_fixedProgram (h : fixedProgram s) : romsOk s = true := by
  obtain ⟨hbpp, hqes⟩ := h
  rw [romsOk, hbpp, hqes]
  decide

theorem fixedProgram_resetWith : fixedProgram (State.resetWith cfg mem enc) := ⟨rfl, rfl⟩

/-- With the fixed program a turn of the sampler runs `SNP` (R105). -/
theorem step_qes_of_fixedProgram {rest : List Event} (hc : cfgWf s.cfg = true) (hp : fixedProgram s)
    (hs : s.script = .qes :: rest) : step s = exec .snp { s with script := rest } := by
  rw [step_script hc (romsOk_of_fixedProgram hp) hs]
  have hd : decode (.micro qesRomImage) = .ok .snp := by decide
  simp [perform, qesTurn, runMicroword, hp.2, hd, Instr.executor]

/-- Settles O6: the items one by one, and the fixed `QES_ROM` decodes to `SNP`. -/
theorem resetValues : Obligations.ResetValues := by
  unfold Obligations.ResetValues
  refine ⟨fun cfg mem enc => ?_, rfl, rfl, [], 0b00, rfl⟩
  refine ⟨rfl, rfl, rfl, List.length_replicate, fun b _ => ?_, rfl, rfl, rfl, rfl, rfl, rfl, rfl, rfl, rfl, rfl, rfl, rfl,
    rfl, fun hc rest => ?_⟩
  · rw [resetWith_bus]
    decide
  · exact step_qes_of_fixedProgram hc ⟨rfl, rfl⟩ rfl

/-- The base case of the machine invariant (R54, R261). -/
theorem machineInv_resetWith (hwf : mem.wf = true) (hb : ∀ c ∈ mem, backedByte cfg c.1 = true) :
    MachineInv (State.resetWith cfg mem enc) where
  memWf := hwf
  memBacked := hb
  busCount := List.length_replicate
  busOk := fun b _ => resetWith_bus (cfg := cfg) b ▸ BusInv.reset
  rxqFits := Nat.zero_le _
  accIdle := fun _ => rfl
  hostOk := trivial
  statusCode := .inl rfl

/-- No bus retains a buffer after reset. -/
theorem retainedValid_resetWith : retainedValid (State.resetWith cfg mem enc) := by
  intro b _ hlen
  rw [resetWith_bus] at hlen
  exact absurd rfl hlen

/-- After reset no bus is started, so what is claimed of started buses holds (R261). -/
theorem not_started_resetWith (b : Nat) : ¬ ((State.resetWith cfg mem enc).bus b).smEn = true := by
  rw [resetWith_bus]
  decide

/-- The base case of the contract's invariant. -/
theorem contractInv_resetWith (ha : cfg.handoff = .atomic) : ContractInv (State.resetWith cfg mem enc) where
  atomic := ha
  healthy := fun b _ => by rw [noFault, resetWith_bus]; exact ⟨rfl, rfl⟩
  pass := fun b _ hbusy => by rw [resetWith_bus] at hbusy; exact absurd hbusy (by decide)
  record := fun b _ hon => absurd hon (not_started_resetWith b)
  retained := retainedValid_resetWith

theorem pinsInv_reset (k : StallCtrl) : pinsInv k Bus.reset := by
  cases k <;> simp [pinsInv, Bus.reset]

/-- Settles O7: after reset every bus is `Bus.reset`, which is off, so the claims on started buses hold of none. -/
theorem resetMeetsInvariants : Obligations.ResetMeetsInvariants := by
  unfold Obligations.ResetMeetsInvariants
  intro cfg mem enc _ hwf hb
  refine ⟨machineInv_resetWith hwf hb, fixedProgram_resetWith, fun b _ => ⟨?_, ?_⟩,
    fun b _ hon => absurd hon (not_started_resetWith b), retainedValid_resetWith, fun heq => ?_, contractInv_resetWith⟩
  · rw [resetWith_bus]
    exact pinsInv_reset _
  · exact fun hon => absurd hon (not_started_resetWith b)
  · exact heq.symm

/-! ## Pins -/

theorem mem_busPins {k : BusConfig} {pin : Nat} :
    pin ∈ busPins k ↔ (k.dataBase ≤ pin ∧ pin < k.dataBase + 8) ∨ (k.ctrlBase ≤ pin ∧ pin < k.ctrlBase + 3) := by
  simp only [busPins, List.mem_append, ← List.range'_eq_map_range, List.mem_range'_1]

/-- In a bus without a pin twice a control line is on none of the data pins. -/
theorem ctrlPin_not_dataPin {k : BusConfig} {j : Nat} (h : (busPins k).Nodup) (hj : j < 3) :
    ¬ (k.dataBase ≤ k.ctrlBase + j ∧ k.ctrlBase + j < k.dataBase + 8) := by
  simp only [busPins, ← List.range'_eq_map_range, List.nodup_append, List.mem_range'_1] at h
  obtain ⟨-, -, hapart⟩ := h
  exact fun hdata => hapart _ hdata (k.ctrlBase + j) (by omega) rfl

/-- A bus drives no pin but its own. -/
theorem busPinLevel_of_notMem {k : BusConfig} {x : Bus} {pin : Nat} (h : pin ∉ busPins k) :
    busPinLevel k x pin = none := by
  rw [mem_busPins, not_or] at h
  rw [busPinLevel, if_neg h.1, if_neg h.2]

/-- Where no two buses share a pin, a pin of bus `b` has the level bus `b` drives. -/
theorem findSome_busPinLevel {ks : List BusConfig} {xs : List Bus} {k : BusConfig} {x : Bus} {pin : Nat} {v : Bool}
    (hnd : (ks.flatMap busPins).Nodup) (hk : ks[b]? = some k) (hx : xs[b]? = some x) (hpin : pin ∈ busPins k)
    (hv : busPinLevel k x pin = some v) :
    (ks.zip xs).findSome? (fun kx => busPinLevel kx.1 kx.2 pin) = some v := by
  induction ks generalizing xs b with
  | nil => simp at hk
  | cons k' ks ih =>
    cases xs with
    | nil => simp at hx
    | cons x' xs =>
      rw [List.flatMap_cons, List.nodup_append] at hnd
      obtain ⟨-, hnd, hapart⟩ := hnd
      cases b with
      | zero =>
        obtain rfl : k' = k := by simpa using hk
        obtain rfl : x' = x := by simpa using hx
        simp [hv]
      | succ b =>
        rw [List.getElem?_cons_succ] at hk hx
        have hmem : pin ∈ ks.flatMap busPins := List.mem_flatMap.2 ⟨k, List.mem_of_getElem? hk, hpin⟩
        have hnot : pin ∉ busPins k' := fun h => hapart pin h pin hmem rfl
        simpa [busPinLevel_of_notMem hnot] using ih hnd hk hx

/-- No pin of a well-formed configuration has two owners (R11). -/
theorem pins_nodup (h : cfgWf cfg = true) :
    (cfg.buses.flatMap busPins ++ [cfg.encBase, cfg.encBase + 1]).Nodup := by
  obtain ⟨-, -, -, hpins, -⟩ := Scope.cfgWf_iff.1 h
  exact hpins

/-- No two lines of a bus of a well-formed configuration share a pin (R11). -/
theorem busPins_nodup {k : BusConfig} (hwf : cfgWf cfg = true) (hk : cfg.buses[b]? = some k) : (busPins k).Nodup := by
  obtain ⟨hnd, -⟩ := List.nodup_append.1 (pins_nodup hwf)
  exact (List.nodup_flatMap.1 hnd).1 k (List.mem_of_getElem? hk)

/-- The level on a pin of bus `b` is the one bus `b` drives. -/
theorem pinLevel_of_busPin {k : BusConfig} {pin : Nat} {v : Bool} (hwf : cfgWf s.cfg = true)
    (hlen : s.buses.length = s.cfg.nbus) (hk : s.cfg.buses[b]? = some k) (hpin : pin ∈ busPins k)
    (hv : busPinLevel k (s.bus b) pin = some v) : pinLevel s pin = some v := by
  obtain ⟨hnd, -, hapart⟩ := List.nodup_append.1 (pins_nodup hwf)
  have hmem : pin ∈ s.cfg.buses.flatMap busPins := List.mem_flatMap.2 ⟨k, List.mem_of_getElem? hk, hpin⟩
  have hb : b < s.buses.length := hlen ▸ (List.getElem?_eq_some_iff.1 hk).1
  have hx : s.buses[b]? = some (s.bus b) := by simp [State.bus, hb]
  have h0 : pin ≠ s.cfg.encBase := hapart pin hmem _ (by simp)
  have h1 : pin ≠ s.cfg.encBase + 1 := hapart pin hmem _ (by simp)
  rw [pinLevel, if_neg h0, if_neg h1]
  exact findSome_busPinLevel hnd hk hx hpin hv

/-- Settles O24: the pins of a well-formed configuration have no repeats, so a pin belongs to one line of one bus. -/
theorem linesAreOnTheirPins : Obligations.LinesAreOnTheirPins := by
  unfold Obligations.LinesAreOnTheirPins
  intro s b k hwf hlen hk
  refine ⟨fun i hi => ?_, fun j hj => ?_⟩
  · exact pinLevel_of_busPin hwf hlen hk (mem_busPins.2 (.inl (by omega))) (by simp [busPinLevel, hi])
  · have hnot := ctrlPin_not_dataPin (busPins_nodup hwf hk) hj
    exact pinLevel_of_busPin hwf hlen hk (mem_busPins.2 (.inr (by omega))) (by simp [busPinLevel, hnot, hj])

/-! ## The composed registers -/

@[simp] theorem bit_getElem_zero (v : Bool) : (bit v)[0] = v := by cases v <;> rfl

/-- A queue length up to 255 fits its field of eight bits (R49, R52). -/
theorem toNat_lengthField {n : Nat} (h : n ≤ 255) : (BitVec.ofNat 8 n).toNat = n :=
  Nat.mod_eq_of_lt (by omega)

theorem smStatusWord_fields (x : Bus) (h : x.txq.length ≤ 255) :
    (smStatusWord x).getLsbD 0 = x.smEn ∧ (smStatusWord x).extractLsb' 1 2 = x.phase
      ∧ (smStatusWord x).getLsbD 3 = x.rateClamped ∧ (smStatusWord x).extractLsb' 4 4 = 0
      ∧ ((smStatusWord x).extractLsb' 8 8).toNat = x.txq.length ∧ (smStatusWord x).extractLsb' 16 16 = 0 := by
  unfold smStatusWord
  simp only [↓BitVec.extractLsb'_append_eq_of_le, ↓BitVec.extractLsb'_append_eq_right, ↓BitVec.getLsbD_append,
    Nat.reduceLeDiff, Nat.reduceSub, Nat.reduceLT]
  simp [toNat_lengthField h]

theorem pinsWord_fields (x : Bus) :
    (pinsWord x).extractLsb' 0 8 = x.dout ∧ (pinsWord x).extractLsb' 8 3 = x.ctrl
      ∧ (pinsWord x).extractLsb' 11 21 = 0 := by
  unfold pinsWord
  simp only [↓BitVec.extractLsb'_append_eq_of_le, ↓BitVec.extractLsb'_append_eq_right, Nat.reduceLeDiff, Nat.reduceSub]
  simp

theorem dmaStatusWord_fields (x : Bus) :
    (dmaStatusWord x).getLsbD 0 = x.dataBusy ∧ (dmaStatusWord x).getLsbD 1 = x.rcntPend
      ∧ (dmaStatusWord x).getLsbD 2 = x.raddrPend ∧ (dmaStatusWord x).getLsbD 3 = x.busFault
      ∧ (dmaStatusWord x).getLsbD 4 = x.zeroCountFault ∧ (dmaStatusWord x).extractLsb' 5 27 = 0 := by
  unfold dmaStatusWord
  simp only [↓BitVec.extractLsb'_append_eq_of_le, ↓BitVec.getLsbD_append, Nat.reduceLeDiff, Nat.reduceSub, Nat.reduceLT]
  simp

theorem qesStatusWord_fields (s : State) (h : s.rxq.length ≤ 255) :
    (qesStatusWord s).extractLsb' 0 2 = s.prev ∧ (qesStatusWord s).extractLsb' 2 2 = s.last
      ∧ (qesStatusWord s).extractLsb' 4 4 = 0 ∧ ((qesStatusWord s).extractLsb' 8 8).toNat = s.rxq.length
      ∧ (qesStatusWord s).extractLsb' 16 16 = 0 := by
  unfold qesStatusWord
  simp only [↓BitVec.extractLsb'_append_eq_of_le, ↓BitVec.extractLsb'_append_eq_right, Nat.reduceLeDiff, Nat.reduceSub]
  simp [toNat_lengthField h]

/-- Settles O42, register by register. -/
theorem statusRegisterFields : Obligations.StatusRegisterFields := by
  unfold Obligations.StatusRegisterFields
  exact ⟨smStatusWord_fields, pinsWord_fields, by decide, dmaStatusWord_fields, qesStatusWord_fields⟩

end Sys2Proof.Proofs.MachineState
end

section
/-! SUPPORT. Laws the statements on memory use: when a step has an answer, what a step within the contract of the host can
make of the ring and the buffers of a bus (R82, R87, R233). -/

namespace Sys2Proof.Machine

variable {s t p : State} {x : Bus} {b : Nat} {cfg : Config}

/-! ## A step answers a next state -/

/-- On a state the rules apply to, a step is what the agent of the next event does. -/
theorem step_eq_perform (hc : cfgWf s.cfg = true) (hr : romsOk s = true) :
    step s = (perform s.event s.chosen).outcome := by
  rw [step, nextAction, if_neg (by simp [hc]), if_neg (by simp [hr])]

/-- The fixed program of a bus has no other instructions than `NOPC` and `OUTB` (R104). -/
theorem decode_bppRomImage (ph : BitVec 2) :
    (∃ c, decode (.micro (bppRomImage.fetch ph)) = .ok (.nopc c))
      ∨ ∃ c, decode (.micro (bppRomImage.fetch ph)) = .ok (.outb c) := by
  revert ph
  decide

theorem decode_qesRomImage : decode (.micro qesRomImage) = .ok .snp := by decide

/-- A microword of the agent that fetched it runs (R100). -/
theorem runMicroword_of_decode {k : Executor} {w : BitVec 8} {i : Instr} (hd : decode (.micro w) = .ok i)
    (hk : i.executor = k) : runMicroword k w s = .run i s := by
  simp [runMicroword, hd, hk]

theorem bppTurn_answers (h : s.bppRom = bppRomImage) (b : Nat) : ∃ t, (bppTurn b s).outcome = .next t := by
  unfold bppTurn
  split
  · rw [h]
    obtain ⟨c, hd⟩ | ⟨c, hd⟩ := decode_bppRomImage (s.bus b).phase
    · rw [runMicroword_of_decode (k := .bpp) hd rfl]
      exact ⟨_, rfl⟩
    · rw [runMicroword_of_decode (k := .bpp) hd rfl]
      exact ⟨_, rfl⟩
  · exact ⟨s, rfl⟩

theorem qesTurn_answers (h : s.qesRom = qesRomImage) : ∃ t, (qesTurn s).outcome = .next t := by
  rw [qesTurn, h, runMicroword_of_decode (k := .qes) decode_qesRomImage rfl]
  exact ⟨_, rfl⟩

/-- A turn of the count re-arm channel of a well-formed block answers: its record is accessible (R76). -/
theorem rcntTurn_answers (hc : cfgWf s.cfg = true) (b : Nat) : ∃ t, rcntTurn b s = .next t := by
  by_cases hen : (s.hasBus b && rcntEnabled (s.bus b)) = true
  · have hb : b < s.cfg.nbus := by simp_all [State.hasBus]
    obtain ⟨haddr, hcount⟩ := rcb_access hc hb
    simp only [rcntTurn, if_pos hen, memReadWord, hcount, haddr, if_true]
    cases s.cfg.handoff <;> exact ⟨_, rfl⟩
  · exact ⟨s, by simp only [rcntTurn, if_neg hen]⟩

/-- A turn of the address re-arm channel of a well-formed block answers (R76). -/
theorem raddrTurn_answers (hc : cfgWf s.cfg = true) (b : Nat) : ∃ t, raddrTurn b s = .next t := by
  by_cases hen : (s.hasBus b && raddrEnabled s.cfg (s.bus b)) = true
  · have hb : b < s.cfg.nbus := by simp_all [State.hasBus]
    simp only [raddrTurn, if_pos hen, memReadWord, (rcb_access hc hb).1, if_true]
    exact ⟨_, rfl⟩
  · exact ⟨s, by simp only [raddrTurn, if_neg hen]⟩

/-- The record of a bus of a well-formed configuration can be written whole (R76). -/
theorem writeRcb_answers (hc : cfgWf cfg = true) (hb : b < cfg.nbus) (m : Memory) (addr len : Word) :
    writeRcb cfg m b addr len = some ((m.writeWord (rcbAddr cfg b) addr).writeWord (rcbAddr cfg b + 4) len) :=
  have access := rcb_access hc hb
  writeRcb_some.2 ⟨access.1, access.2, rfl⟩

theorem execPlay_answers (hc : cfgWf s.cfg = true) (k : BitVec 4) : ∃ t, execPlay k s = .next t := by
  unfold execPlay
  split
  · exact ⟨_, rfl⟩
  · rename_i hb
    have hb : k.toNat < s.cfg.nbus := by simpa [State.hasBus] using hb
    rw [writeRcb_answers hc hb]
    split <;> exact ⟨_, rfl⟩

theorem execSwap_answers (hc : cfgWf s.cfg = true) (k : BitVec 4) : ∃ t, execSwap k s = .next t := by
  unfold execSwap
  split
  · exact ⟨_, rfl⟩
  · rename_i hb
    have hb : k.toNat < s.cfg.nbus := by simpa [State.hasBus] using hb
    rw [writeRcb_answers hc hb, memWriteWord_some.2 ⟨(rcb_access hc hb).1, rfl⟩]
    split
    · exact ⟨_, rfl⟩
    · cases s.cfg.handoff <;> exact ⟨_, rfl⟩

theorem swapSecond_answers (hc : cfgWf s.cfg = true) (hb : b < s.cfg.nbus) (len : Word) :
    ∃ t, swapSecond b len s = .next t := by
  rw [swapSecond, memWriteWord_some.2 ⟨(rcb_access hc hb).2, rfl⟩]
  exact ⟨_, rfl⟩

/-- `UPDPWR`'s byte write answers at a backed address (R204). -/
theorem updpwrIter_answers {i : Nat} (h : backedByte s.cfg (powerAddr (s.bus b) i) = true) (v : Byte) :
    ∃ t, updpwrIter b i v s = .next t := by
  rw [updpwrIter, memWriteByte_some.2 ⟨h, rfl⟩]
  dsimp only
  split <;> exact ⟨_, rfl⟩

/-- `UPDPWR`'s byte write has no step outside `Backed` (R76). -/
theorem updpwrIter_unbacked {i : Nat} (h : backedByte s.cfg (powerAddr (s.bus b) i) = false) (v : Byte) :
    updpwrIter b i v s = .fault .hostUnbacked := by
  simp [updpwrIter, memWriteByte, h]

/-- The loop step of an `UPDPWR` in progress has no step outside `Backed` (R76). -/
theorem hostLoopTurn_unbacked {i : Nat} {v : Byte} (hi : s.hstate = .updpwr b i v)
    (h : backedByte s.cfg (powerAddr (s.bus b) i) = false) : hostLoopTurn s = .fault .hostUnbacked := by
  rw [hostLoopTurn, hi]
  exact updpwrIter_unbacked h v

/-! ## Retained buffers -/

/-- A length the commands accept is at least 2 (R201). -/
theorem one_lt_of_badLength {len : Word} (h : badLength len = false) : 1 < len.toNat := by
  have hne : len.toNat ≠ 0 := fun e => badLength_ne_zero h (BitVec.eq_of_toNat_eq (by simpa using e))
  have heven : len.toNat % 2 = 0 := by simpa [BitVec.getLsbD, Nat.testBit_zero] using badLength_even h
  omega

/-- Validity of the retained buffers looks at the configuration and the buses only. -/
theorem retainedValid.congr (h : retainedValid s) (hcfg : t.cfg = s.cfg) (hbuses : t.buses = s.buses) :
    retainedValid t := by
  intro b
  rw [hcfg, bus_congr s b t hbuses]
  exact h b

/-- The bytes `UPDPWR` writes lie in the retained buffer, so they are backed when that is valid (R82, R204). -/
theorem retainedValid.power_backed (h : retainedValid s) {i : Nat} (hb : b < s.cfg.nbus)
    (hi : i < (s.bus b).curLen.toNat) : backedByte s.cfg (powerAddr (s.bus b) i) = true := by
  have hlen : (s.bus b).curLen ≠ 0 := fun e => by simp [e] at hi
  have hv := h b hb hlen
  rw [(hv.power hi hb).1]
  exact backedRange_byte hv.2.1 (by omega) (by omega)

theorem execUpdpwr_answers (hv : retainedValid s) (k : BitVec 4) : ∃ t, execUpdpwr k s = .next t := by
  unfold execUpdpwr
  split
  · exact ⟨_, rfl⟩
  · rename_i hb
    have hb : k.toNat < s.cfg.nbus := by simpa [State.hasBus] using hb
    split
    · exact ⟨_, rfl⟩
    · rename_i hlen
      exact updpwrIter_answers (hv.power_backed hb (one_lt_of_badLength (hv _ hb hlen).1)) _

/-- In a well-formed block with valid retained buffers every command answers at its issue. -/
theorem exec_host_answers {i : Instr} (hi : i.executor = .host) (hc : cfgWf s.cfg = true) (hv : retainedValid s) :
    ∃ t, exec i s = .next t := by
  cases i with
  | nopc | outb | snp => cases hi
  | play k => exact execPlay_answers hc k
  | swap k => exact execSwap_answers hc k
  | updpwr k => exact execUpdpwr_answers hv k
  | drain => exact ⟨_, rfl⟩
  | rdreg k r =>
    simp only [exec, execRdreg]
    split <;> exact ⟨_, rfl⟩

/-- Every word in `CMD` is answered, an illegal one with its rejection (R113, R200). -/
theorem runCommand_answers (hc : cfgWf s.cfg = true) (hv : retainedValid s) :
    ∃ t, (runCommand s).outcome = .next t := by
  unfold runCommand
  split
  · exact ⟨_, rfl⟩
  · rename_i i hd
    exact exec_host_answers (decodeCmd_executor hd) hc hv

theorem issueTurn_answers (hc : cfgWf s.cfg = true) (hv : retainedValid s) (a0 a1 a2 : Option Word) (w : Word) :
    ∃ t, (issueTurn a0 a1 a2 w s).outcome = .next t := by
  unfold issueTurn
  split
  · exact runCommand_answers hc (hv.congr rfl rfl)
  · exact ⟨s, rfl⟩

theorem hostLoopTurn_answers (hc : cfgWf s.cfg = true) (hv : retainedValid s) (ho : hostInv s) :
    ∃ t, hostLoopTurn s = .next t := by
  unfold hostLoopTurn
  cases hi : s.hstate with
  | idle => exact ⟨s, rfl⟩
  | swap2 b len =>
    obtain ⟨hb, -⟩ : b < s.cfg.nbus ∧ _ := by simpa only [hostInv, hi] using ho
    exact swapSecond_answers hc hb len
  | updpwr b i v =>
    obtain ⟨hb, -, hlt⟩ : b < s.cfg.nbus ∧ i % 2 = 1 ∧ i < (s.bus b).curLen.toNat := by
      simpa only [hostInv, hi] using ho
    exact updpwrIter_answers (hv.power_backed hb hlt) v
  | drain => exact ⟨_, rfl⟩

theorem memwrTurn_answers {a : Word} (h : s.hstate = .idle → backedByte s.cfg a.toNat = true) (v : Byte) :
    ∃ t, memwrTurn a v s = .next t := by
  unfold memwrTurn
  split
  · rename_i hi
    rw [memWriteByte_some.2 ⟨h hi, rfl⟩]
    exact ⟨_, rfl⟩
  · exact ⟨s, rfl⟩

theorem memrdTurn_answers {a : Word} (h : s.hstate = .idle → backedByte s.cfg a.toNat = true) :
    ∃ t, memrdTurn a s = .next t := by
  unfold memrdTurn
  split
  · rename_i hi
    rw [memReadByte_some.2 ⟨h hi, rfl⟩]
    exact ⟨_, rfl⟩
  · exact ⟨s, rfl⟩

/-- Within the contract of the host a block with the fixed program always steps, under both hand-offs: every access to a
record is one R76 allows, every byte of `UPDPWR` lies in a valid buffer. -/
theorem step_answers (hc : cfgWf s.cfg = true) (hr : romsOk s = true) (hp : fixedProgram s) (ho : hostInv s)
    (hv : retainedValid s) (hin : s.hstate = .idle → eventInContract s s.event) : ∃ t, step s = .next t := by
  rw [step_eq_perform hc hr]
  have hc' : cfgWf s.chosen.cfg = true := by simpa using hc
  have hv' : retainedValid s.chosen := hv.congr (by simp) (by simp)
  cases he : s.event with
  | bpp b => exact bppTurn_answers (by simpa using hp.1) b
  | data b => exact ⟨_, rfl⟩
  | rcnt b => exact rcntTurn_answers hc' b
  | raddr b => exact raddrTurn_answers hc' b
  | qes => exact qesTurn_answers (by simpa using hp.2)
  | issue a0 a1 a2 w => exact issueTurn_answers hc' hv' a0 a1 a2 w
  | hostLoop => exact hostLoopTurn_answers hc' hv' (by simpa [hostInv] using ho)
  | memwr a v =>
    rw [he] at hin
    exact memwrTurn_answers (fun hi => by simpa using (hin (by simpa using hi)).1) v
  | memrd a =>
    rw [he] at hin
    exact memrdTurn_answers fun hi => by simpa [eventInContract] using hin (by simpa using hi)
  | env l => exact ⟨_, rfl⟩

/-! ## One bus within the contract -/

/-- A bus whose ring has not faulted and has only backed bytes to read in the pass in progress: what `ContractInv` says
of one bus (R82, R233). -/
structure BusSafe (cfg : Config) (x : Bus) : Prop where
  noBusFault : x.busFault = false
  noZeroCount : x.zeroCountFault = false
  passBacked : x.dataBusy = true → backedRange cfg x.dataReadAddr.toNat x.dataTransCount.toNat = true

theorem ContractInv.busSafe (h : ContractInv s) (hb : b < s.cfg.nbus) : BusSafe s.cfg (s.bus b) :=
  have healthy := h.healthy b hb
  ⟨healthy.1, healthy.2, h.pass b hb⟩

theorem BusSafe.outb (h : BusSafe cfg x) (k : StallCtrl) (c : Ctrl) : BusSafe cfg (outbBus k c x) := by
  rw [outbBus_frame]
  exact { h with }

/-- `PLAY` of a valid buffer starts a pass that is backed; a bus without fault has none after it. -/
theorem BusSafe.play (h : BusSafe cfg x) {addr len : Word} (hv : bufferValid cfg addr len) (rate : Word) :
    BusSafe cfg (playBus addr len rate x) where
  noBusFault := h.noBusFault
  noZeroCount := h.noZeroCount
  passBacked := fun _ => hv.2.1

/-- `REARM` from a record that names a valid buffer starts a pass that is backed, and meets no zero count. -/
theorem BusSafe.rearm (h : BusSafe cfg x) {addr len : Word} (hv : bufferValid cfg addr len) :
    BusSafe cfg (rearmBus len addr x) where
  noBusFault := h.noBusFault
  noZeroCount := (if_neg (badLength_ne_zero hv.1)).trans h.noZeroCount
  passBacked := fun _ => hv.2.1

/-- What a pass has still to read after its next byte is backed: the address does not wrap before the last one. -/
theorem backedRange_advance {a n : Word} (h : backedRange cfg a.toNat n.toNat = true) (hn : n ≠ 0) (hn' : n - 1 ≠ 0) :
    backedRange cfg (a + 1).toNat (n - 1).toNat = true := by
  have hbound := backedRange_bound h
  exact backedRange_sub h (by bv_omega) (by bv_omega)

/-- `DXFER` of a pass that is backed reads its byte, so it sets no fault flag, and leaves a backed rest (R176). -/
theorem BusSafe.dxfer (h : BusSafe cfg x) (hen : dxferEnabled cfg x = true) (m : Memory) :
    BusSafe cfg (dxferBus (memReadByte cfg m x.dataReadAddr.toNat) x) := by
  obtain ⟨hbusy, hcount⟩ : x.dataBusy = true ∧ x.dataTransCount ≠ 0 := by
    simp only [dxferEnabled, Bool.and_eq_true, bne_iff_ne] at hen
    exact hen.1.1
  have hrange := h.passBacked hbusy
  rw [memReadByte_some.2 ⟨backedRange_byte hrange le_rfl (by bv_omega), rfl⟩]
  refine ⟨h.noBusFault, h.noZeroCount, fun hrest => backedRange_advance hrange hcount fun hlast => ?_⟩
  have hdone : (movedByte (m.read x.dataReadAddr.toNat) x).dataBusy = false := if_pos hlast
  simp [dxferBus, hdone] at hrest

/-- A bus with a count re-arm pending is started (R261). -/
theorem BusInv.started_of_rcntPend (h : BusInv cfg x) (hpend : x.rcntPend = true) : x.smEn = true := by
  by_contra hoff
  obtain ⟨-, -, -, -, hnone, -⟩ := h.offIdle (by simpa using hoff)
  simp [hpend] at hnone

/-- A step keeps a bus safe if the buffers it can start to play are valid: that of an accepted `PLAY`, and under
`atomic` that of the record a re-arm reads. -/
theorem BusCase.safe {y : Bus} (hc : BusCase s b y) (h : BusSafe s.cfg (s.bus b)) (hatomic : s.cfg.handoff = .atomic)
    (hin : s.hstate = .idle → eventInContract s s.event)
    (hrecord : (s.bus b).rcntPend = true →
      bufferValid s.cfg (s.mem.readWord (rcbAddr s.cfg b)) (s.mem.readWord (rcbAddr s.cfg b + 4))) :
    BusSafe s.cfg y := by
  cases hc with
  | same => exact h
  | nopc => exact { h with }
  | outb => exact h.outb _ _
  | dxfer _ _ hen => exact h.dxfer hen _
  | rcntx _ _ _ hsplit => simp [hatomic] at hsplit
  | rearm _ _ hen =>
    rw [rcntEnabled, Bool.and_eq_true] at hen
    exact h.rearm (hrecord hen.1)
  | raddrx _ _ hen => simp [raddrEnabled, hatomic] at hen
  | play k p hp hk hb hl => exact h.play (hp.valid (.inl rfl) hin (hk ▸ hb) hl) _
  | swap => exact { h with }

/-! ## The buffers named by the records and retained by the buses -/

/-- A retained buffer is that of before, or the operands of an accepted `PLAY` or `SWAP` (R36, R206). -/
theorem BusCase.retained_cases {y : Bus} (hc : BusCase s b y) :
    (y.curAddr = (s.bus b).curAddr ∧ y.curLen = (s.bus b).curLen)
      ∨ ∃ i k p, Issues s i p ∧ (i = .play k ∨ i = .swap k) ∧ k.toNat = b ∧ badLength p.arg1 = false
        ∧ y.curAddr = p.arg0 ∧ y.curLen = p.arg1 := by
  cases hc with
  | play k p hp hk hb hl => exact .inr ⟨_, k, p, hp, .inl rfl, hk, hl, rfl, rfl⟩
  | swap k p hp hk hb hl => exact .inr ⟨_, k, p, hp, .inr rfl, hk, hl, rfl, rfl⟩
  | outb => rw [outbBus_frame]; exact .inl ⟨rfl, rfl⟩
  | dxfer => exact .inl (by cases memReadByte s.cfg s.mem (s.bus b).dataReadAddr.toNat <;> exact ⟨rfl, rfl⟩)
  | _ => exact .inl ⟨rfl, rfl⟩

/-- Every step within the contract keeps the retained buffers valid, under both hand-offs (R82). -/
theorem retainedValid_of_step (hv : retainedValid s) (hin : s.hstate = .idle → eventInContract s s.event)
    (h : step s = .next t) : retainedValid t := by
  obtain ⟨hcfg, -⟩ := Proofs.MachineState.stepKeepsParameters s t h
  intro b hb hlen
  rw [hcfg] at hb ⊢
  obtain ⟨haddr, hl⟩ | ⟨i, k, p, hp, hi, rfl, hgood, haddr, hl⟩ := (bus_cases h b).retained_cases
  · rw [hl] at hlen
    rw [haddr, hl]
    exact hv b hb hlen
  · rw [haddr, hl]
    exact hp.valid hi hin hb hgood

/-- A started bus was started before, or by an accepted `PLAY` (R25). -/
theorem BusCase.smEn_cases {y : Bus} (hc : BusCase s b y) (hon : y.smEn = true) :
    (s.bus b).smEn = true ∨ ∃ k p, Issues s (.play k) p ∧ k.toNat = b ∧ badLength p.arg1 = false := by
  cases hc with
  | play k p hp hk hb hl => exact .inr ⟨k, p, hp, hk, hl⟩
  | outb | dxfer => exact .inl (by simpa using hon)
  | _ => exact .inl hon

/-- The two words of a record just written, read back (R77). -/
theorem readWord_writeRecord {m : Memory} (hwf : m.wf = true) (hc : cfgWf cfg = true) (hb : b < cfg.nbus)
    (addr len : Word) :
    ((m.writeWord (rcbAddr cfg b) addr).writeWord (rcbAddr cfg b + 4) len).readWord (rcbAddr cfg b) = addr
      ∧ ((m.writeWord (rcbAddr cfg b) addr).writeWord (rcbAddr cfg b + 4) len).readWord (rcbAddr cfg b + 4) = len := by
  have hroom := backedRange_bound (rcb_backed hc hb).2
  rw [Memory.readWord_writeWord_other _ _ (by omega), Memory.readWord_writeWord_same _ hwf (by omega),
    Memory.readWord_writeWord_same _ (Memory.writeWord_wf _ hwf (by omega)) (by omega)]
  exact ⟨rfl, rfl⟩

/-- An accepted `PLAY` leaves its operands in the record of its bus (R202). -/
theorem record_of_play {k : BitVec 4} (hm : MachineInv s) (hp : Issues s (.play k) p) (hb : k.toNat < s.cfg.nbus)
    (hl : badLength p.arg1 = false) (h : step s = .next t) :
    t.mem.readWord (rcbAddr s.cfg k.toNat) = p.arg0 ∧ t.mem.readWord (rcbAddr s.cfg k.toNat + 4) = p.arg1 := by
  obtain ⟨hc, hr, -⟩ := step_cases h
  obtain ⟨hcfg, hmem, -⟩ := hp.reads
  rw [step_of_issues hc hr hp] at h
  rw [hcfg] at hb hc ⊢
  simp only [exec, execPlay, State.hasBus, State.bufLen, State.bufAddr, hb, hl, writeRcb_answers hc hb, decide_true,
    Bool.not_true, Bool.false_eq_true, if_false] at h
  cases h
  exact readWord_writeRecord (hp.inv hm).memWf hc hb _ _

/-- A record that named a valid buffer names one after a step within the contract, under `atomic`. -/
theorem RecordCase.valid {addr len : Word} (hc : RecordCase s b addr len) (hatomic : s.cfg.handoff = .atomic)
    (ho : hostInv s) (hin : s.hstate = .idle → eventInContract s s.event) (hb : b < s.cfg.nbus)
    (hold : bufferValid s.cfg (s.mem.readWord (rcbAddr s.cfg b)) (s.mem.readWord (rcbAddr s.cfg b + 4))) :
    bufferValid s.cfg addr len := by
  cases hc with
  | same => exact hold
  | both i k p hp hi hk hl => exact hp.valid (hi.imp id And.left) hin (hk ▸ hb) hl
  | address _ _ _ _ _ hsplit => simp [hatomic] at hsplit
  | count len hi => simp [hostInv, hi, hatomic] at ho

/-- Every step within the contract keeps the contract's invariant, under `atomic`. -/
theorem ContractInv.of_step (h : ContractInv s) (hm : MachineInv s)
    (hin : s.hstate = .idle → eventInContract s s.event) (hstep : step s = .next t) : ContractInv t := by
  obtain ⟨hcfg, -⟩ := Proofs.MachineState.stepKeepsParameters s t hstep
  have safe : ∀ b, b < s.cfg.nbus → BusSafe s.cfg (t.bus b) := fun b hb =>
    (bus_cases hstep b).safe (h.busSafe hb) h.atomic hin fun hpend =>
      h.record b hb ((hm.busOk b hb).started_of_rcntPend hpend)
  constructor
  · rw [hcfg]
    exact h.atomic
  · intro b hb
    rw [hcfg] at hb
    exact ⟨(safe b hb).noBusFault, (safe b hb).noZeroCount⟩
  · intro b hb
    rw [hcfg] at hb ⊢
    exact (safe b hb).passBacked
  · intro b hb hon
    rw [hcfg] at hb ⊢
    obtain hold | ⟨k, p, hp, rfl, hl⟩ := (bus_cases hstep b).smEn_cases hon
    · exact (record_cases hm h.retained hin hstep hb).valid h.atomic hm.hostOk hin hb (h.record b hb hold)
    · obtain ⟨haddr, hlen⟩ := record_of_play hm hp hb hl hstep
      rw [haddr, hlen]
      exact hp.valid (.inl rfl) hin hb hl
  · exact retainedValid_of_step h.retained hin hstep

end Sys2Proof.Machine
end

section
/-! PROOFS of the statements on memory (spec 20_memory.md): the contract of the host, and the host's own byte
accesses. -/

namespace Sys2Proof.Proofs.MemoryAccess

open Sys2Proof Sys2Proof.Machine Sys2Proof.Claims

/-- Settles O18: the step answers, as every access is backed, and each part of the invariant passes over what a step can
make of one bus and of one record. -/
theorem contractRunsNeverFault : Obligations.ContractRunsNeverFault := by
  unfold Obligations.ContractRunsNeverFault
  rintro s ⟨hc, hr⟩ hp hm h hin
  obtain ⟨t, ht⟩ := step_answers hc hr hp hm.hostOk h.retained hin
  exact ⟨t, ht, h.of_step hm hin ht⟩

/-- Settles O39: the byte access of each of the four steps has no answer outside `Backed`. -/
theorem unbackedHostAccessStops : Obligations.UnbackedHostAccessStops := by
  unfold Obligations.UnbackedHostAccessStops
  refine ⟨fun b s hb hlen h => ?_, fun s b i v rest hready hi hs h => ?_, fun s a v rest hready hi hs h => ?_⟩
  · simp only [exec, execUpdpwr, State.hasBus, hb, hlen, decide_true, Bool.not_true, Bool.false_eq_true, if_false]
    exact updpwrIter_unbacked h _
  · rw [step_script hready.1 hready.2 hs]
    exact hostLoopTurn_unbacked (s := { s with script := rest }) hi h
  · obtain hs | hs := hs
    · rw [step_script hready.1 hready.2 hs]
      simp [perform, memwrTurn, hi, memWriteByte, h]
    · rw [step_script hready.1 hready.2 hs]
      simp [perform, memrdTurn, hi, memReadByte, h]

/-- Settles O43, by the laws of a byte write. -/
theorem hostByteAccess : Obligations.HostByteAccess := by
  unfold Obligations.HostByteAccess
  rintro s a v rest ⟨hc, hr⟩ hwf hi hw
  refine ⟨fun hs => ⟨{ s with script := rest, mem := s.mem.write a.toNat v }, ?_, rfl, ?_, ?_⟩, fun hs => ?_⟩
  · rw [step_script hc hr hs]
    simp [perform, memwrTurn, hi, memWriteByte, hw]
  · exact Memory.read_write_same v hwf
  · exact fun c hne => Memory.read_write_other s.mem v hne
  · rw [step_script hc hr hs]
    simp [perform, memrdTurn, hi, memReadByte, hw]

end Sys2Proof.Proofs.MemoryAccess
end

section
/-! SUPPORT. Laws of the decoder and the encoder the statements on the encoding use: words put together from their
fields (R101, R108), and what the decoder can answer (R102, R107, R109, R113). -/

namespace Sys2Proof

/-! ## Words by their fields -/

/-- The microword with the fields `UOP` and `CTRL` and both reserved bits clear (R101). -/
def microWord (uop : BitVec 3) (ctrl : Ctrl) : BitVec 8 := 0#1 ++ uop ++ 0#1 ++ ctrl

@[simp] theorem microUop_microWord (uop : BitVec 3) (ctrl : Ctrl) : microUop (microWord uop ctrl) = uop := by
  revert uop ctrl
  decide

@[simp] theorem microCtrl_microWord (uop : BitVec 3) (ctrl : Ctrl) : microCtrl (microWord uop ctrl) = ctrl := by
  revert uop ctrl
  decide

@[simp] theorem microWord_bit7 (uop : BitVec 3) (ctrl : Ctrl) : (microWord uop ctrl)[7] = false := by
  revert uop ctrl
  decide

@[simp] theorem microWord_bit3 (uop : BitVec 3) (ctrl : Ctrl) : (microWord uop ctrl)[3] = false := by
  revert uop ctrl
  decide

/-- A microword without a reserved bit is put together from its fields. -/
theorem microWord_fields {w : BitVec 8} (h7 : w.getLsbD 7 = false) (h3 : w.getLsbD 3 = false) :
    microWord (microUop w) (microCtrl w) = w := by
  revert w
  decide

/-- The command word with the fields `OP`, `BUS`, bits 23:12 and `REG` (R108). -/
def cmdWord (op bus : BitVec 4) (pad reg : BitVec 12) : Word := op ++ bus ++ pad ++ reg

section

variable (op bus : BitVec 4) (pad reg : BitVec 12)

@[simp] theorem cmdOp_cmdWord : cmdOp (cmdWord op bus pad reg) = op := by
  unfold cmdOp cmdWord
  simp only [↓BitVec.extractLsb'_append_eq_of_le, Nat.reduceLeDiff, Nat.reduceSub, BitVec.extractLsb'_eq_self]

@[simp] theorem cmdBus_cmdWord : cmdBus (cmdWord op bus pad reg) = bus := by
  unfold cmdBus cmdWord
  simp only [↓BitVec.extractLsb'_append_eq_of_le, ↓BitVec.extractLsb'_append_eq_right, Nat.reduceLeDiff, Nat.reduceSub]

@[simp] theorem cmdPad_cmdWord : cmdPad (cmdWord op bus pad reg) = pad := by
  unfold cmdPad cmdWord
  simp only [↓BitVec.extractLsb'_append_eq_of_le, ↓BitVec.extractLsb'_append_eq_right, Nat.reduceLeDiff, Nat.reduceSub]

@[simp] theorem cmdReg_cmdWord : cmdReg (cmdWord op bus pad reg) = reg := BitVec.extractLsb'_append_eq_right

end

/-- A command word is put together from its fields. -/
theorem cmdWord_fields (w : Word) : cmdWord (cmdOp w) (cmdBus w) (cmdPad w) (cmdReg w) = w := by
  unfold cmdWord cmdOp cmdBus cmdPad cmdReg
  rw [BitVec.extractLsb'_append_extractLsb'_eq_extractLsb' (by rfl),
    BitVec.extractLsb'_append_extractLsb'_eq_extractLsb' (by rfl),
    BitVec.extractLsb'_append_extractLsb'_eq_extractLsb' (by rfl)]
  exact BitVec.extractLsb'_eq_self

/-! ## The encoder, by fields -/

section

variable (c : Ctrl) (b : BitVec 4) (r : BitVec 12)

theorem encode_nopc : encode (.nopc c) = .micro (microWord 0b000 c) := by
  revert c
  decide

theorem encode_outb : encode (.outb c) = .micro (microWord 0b001 c) := by
  revert c
  decide

theorem encode_snp : encode .snp = .micro (microWord 0b010 0b000) := by decide

/-- The low half of a command without a register number is zero. -/
theorem append_zero_eq_cmdWord (op : BitVec 4) : op ++ b ++ 0#24 = cmdWord op b 0 0 := by
  revert op b
  decide

theorem encode_play : encode (.play b) = .cmd (cmdWord 0x1 b 0 0) := congrArg _ (append_zero_eq_cmdWord b _)

theorem encode_swap : encode (.swap b) = .cmd (cmdWord 0x2 b 0 0) := congrArg _ (append_zero_eq_cmdWord b _)

theorem encode_updpwr : encode (.updpwr b) = .cmd (cmdWord 0x3 b 0 0) := congrArg _ (append_zero_eq_cmdWord b _)

theorem encode_drain : encode .drain = .cmd (cmdWord 0x4 0 0 0) := by decide

theorem encode_rdreg : encode (.rdreg b r) = .cmd (cmdWord 0x5 b 0 r) := rfl

end

/-! ## What the decoder can answer -/

variable {w : BitVec 8} {v : Word} {i : Instr}

/-- A microword that decodes has no reserved bit, and its `UOP` names the instruction (R102). -/
theorem decodeMicro_cases (h : decodeMicro w = .ok i) :
    w.getLsbD 7 = false ∧ w.getLsbD 3 = false
      ∧ ((microUop w = 0b000 ∧ i = .nopc (microCtrl w)) ∨ (microUop w = 0b001 ∧ i = .outb (microCtrl w))
        ∨ (microUop w = 0b010 ∧ microCtrl w = 0b000 ∧ i = .snp)) := by
  unfold decodeMicro at h
  split at h
  · cases h
  · rename_i hbits
    obtain ⟨h7, h3⟩ : w.getLsbD 7 = false ∧ w.getLsbD 3 = false := by simpa using hbits
    refine ⟨h7, h3, ?_⟩
    split at h
    · cases h; exact .inl ⟨‹_›, rfl⟩
    · split at h
      · cases h; exact .inr (.inl ⟨‹_›, rfl⟩)
      · split at h
        · split at h <;> cases h
          exact .inr (.inr ⟨‹_›, ‹_›, rfl⟩)
        · cases h

/-- A command word that decodes has bits 23:12 zero, and its `OP` names the instruction; only `RDREG` has a register
number (R109). -/
theorem decodeCmd_cases (h : decodeCmd v = .ok i) :
    cmdPad v = 0
      ∧ ((cmdOp v = 0x5 ∧ i = .rdreg (cmdBus v) (cmdReg v))
        ∨ (cmdReg v = 0 ∧ ((cmdOp v = 0x1 ∧ i = .play (cmdBus v)) ∨ (cmdOp v = 0x2 ∧ i = .swap (cmdBus v))
          ∨ (cmdOp v = 0x3 ∧ i = .updpwr (cmdBus v)) ∨ (cmdOp v = 0x4 ∧ cmdBus v = 0 ∧ i = .drain)))) := by
  unfold decodeCmd at h
  split at h
  · cases h
  · rename_i hpad
    refine ⟨not_not.1 hpad, ?_⟩
    split at h
    · cases h; exact .inl ⟨‹_›, rfl⟩
    · split at h
      · rename_i hop
        split at h
        · cases h
        · rename_i hreg
          refine .inr ⟨not_not.1 hreg, ?_⟩
          split at h
          · cases h; exact .inl ⟨‹_›, rfl⟩
          · split at h
            · cases h; exact .inr (.inl ⟨‹_›, rfl⟩)
            · split at h
              · cases h; exact .inr (.inr (.inl ⟨‹_›, rfl⟩))
              · split at h <;> cases h
                exact .inr (.inr (.inr ⟨by tauto, ‹_›, rfl⟩))
      · cases h

end Sys2Proof
end

section
/-! SUPPORT. Laws of rejected commands (R111 to R113, R201, R205), of a turn of a state machine (R106, R131), of the
control lines (R103) and of the cycle of the fixed program (R104, R135). -/

namespace Sys2Proof.Machine

section

variable {s : State} {w : Word} {i : Instr} {nbus : Nat} {b : BitVec 4} {r : BitVec 12}

/-! ## Rejected commands -/

/-- The register map has no other numbers than those of R48. -/
theorem regOf_of_undefined (hbus : r ∉ Claims.busRegNumbers) (hglobal : r ∉ Claims.globalRegNumbers) :
    regOf r = none := by
  simp only [Claims.busRegNumbers, Claims.globalRegNumbers, List.mem_cons, List.not_mem_nil, or_false, not_or]
    at hbus hglobal
  simp only [regOf, hbus, hglobal, if_false]

/-- The global numbers of R48 name the global registers. -/
theorem regOf_of_mem_globalRegNumbers (h : r ∈ Claims.globalRegNumbers) :
    ∃ g, regOf r = some g ∧ g.isGlobal = true := by
  simp only [Claims.globalRegNumbers, List.mem_cons, List.not_mem_nil, or_false] at h
  obtain rfl | rfl | rfl := h <;> exact ⟨_, rfl, rfl⟩

/-- No register is named through a missing bus (R111). -/
theorem regNamed_eq_false_of_missingBus (h : nbus ≤ b.toNat) : regNamed nbus b r = false := by
  unfold regNamed
  split <;> simp [busExists, h]

/-- The three ways of R112 and R205 in which the fields of `RDREG` are bad. -/
theorem regNamed_eq_false_of_badFields (h : Claims.badFields nbus 5 b r) : regNamed nbus b r = false := by
  obtain ⟨-, hbus⟩ | ⟨-, hbus, hglobal⟩ | ⟨-, hglobal, hne⟩ := h
  · exact regNamed_eq_false_of_missingBus hbus
  · simp [regNamed, regOf_of_undefined hbus hglobal]
  · obtain ⟨g, hg, hscope⟩ := regOf_of_mem_globalRegNumbers hglobal
    simpa [regNamed, hg, hscope] using fun _ => hne

/-- An illegal command word that decodes is an instruction whose bus or register is bad (R111 to R113). -/
theorem not_wf_of_illegalCommand (h : Claims.illegalCommand nbus w) (hd : decode (.cmd w) = .ok i) :
    i.wf nbus = false := by
  have fields : (cmdOp w = 0 ∨ 6 ≤ (cmdOp w).toNat) ∨ cmdPad w ≠ 0 ∨ (cmdReg w ≠ 0 ∧ cmdOp w ≠ 5)
      ∨ (cmdBus w ≠ 0 ∧ cmdOp w = 4) ∨ Claims.badFields nbus (cmdOp w) (cmdBus w) (cmdReg w) := h
  obtain ⟨hpad, hi⟩ := decodeCmd_cases hd
  have missing (hreg : cmdReg w = 0) (hop : cmdOp w = 1 ∨ cmdOp w = 2 ∨ cmdOp w = 3) :
      busExists nbus (cmdBus w) = false := by
    obtain hop | hop | hop := hop <;> simpa [hpad, hop, hreg, Claims.badFields, busExists] using fields
  obtain ⟨hop, rfl⟩ | ⟨hreg, ⟨hop, rfl⟩ | ⟨hop, rfl⟩ | ⟨hop, rfl⟩ | ⟨hop, hbus, rfl⟩⟩ := hi
  · have bad : Claims.badFields nbus 5 (cmdBus w) (cmdReg w) := by simpa [hpad, hop] using fields
    exact regNamed_eq_false_of_badFields bad
  · exact missing hreg (.inl hop)
  · exact missing hreg (.inr (.inl hop))
  · exact missing hreg (.inr (.inr hop))
  · simp [hpad, hop, hreg, hbus, Claims.badFields] at fields

theorem hasBus_eq_busExists (s : State) (b : BitVec 4) : s.hasBus b.toNat = busExists s.cfg.nbus b := rfl

/-- `RDREG` reads nothing through bad fields (R205). -/
theorem readReg_of_not_named (h : regNamed s.cfg.nbus b r = false) : readReg s b.toNat r = none := by
  have hzero : (b.toNat == 0) = (b == 0) := by rw [Bool.eq_iff_iff]; simp [BitVec.toNat_eq]
  unfold regNamed at h
  rw [readReg, hasBus_eq_busExists, hzero]
  cases hr : regOf r with
  | none => rfl
  | some g => simpa [hr] using h

/-- An instruction whose bus or register is bad is rejected before anything else is looked at (R201, R205, R238). -/
theorem exec_of_not_wf (h : i.wf s.cfg.nbus = false) : exec i s = .next (s.finish .invalidCommand) := by
  cases i with
  | nopc | outb | snp | drain => simp [Instr.wf] at h
  | play b => simp [exec, execPlay, hasBus_eq_busExists, show busExists s.cfg.nbus b = false from h]
  | swap b => simp [exec, execSwap, hasBus_eq_busExists, show busExists s.cfg.nbus b = false from h]
  | updpwr b => simp [exec, execUpdpwr, hasBus_eq_busExists, show busExists s.cfg.nbus b = false from h]
  | rdreg b r => simp [exec, execRdreg, readReg_of_not_named h]

/-- At an idle port a rejection writes `STATUS` and nothing else (R236). -/
theorem finish_invalidCommand_of_idle (h : s.hstate = .idle) : s.finish .invalidCommand = { s with status := 2 } := by
  simp [State.finish, Status.code, ← h]

/-- An illegal command word in `CMD`, by its bits or by the fields it decodes to, is rejected with `STATUS` 2 (R113,
R232). -/
theorem runCommand_of_illegal (hill : Claims.illegalCommand s.cfg.nbus s.cmd) (hi : s.hstate = .idle) :
    (runCommand s).outcome = .next { s with status := 2 } := by
  rw [← finish_invalidCommand_of_idle hi, runCommand]
  cases hd : decode (.cmd s.cmd) with
  | error e => rfl
  | ok i => exact exec_of_not_wf (not_wf_of_illegalCommand hill hd)

end

section

variable {s : State} {b n : Nat} {i : Instr} {k : StallCtrl} {x : Bus} {c : Ctrl} {rest : List Event}

/-! ## A turn of a state machine -/

theorem bppEnabled_iff : bppEnabled x = true ↔ x.smEn = true ∧ x.smFreq ≠ 0 := by
  simp [bppEnabled]

/-- A turn of a bus whose state machine runs is the decoded microword at its phase (R106, R131). -/
theorem bppTurn_of_decode (hb : b < s.cfg.nbus) (hen : bppEnabled (s.bus b) = true)
    (hd : decode (.micro (s.bppRom.fetch (s.bus b).phase)) = .ok i) (hi : i.executor = .bpp) :
    bppTurn b s = .run i { s with curBus := b } := by
  rw [bppTurn, if_pos (by simp [State.hasBus, hb, hen]), runMicroword_of_decode hd hi]

/-- The step of a turn of a running state machine is the microword it fetches. -/
theorem step_bpp_of_decode (hc : cfgWf s.cfg = true) (hr : romsOk s = true) (hs : s.script = .bpp b :: rest)
    (hb : b < s.cfg.nbus) (hen : bppEnabled (s.bus b) = true)
    (hd : decode (.micro (s.bppRom.fetch (s.bus b).phase)) = .ok i) (hi : i.executor = .bpp) :
    step s = exec i { s with script := rest, curBus := b } := by
  rw [step_script hc hr hs]
  exact congrArg Action.outcome (bppTurn_of_decode (s := { s with script := rest }) hb hen hd hi)

/-! ## The fixed program -/

/-- The fixed program has `NOPC` at phases 1 and 3, with the idle code (R104). -/
theorem nopc_of_bppRomImage {ph : BitVec 2} (h : decode (.micro (bppRomImage.fetch ph)) = .ok (.nopc c)) :
    (ph = 1 ∨ ph = 3) ∧ c = 0b111 := by
  revert ph c
  decide

/-- The fixed program has `OUTB` at phases 0 and 2, with the codes of the signal and of the power write (R104). -/
theorem outb_of_bppRomImage {ph : BitVec 2} (h : decode (.micro (bppRomImage.fetch ph)) = .ok (.outb c)) :
    (ph = 0 ∧ c = 0b100) ∨ (ph = 2 ∧ c = 0b010) := by
  revert ph c
  decide

/-! ## The control lines -/

/-- The agreement looks at the phase and the control lines only. -/
theorem pinsInv.congr {y : Bus} (h : pinsInv k x) (hph : y.phase = x.phase) (hctrl : y.ctrl = x.ctrl) :
    pinsInv k y := by
  unfold pinsInv
  rw [hph, hctrl]
  exact h

/-- Lines that agree with the phase carry one of the three codes of the fixed program (R103). -/
theorem pinsInv.codes (h : pinsInv k x) : x.ctrl = 0b111 ∨ x.ctrl = 0b100 ∨ x.ctrl = 0b010 := by
  obtain ⟨h0, h1, h2, h3⟩ := h
  have phases : ∀ ph : BitVec 2, ph = 0 ∨ ph = 1 ∨ ph = 2 ∨ ph = 3 := by decide
  obtain hph | hph | hph | hph := phases x.phase
  · exact (h0 hph).imp_right fun hdrive => .inl hdrive.2
  · exact .inr (.inl (h1 hph))
  · exact (h2 hph).imp_right fun hdrive => .inr hdrive.2
  · exact .inr (.inr (h3 hph))

/-- `NOPC` of the fixed program leaves the idle code before a write (R133). -/
theorem pinsInv_nopc (hph : x.phase = 1 ∨ x.phase = 3) (d : Byte) : pinsInv k (x.drive d 0b111).advance := by
  obtain hph | hph := hph <;> simp [pinsInv, hph]

/-- `OUTB` of the fixed program drives the code of its phase; when it waits, only under `drive` (R132, R134). -/
theorem pinsInv.outb (h : pinsInv k x) (hph : (x.phase = 0 ∧ c = 0b100) ∨ (x.phase = 2 ∧ c = 0b010)) :
    pinsInv k (outbBus k c x) := by
  unfold outbBus
  split
  · obtain ⟨hph, rfl⟩ | ⟨hph, rfl⟩ := hph <;> simp [pinsInv, hph]
  · cases k with
    | hold => exact h
    | drive => obtain ⟨hph, rfl⟩ | ⟨hph, rfl⟩ := hph <;> simp [pinsInv, stalled, hph]

/-- `PLAY` leaves the lines idle at phase 0 (R202). -/
theorem pinsInv_play (addr len rate : Word) : pinsInv k (playBus addr len rate x) := by
  simp [pinsInv, playBus]

theorem pinsInv.dxfer (h : pinsInv k x) (v : Option Byte) : pinsInv k (dxferBus v x) := by
  cases v <;> exact h.congr rfl rfl

/-- With the fixed program a step keeps the lines of a bus in agreement with its phase. -/
theorem BusCase.pinsInv {y : Bus} (hc : BusCase s b y) (hrom : s.bppRom = bppRomImage)
    (h : pinsInv s.cfg.stallCtrl (s.bus b)) : pinsInv s.cfg.stallCtrl y := by
  cases hc with
  | nopc c he hb hen hd =>
    rw [hrom] at hd
    obtain ⟨hph, rfl⟩ := nopc_of_bppRomImage hd
    exact pinsInv_nopc hph _
  | outb c he hb hen hd =>
    rw [hrom] at hd
    exact h.outb (outb_of_bppRomImage hd)
  | dxfer => exact h.dxfer _
  | play => exact pinsInv_play _ _ _
  | same | rcntx | rearm | raddrx | swap => exact h.congr rfl rfl

/-! ## Turns of a bus with the fixed program -/

/-- What one turn of the fixed program makes of a running bus (R104, R132 to R134). -/
def programCycle (k : StallCtrl) (x : Bus) : Bus :=
  match decode (.micro (bppRomImage.fetch x.phase)) with
  | .ok (.nopc c) => (x.drive x.dout c).advance
  | .ok (.outb c) => outbBus k c x
  | _ => x

@[simp] theorem outbBus_smFreq (k : StallCtrl) (c : Ctrl) (x : Bus) : (outbBus k c x).smFreq = x.smFreq := by
  rw [outbBus_frame]

/-- A turn leaves the clock and the enable bit alone, so the state machine has its next turn (R131). -/
@[simp] theorem bppEnabled_programCycle (k : StallCtrl) (x : Bus) :
    bppEnabled (programCycle k x) = bppEnabled x := by
  unfold programCycle
  split
  · rfl
  · simp [bppEnabled]
  · rfl

/-- Bus `b` exists, its state machine runs, and it runs the fixed program. -/
structure RunsProgram (s : State) (b : Nat) : Prop where
  wf : cfgWf s.cfg = true
  program : fixedProgram s
  inRange : b < s.cfg.nbus
  busCount : s.buses.length = s.cfg.nbus
  enabled : bppEnabled (s.bus b) = true

/-- The state after one turn of bus `b`. -/
def afterTurn (s : State) (b : Nat) (rest : List Event) : State :=
  { s with script := rest, curBus := b }.setBus b (programCycle s.cfg.stallCtrl (s.bus b))

/-- A running bus takes the cycle of its phase in one step. -/
theorem RunsProgram.step_eq (h : RunsProgram s b) (hs : s.script = .bpp b :: rest) :
    step s = .next (afterTurn s b rest) := by
  have hr := Proofs.MachineState.romsOk_of_fixedProgram h.program
  obtain ⟨hrom, -⟩ := h.program
  unfold afterTurn programCycle
  obtain ⟨c, hd⟩ | ⟨c, hd⟩ := decode_bppRomImage (s.bus b).phase
  · rw [step_bpp_of_decode h.wf hr hs h.inRange h.enabled (hrom ▸ hd) rfl, hd]
    rfl
  · rw [step_bpp_of_decode h.wf hr hs h.inRange h.enabled (hrom ▸ hd) rfl, hd]
    rfl

theorem RunsProgram.bus_afterTurn (h : RunsProgram s b) :
    (afterTurn s b rest).bus b = programCycle s.cfg.stallCtrl (s.bus b) :=
  bus_setBus_same _ _ _ (h.busCount.symm ▸ h.inRange)

theorem RunsProgram.afterTurn (h : RunsProgram s b) : RunsProgram (afterTurn s b rest) b where
  wf := h.wf
  program := h.program
  inRange := h.inRange
  busCount := (setBus_length _ _ _).trans h.busCount
  enabled := by rw [h.bus_afterTurn, bppEnabled_programCycle]; exact h.enabled

/-- A run goes on from the answer of its first step. -/
theorem run_succ_of_step {t : State} (h : step s = .next t) :
    Host.Core.run Sys2Proof.core (n + 1) s = Host.Core.run Sys2Proof.core n t := by
  have hcore : Sys2Proof.core.step s = .next t := h
  simp only [Host.Core.run, hcore]

/-- `n` turns of a running bus repeat the cycle of the fixed program `n` times. -/
theorem RunsProgram.run (h : RunsProgram s b) (hs : s.script = List.replicate n (.bpp b)) :
    ∃ t, Host.Core.run Sys2Proof.core n s = .next t ∧ t.bus b = (programCycle s.cfg.stallCtrl)^[n] (s.bus b) := by
  induction n generalizing s with
  | zero => exact ⟨s, rfl, rfl⟩
  | succ n ih =>
    obtain ⟨t, hrun, hbus⟩ := ih (s := Machine.afterTurn s b (List.replicate n (.bpp b))) h.afterTurn rfl
    refine ⟨t, (run_succ_of_step (h.step_eq hs)).trans hrun, ?_⟩
    rw [hbus, h.bus_afterTurn]
    rfl

/-- `n` turns of bus `b` as a run of events. -/
theorem RunsProgram.runs (h : RunsProgram s b) (n : Nat) :
    ∃ t, Claims.runs s (List.replicate n (.bpp b)) t ∧ t.bus b = (programCycle s.cfg.stallCtrl)^[n] (s.bus b) := by
  have h' : RunsProgram { s with script := List.replicate n (.bpp b) } b :=
    ⟨h.wf, h.program, h.inRange, h.busCount, h.enabled⟩
  unfold Claims.runs
  rw [List.length_replicate]
  exact h'.run rfl

/-! ## The four cycles (R135) -/

variable {v : Byte} {q : List Byte}

theorem programCycle_zero (hph : x.phase = 0) (hq : x.txq = v :: q) :
    programCycle k x = { x.drive v 0b100 with txq := q }.advance := by
  have hd : decode (.micro (bppRomImage.fetch 0)) = .ok (.outb 0b100) := by decide
  simp only [programCycle, hph, hd, outbBus, hq]

theorem programCycle_one (hph : x.phase = 1) : programCycle k x = (x.drive x.dout 0b111).advance := by
  have hd : decode (.micro (bppRomImage.fetch 1)) = .ok (.nopc 0b111) := by decide
  simp only [programCycle, hph, hd]

theorem programCycle_two (hph : x.phase = 2) (hq : x.txq = v :: q) :
    programCycle k x = { x.drive v 0b010 with txq := q }.advance := by
  have hd : decode (.micro (bppRomImage.fetch 2)) = .ok (.outb 0b010) := by decide
  simp only [programCycle, hph, hd, outbBus, hq]

theorem programCycle_three (hph : x.phase = 3) : programCycle k x = (x.drive x.dout 0b111).advance := by
  have hd : decode (.micro (bppRomImage.fetch 3)) = .ok (.nopc 0b111) := by decide
  simp only [programCycle, hph, hd]

/-- The first half of a pair: the signal byte on the lines, then latched by the idle code. -/
theorem programCycle_signal (hph : x.phase = 0) (hq : x.txq = v :: q) :
    programCycle k (programCycle k x) = { x with
      phase := 2, txq := q, dout := v, ctrl := 0b111, dacSig := some v
      dacPwr := if latches .pwr x.ctrl 0b100 then some x.dout else x.dacPwr } := by
  rw [programCycle_zero hph hq, programCycle_one (by simp [hph])]
  simp [Bus.drive, Bus.advance, hph, latches, Dac.select]

/-- The second half of a pair: the power byte on the lines, then latched by the idle code. -/
theorem programCycle_power (hph : x.phase = 2) (hq : x.txq = v :: q) :
    programCycle k (programCycle k x) = { x with
      phase := 0, txq := q, dout := v, ctrl := 0b111, dacPwr := some v
      dacSig := if latches .sig x.ctrl 0b010 then some x.dout else x.dacSig } := by
  rw [programCycle_two hph hq, programCycle_three (by simp [hph])]
  simp [Bus.drive, Bus.advance, hph, latches, Dac.select]

end

end Sys2Proof.Machine
end

section
/-! PROOFS of the statements on the encoding (spec 30_encoding.md): the decoder and the encoder, the rejected words, and
the fixed program. -/

namespace Sys2Proof.Proofs.Encoding

open Sys2Proof Sys2Proof.Machine Sys2Proof.Claims

/-! ## Encoding and decoding -/

/-- Settles O2: each instruction's word is put together from its fields, and the decoder reads them back. -/
theorem decodeInvertsEncode : Obligations.DecodeInvertsEncode := by
  unfold Obligations.DecodeInvertsEncode
  intro i
  cases i with
  | nopc | outb | snp => simp [encode_nopc, encode_outb, encode_snp, decode, decodeMicro]
  | play | swap | updpwr | drain | rdreg =>
    simp [encode_play, encode_swap, encode_updpwr, encode_drain, encode_rdreg, decode, decodeCmd]

theorem encode_of_decodeMicro {w : BitVec 8} {i : Instr} (h : decodeMicro w = .ok i) : encode i = .micro w := by
  obtain ⟨h7, h3, hi⟩ := decodeMicro_cases h
  rw [← microWord_fields h7 h3]
  obtain ⟨huop, rfl⟩ | ⟨huop, rfl⟩ | ⟨huop, hctrl, rfl⟩ := hi
  · rw [huop, encode_nopc]
  · rw [huop, encode_outb]
  · rw [huop, hctrl, encode_snp]

theorem encode_of_decodeCmd {w : Word} {i : Instr} (h : decodeCmd w = .ok i) : encode i = .cmd w := by
  obtain ⟨hpad, hi⟩ := decodeCmd_cases h
  rw [← cmdWord_fields w, hpad]
  obtain ⟨hop, rfl⟩ | ⟨hreg, ⟨hop, rfl⟩ | ⟨hop, rfl⟩ | ⟨hop, rfl⟩ | ⟨hop, hbus, rfl⟩⟩ := hi
  · rw [hop, encode_rdreg]
  · rw [hop, hreg, encode_play]
  · rw [hop, hreg, encode_swap]
  · rw [hop, hreg, encode_updpwr]
  · rw [hop, hreg, hbus, encode_drain]

/-- Settles O3: a word that decodes is determined by its fields, and those are the fields of the instruction's word. -/
theorem encodeInvertsDecode : Obligations.EncodeInvertsDecode := by
  unfold Obligations.EncodeInvertsDecode
  intro w i h
  cases w with
  | micro w => exact encode_of_decodeMicro h
  | cmd w => exact encode_of_decodeCmd h

/-- Settles O1: nine closed words, decoded. -/
theorem writtenOutWordsDecode : Obligations.WrittenOutWordsDecode := by
  unfold Obligations.WrittenOutWordsDecode
  decide

/-! ## Reserved microwords -/

/-- The tests of the decoder are those of R107, in their order. -/
theorem microwordOk_eq_false_iff {w : BitVec 8} : microwordOk w = false ↔ reservedMicroword w := by
  have hu : w.extractLsb' 4 3 = microUop w := rfl
  have hc : w.extractLsb' 0 3 = microCtrl w := rfl
  unfold reservedMicroword microwordOk
  rw [hu, hc]
  simp only [decode, decodeMicro]
  split_ifs with hbits hnopc houtb hsnp hctrl
  · obtain h7 | h3 := Bool.or_eq_true_iff.1 hbits <;> simp_all
  · simp_all
  · simp_all
  · simp_all
  · simp_all
  · have : 3 ≤ (microUop w).toNat := by bv_omega
    simp_all

theorem decode_micro_error_iff {w : BitVec 8} : (∃ e, decode (.micro w) = .error e) ↔ microwordOk w = false := by
  unfold microwordOk
  cases decode (.micro w) <;> simp

/-- A ROM check fails as soon as one microword does. -/
theorem romsOk_eq_false {s : State} {w : BitVec 8}
    (hw : w ∈ [s.bppRom.w0, s.bppRom.w1, s.bppRom.w2, s.bppRom.w3, s.qesRom]) (h : microwordOk w = false) :
    romsOk s = false := by
  simp only [List.mem_cons, List.not_mem_nil, or_false] at hw
  obtain rfl | rfl | rfl | rfl | rfl := hw <;> simp [romsOk, h]

/-- A reserved microword in a ROM is refused before any agent is looked at (R107). -/
theorem step_of_reserved {s : State} (hc : cfgWf s.cfg = true) (h : romsOk s = false) :
    step s = .refused .reservedMicroword := by
  simp [step, nextAction, hc, h]

/-- Settles O4: the tests of the decoder are the clauses of R107, and the ROM check runs it on every microword. -/
theorem reservedMicrowordsRefused : Obligations.ReservedMicrowordsRefused := by
  unfold Obligations.ReservedMicrowordsRefused
  refine ⟨fun w => decode_micro_error_iff.trans microwordOk_eq_false_iff, ?_, fun w hw => ?_⟩
  · rintro s hc ⟨w, hw, hres⟩
    exact step_of_reserved hc (romsOk_eq_false hw (microwordOk_eq_false_iff.2 hres))
  · rw [← microwordOk_eq_false_iff]
    revert w
    decide

/-! ## Rejected commands -/

/-- Settles O5: whether by its bits or by the fields it decodes to, the word is rejected in its issue step. -/
theorem illegalCommandWordRejected : Obligations.IllegalCommandWordRejected := by
  unfold Obligations.IllegalCommandWordRejected
  rintro s a0 a1 a2 w rest ⟨hc, hr⟩ hi hs hill
  rw [step_script hc hr hs, perform, issueTurn, if_pos hi]
  exact runCommand_of_illegal hill hi

/-- Settles O36: an instruction with a bad bus or register is rejected before its operands are read. -/
theorem missingBusRejectedFirst : Obligations.MissingBusRejectedFirst := by
  unfold Obligations.MissingBusRejectedFirst
  intro b r s hb hi
  have rejected : ∀ i : Instr, i.wf s.cfg.nbus = false → exec i s = .next { s with status := 2 } := fun i h => by
    rw [exec_of_not_wf h, finish_invalidCommand_of_idle hi]
  have missing : busExists s.cfg.nbus b = false := by simp [busExists, hb]
  exact ⟨rejected _ missing, rejected _ missing, rejected _ missing, rejected _ (regNamed_eq_false_of_missingBus hb)⟩

/-! ## The fixed program and the agents that run it -/

/-- Settles O9, from what a step can make of one bus. -/
theorem stepKeepsControlLines : Obligations.StepKeepsControlLines := by
  unfold Obligations.StepKeepsControlLines
  rintro s t ⟨hrom, -⟩ h hstep b hb
  obtain ⟨hcfg, -⟩ := MachineState.stepKeepsParameters s t hstep
  have kept : pinsInv s.cfg.stallCtrl (t.bus b) := (bus_cases hstep b).pinsInv hrom (h b hb)
  rw [hcfg]
  exact ⟨kept, kept.codes⟩

/-- Settles O13: an enabled agent runs what its fetched word decodes to. -/
theorem stepRunsFetchedMicroword : Obligations.StepRunsFetchedMicroword := by
  unfold Obligations.StepRunsFetchedMicroword
  refine ⟨?_, ?_⟩
  · rintro s b rest i ⟨hc, hr⟩ hs hb hon hclock hd hi
    exact step_bpp_of_decode hc hr hs hb (bppEnabled_iff.2 ⟨hon, hclock⟩) hd hi
  · rintro s rest i ⟨hc, hr⟩ hs hd hi
    rw [step_script hc hr hs, perform, qesTurn, runMicroword_of_decode hd hi]
    rfl

/-- Settles O22: turns of the bus repeat the cycle of the fixed program, and two cycles write and latch one byte. -/
theorem fourCyclesWriteOnePair : Obligations.FourCyclesWriteOnePair := by
  unfold Obligations.FourCyclesWriteOnePair
  rintro s b sg pw q ⟨hc, -⟩ hp hb hlen hon hclock hph hq
  have h : RunsProgram s b := ⟨hc, hp, hb, hlen, bppEnabled_iff.2 ⟨hon, hclock⟩⟩
  obtain ⟨t1, hrun1, hbus1 : _ = programCycle _ _⟩ := h.runs 1
  obtain ⟨t2, hrun2, hbus2 : _ = programCycle _ (programCycle _ _)⟩ := h.runs 2
  obtain ⟨t3, hrun3, hbus3 : _ = programCycle _ (programCycle _ (programCycle _ _))⟩ := h.runs 3
  obtain ⟨t4, hrun4, hbus4 : _ = programCycle _ (programCycle _ (programCycle _ (programCycle _ _)))⟩ := h.runs 4
  rw [programCycle_zero hph hq] at hbus1
  rw [programCycle_signal hph hq] at hbus2 hbus3 hbus4
  rw [programCycle_two rfl rfl] at hbus3
  rw [programCycle_power rfl rfl] at hbus4
  refine ⟨⟨t1, hrun1, ?_⟩, ⟨t2, hrun2, ?_⟩, ⟨t3, hrun3, ?_⟩, ⟨t4, hrun4, ?_⟩⟩
  · simp [hbus1]
  · simp [hbus2]
  · simp [hbus3]
  · simp [hbus4, latches, hph]

end Sys2Proof.Proofs.Encoding
end

section
/-! SUPPORT. Laws the statements on the bus protocol use: the signal and power parity and the even counts of the records
(R142, R201), the view of the observer (R141), the whole effect of an accepted `PLAY` (R202), and what a turn of an
agent of a bus writes and reads (R144). -/

namespace Sys2Proof.Machine

section

variable {s t p : State} {x y : Bus} {b : Nat} {c : Ctrl} {len : Word}

/-! ## The signal and power parity (R142) -/

/-- A word with bit 0 clear is an even number. -/
theorem toNat_mod_two_of_bit0 (h : len.getLsbD 0 = false) : len.toNat % 2 = 0 := by
  simpa [BitVec.getLsbD, Nat.testBit_zero] using h

/-- The parity looks at the enable bit, the phase and the bytes to come, modulo 2. -/
theorem parityInv.congr (h : parityInv x) (hon : y.smEn = x.smEn) (hph : y.phase = x.phase)
    (hbytes : (y.txq.length + y.dataTransCount.toNat) % 2 = (x.txq.length + x.dataTransCount.toNat) % 2) :
    parityInv y := by
  unfold parityInv
  rw [hon, hph, hbytes]
  exact h

/-- `NOPC` of the fixed program, at phase 1 or 3, stays between the same two bytes (R133). -/
theorem parityInv.nopc (h : parityInv x) (hph : x.phase = 1 ∨ x.phase = 3) (d : Byte) :
    parityInv (x.drive d c).advance := by
  intro hon
  have hx := h hon
  obtain hph | hph := hph <;> simpa [hph] using hx

/-- `OUTB` of the fixed program, at phase 0 or 2, takes one byte, or waits (R132, R134). -/
theorem parityInv.outb (h : parityInv x) (hph : x.phase = 0 ∨ x.phase = 2) (k : StallCtrl) :
    parityInv (outbBus k c x) := by
  unfold outbBus
  split
  · rename_i v q hq
    intro hon
    have hx := h hon
    rw [hq, List.length_cons] at hx
    obtain hph | hph := hph <;> simp [hph] at hx ⊢ <;> omega
  · cases k with
    | hold => exact h
    | drive => exact h.congr rfl rfl rfl

/-- `DXFER` moves a byte of the pass to the queue, or faults (R176). -/
theorem parityInv.dxfer (h : parityInv x) (hcount : x.dataTransCount ≠ 0) (r : Option Byte) :
    parityInv (dxferBus r x) := by
  cases r with
  | none => exact h.congr rfl rfl rfl
  | some v =>
    have hmoved : (x.txq ++ [v]).length + (x.dataTransCount - 1).toNat = x.txq.length + x.dataTransCount.toNat := by
      rw [List.length_append, List.length_singleton]
      bv_omega
    exact h.congr rfl rfl (congrArg (· % 2) hmoved)

/-- A finished pass replaced by one of an even count (R178, R180). -/
theorem parityInv.reloaded (h : parityInv x) (hdone : x.dataTransCount = 0) (heven : len.getLsbD 0 = false)
    (hon : y.smEn = x.smEn) (hph : y.phase = x.phase) (hq : y.txq = x.txq) (hcount : y.dataTransCount = len) :
    parityInv y := by
  refine h.congr hon hph ?_
  have hlen := toNat_mod_two_of_bit0 heven
  have hzero : x.dataTransCount.toNat = 0 := by rw [hdone]; rfl
  rw [hq, hcount, hzero]
  omega

/-- `PLAY` of an even length starts before a signal byte with an empty queue (R202). -/
theorem parityInv_play (addr rate : Word) (heven : len.getLsbD 0 = false) : parityInv (playBus addr len rate x) := by
  intro _
  simpa [playBus] using toNat_mod_two_of_bit0 heven

/-- A pass that `DXFER` can go on with has bytes left (R176). -/
theorem dataTransCount_ne_zero_of_dxferEnabled {cfg : Config} (h : dxferEnabled cfg x = true) :
    x.dataTransCount ≠ 0 := by
  simp only [dxferEnabled, Bool.and_eq_true, bne_iff_ne] at h
  exact h.1.1.2

/-- With the fixed program a step keeps the parity of a bus, if a re-arm finds an even count in its record. -/
theorem BusCase.parityInv (hc : BusCase s b y) (hrom : s.bppRom = bppRomImage) (hx : BusInv s.cfg (s.bus b))
    (hrecord : (s.bus b).smEn = true → (s.mem.readWord (rcbAddr s.cfg b + 4)).getLsbD 0 = false)
    (h : parityInv (s.bus b)) : parityInv y := by
  have rearmed (hen : rcntEnabled (s.bus b) = true) :
      (s.bus b).dataTransCount = 0 ∧ (s.mem.readWord (rcbAddr s.cfg b + 4)).getLsbD 0 = false := by
    rw [rcntEnabled, Bool.and_eq_true] at hen
    exact ⟨hx.pendCount hen.1, hrecord (hx.started_of_rcntPend hen.1)⟩
  cases hc with
  | nopc c he hb hen hd =>
    rw [hrom] at hd
    exact h.nopc (nopc_of_bppRomImage hd).1 _
  | outb c he hb hen hd =>
    rw [hrom] at hd
    exact h.outb ((outb_of_bppRomImage hd).imp And.left And.left) _
  | dxfer he hb hen => exact h.dxfer (dataTransCount_ne_zero_of_dxferEnabled hen) _
  | rcntx he hb hen hh => exact h.reloaded (rearmed hen).1 (rearmed hen).2 rfl rfl rfl rfl
  | rearm he hb hen hh => exact h.reloaded (rearmed hen).1 (rearmed hen).2 rfl rfl rfl rfl
  | play k p hp hk hb hl => exact parityInv_play _ _ (badLength_even hl)
  | same | raddrx | swap => exact h.congr rfl rfl rfl

/-! ## The even counts of the records -/

/-- A record with an even count has one after a step within the contract: a `PLAY` or a `SWAP` writes an accepted
length (R201). -/
theorem RecordCase.count_even {addr len : Word} (hc : RecordCase s b addr len) (ho : hostInv s)
    (hold : (s.mem.readWord (rcbAddr s.cfg b + 4)).getLsbD 0 = false) : len.getLsbD 0 = false := by
  cases hc with
  | same => exact hold
  | both i k p hp hi hk hl => exact badLength_even hl
  | address k p hp hk hl hh => exact hold
  | count len hi =>
    obtain ⟨-, hl, -⟩ : b < s.cfg.nbus ∧ badLength len = false ∧ s.cfg.handoff = .split := by
      simpa only [hostInv, hi] using ho
    exact badLength_even hl

/-- Every step within the contract keeps the counts in the records of the started buses even, under both hand-offs. -/
theorem recordsEven_of_step (hm : MachineInv s) (hrec : recordsEven s) (hv : retainedValid s)
    (hin : s.hstate = .idle → eventInContract s s.event) (h : step s = .next t) : recordsEven t := by
  obtain ⟨hcfg, -⟩ := Proofs.MachineState.stepKeepsParameters s t h
  intro b hb hon
  rw [hcfg] at hb ⊢
  obtain hold | ⟨k, p, hp, rfl, hl⟩ := (bus_cases h b).smEn_cases hon
  · exact (record_cases hm hv hin h hb).count_even hm.hostOk (hrec b hb hold)
  · rw [(record_of_play hm hp hb hl h).2]
    exact badLength_even hl

/-! ## The lines and the observer (R141) -/

/-- The latch event of a DAC, in the words of R141. -/
theorem latched_eq_observed (d : Dac) (x : Bus) (c : Ctrl) (held : Option Byte) :
    (if latches d x.ctrl c then some x.dout else held) = Claims.observed d.select x c held := by
  simp [latches, Claims.observed, and_assoc]

/-- Driving the lines, the observer looking on, field by field. -/
theorem drive_eq (x : Bus) (d : Byte) (c : Ctrl) :
    x.drive d c = { x with
      dout := d, ctrl := c
      dacSig := Claims.observed 1 x c x.dacSig, dacPwr := Claims.observed 2 x c x.dacPwr } := by
  rw [Bus.drive, latched_eq_observed, latched_eq_observed]
  rfl

/-! ## Writing one bus -/

/-- Writing a bus changes that bus only. -/
theorem onlyBus_setBus (s : State) (b : Nat) (x : Bus) : Claims.onlyBus b s (s.setBus b x) :=
  ⟨rfl, setBus_length s b x, fun b' hne => bus_setBus_other s b b' x hne⟩

/-- Writing a bus as it is changes nothing. -/
theorem setBus_bus_self (s : State) (b : Nat) : s.setBus b (s.bus b) = s := by
  have hset : s.buses.set b (s.bus b) = s.buses := by
    by_cases hb : b < s.buses.length
    · simp [State.bus, List.getD_eq_getElem?_getD, hb]
    · exact List.set_eq_of_length_le (not_lt.1 hb)
  rw [State.setBus, hset]

/-! ## `PLAY` -/

/-- An accepted `PLAY`, whole (R202). -/
theorem exec_play_of_accepted {k : BitVec 4} (hc : cfgWf s.cfg = true) (hk : k.toNat < s.cfg.nbus)
    (hl : badLength s.arg1 = false) :
    exec (.play k) s = .next (({ s with
      mem := (s.mem.writeWord (rcbAddr s.cfg k.toNat) s.arg0).writeWord (rcbAddr s.cfg k.toNat + 4) s.arg1 }.setBus
        k.toNat (playBus s.arg0 s.arg1 s.arg2 (s.bus k.toNat))).finish .ok) := by
  simp [exec, execPlay, State.hasBus, State.bufAddr, State.bufLen, State.rate, hk, hl, writeRcb_answers hc hk]

/-- A length that is neither zero nor odd is accepted (R201). -/
theorem badLength_eq_false (hne : len ≠ 0) (heven : len.getLsbD 0 = false) : badLength len = false :=
  Bool.or_eq_false_iff.2 ⟨beq_false_of_ne hne, heven⟩

/-- The clamp acts exactly when four times the rate is past `F_MAX` (R138). -/
theorem clampedRate_iff {rate : Word} : clampedRate rate = true ↔ 4 * rate.toNat > 10000000 := decide_eq_true_iff

/-! ## What a step of another agent keeps of a bus -/

/-- `DXFER` moves only the queue, the data channel, the pending count re-arm and the fault flag (R176, R233). -/
theorem dxferBus_frame (r : Option Byte) (x : Bus) :
    dxferBus r x = { x with
      txq := (dxferBus r x).txq, dataReadAddr := (dxferBus r x).dataReadAddr
      dataTransCount := (dxferBus r x).dataTransCount, dataBusy := (dxferBus r x).dataBusy
      rcntPend := (dxferBus r x).rcntPend, busFault := (dxferBus r x).busFault } := by
  cases r <;> rfl

/-- Without a turn of its state machine and without a `PLAY` of it, a bus keeps its phase, its lines and what the
observer holds; without a turn of its data channel, its queue too (R144). -/
theorem BusCase.lines_kept (hc : BusCase s b y) (hturn : s.event ≠ .bpp b)
    (hplay : ∀ k p, Issues s (.play k) p → k.toNat ≠ b) :
    y.phase = (s.bus b).phase ∧ y.dout = (s.bus b).dout ∧ y.ctrl = (s.bus b).ctrl ∧ y.dacSig = (s.bus b).dacSig
      ∧ y.dacPwr = (s.bus b).dacPwr ∧ (s.event ≠ .data b → y.txq = (s.bus b).txq) := by
  cases hc with
  | nopc _ he | outb _ he => exact absurd he hturn
  | play k p hp hk => exact absurd hk (hplay k p hp)
  | dxfer he => rw [dxferBus_frame]; exact ⟨rfl, rfl, rfl, rfl, rfl, fun hdata => absurd he hdata⟩
  | same | rcntx | rearm | raddrx | swap => exact ⟨rfl, rfl, rfl, rfl, rfl, fun _ => rfl⟩

/-! ## What a turn of an agent of a bus writes -/

/-- The choice of the event and of the current bus, and one bus, are all a turn of an agent of that bus writes (R144,
R241). -/
theorem StepCase.eq_setBus_of_turn (hc : StepCase s t) (hturn : Claims.turnOfBus b s.event) :
    ∃ k x, t = { s.chosen with curBus := k }.setBus b x := by
  obtain ⟨noCommand, -⟩ := not_host_of_hardware (.inl ⟨b, hturn⟩)
  have turn_bus {e : Event} (he : s.event = e) : Claims.turnOfBus b e := he ▸ hturn
  cases hc with
  | idle => exact ⟨s.chosen.curBus, s.chosen.bus b, (setBus_bus_self s.chosen b).symm⟩
  | nopc b' c he | outb b' c he =>
    obtain rfl : b' = b := by simpa [Claims.turnOfBus] using turn_bus he
    exact ⟨b', _, rfl⟩
  | dxfer b' he | rcntx b' he | rearm b' he | raddrx b' he =>
    obtain rfl : b' = b := by simpa [Claims.turnOfBus] using turn_bus he
    exact ⟨s.chosen.curBus, _, rfl⟩
  | snp he | env _ he | memrd _ he | illegal _ _ _ _ _ he | swapSecond _ _ he | updpwrLoop _ _ _ he | drainLoop he
  | memwr _ _ he => exact absurd (turn_bus he) (by simp [Claims.turnOfBus])
  | rejected _ p _ hp | play _ p hp | swap _ p hp | swapFirst _ p hp | updpwrFirst _ p hp | drainFirst p hp
  | rdreg _ _ p _ hp => exact absurd hp (noCommand _ p)

end

section

variable {s u : State} {b : Nat} {x : Bus} {e : Event}

/-! ## What a turn of an agent of a bus reads -/

/-- Two states hold the same of what the agents of bus `b` read: the parameters, memory and bus `b` (R144). -/
structure AgreeOnBus (b : Nat) (s u : State) : Prop where
  cfg : u.cfg = s.cfg
  rom : u.bppRom = s.bppRom
  mem : u.mem = s.mem
  count : u.buses.length = s.buses.length
  bus : u.bus b = s.bus b

/-- Bus `b` of the next state, if there is one. -/
def answeredBus (b : Nat) : Host.Outcome State Fault Refusal → Option Bus
  | .next t => some (t.bus b)
  | .fault _ => none
  | .refused _ => none

/-- States that differ in their buses only, and not in bus `b`, agree on it. -/
theorem AgreeOnBus.of_buses (hu : u = { s with buses := u.buses }) (hcount : u.buses.length = s.buses.length)
    (hbus : u.bus b = s.bus b) : AgreeOnBus b s u :=
  ⟨(congrArg State.cfg hu :), (congrArg State.bppRom hu :), (congrArg State.mem hu :), hcount, hbus⟩

theorem AgreeOnBus.chosen (h : AgreeOnBus b s u) : AgreeOnBus b s.chosen u.chosen where
  cfg := by simpa using h.cfg
  rom := by simpa using h.rom
  mem := by simpa using h.mem
  count := by simpa using h.count
  bus := by simpa using h.bus

/-- The agreement does not look at the current bus. -/
theorem AgreeOnBus.setCurBus (h : AgreeOnBus b s u) (k : Nat) :
    AgreeOnBus b { s with curBus := k } { u with curBus := k } := { h with }

theorem AgreeOnBus.hasBus (h : AgreeOnBus b s u) : u.hasBus b = s.hasBus b := by
  rw [State.hasBus, State.hasBus, h.cfg]

theorem AgreeOnBus.answered_self (h : AgreeOnBus b s u) : answeredBus b (.next u) = answeredBus b (.next s) :=
  congrArg some h.bus

theorem AgreeOnBus.answered_setBus (h : AgreeOnBus b s u) (x : Bus) :
    answeredBus b (.next (u.setBus b x)) = answeredBus b (.next (s.setBus b x)) := by
  simp only [answeredBus, bus_setBus, h.count, h.bus]

/-- A microword of the current bus makes the same of it in two states that agree on it. -/
theorem AgreeOnBus.runMicroword (h : AgreeOnBus b s u) (hs : s.curBus = b) (hu : u.curBus = b) (w : BitVec 8) :
    answeredBus b (runMicroword .bpp w u).outcome = answeredBus b (runMicroword .bpp w s).outcome := by
  unfold Machine.runMicroword
  cases decode (.micro w) with
  | error e => rfl
  | ok i =>
    cases i with
    | nopc c =>
      simp only [Instr.executor, if_true, outcome_run, exec, execNopc, hs, hu, h.bus]
      exact h.answered_setBus _
    | outb c =>
      simp only [Instr.executor, if_true, outcome_run, exec, execOutb, hs, hu, h.bus, h.cfg]
      exact h.answered_setBus _
    | snp | play | swap | updpwr | drain | rdreg => rfl

theorem AgreeOnBus.bppTurn (h : AgreeOnBus b s u) :
    answeredBus b (bppTurn b u).outcome = answeredBus b (bppTurn b s).outcome := by
  have hen : (u.hasBus b && bppEnabled (u.bus b)) = (s.hasBus b && bppEnabled (s.bus b)) := by
    rw [h.hasBus, h.bus]
  have hword : u.bppRom.fetch (u.bus b).phase = s.bppRom.fetch (s.bus b).phase := by rw [h.rom, h.bus]
  rw [Machine.bppTurn, Machine.bppTurn, hen, hword]
  split_ifs
  · exact (h.setCurBus b).runMicroword rfl rfl _
  · exact h.answered_self

theorem AgreeOnBus.dataTurn (h : AgreeOnBus b s u) :
    answeredBus b (dataTurn b u) = answeredBus b (dataTurn b s) := by
  simp only [Machine.dataTurn, h.hasBus, h.cfg, h.mem, h.bus]
  split_ifs
  · exact h.answered_setBus _
  · exact h.answered_self

theorem AgreeOnBus.rcntTurn (h : AgreeOnBus b s u) :
    answeredBus b (rcntTurn b u) = answeredBus b (rcntTurn b s) := by
  simp only [Machine.rcntTurn, h.hasBus, h.cfg, h.mem, h.bus]
  split_ifs
  · cases memReadWord s.cfg s.mem (rcbAddr s.cfg b + 4) with
    | none => rfl
    | some n =>
      cases s.cfg.handoff with
      | split => exact h.answered_setBus _
      | atomic =>
        cases memReadWord s.cfg s.mem (rcbAddr s.cfg b) with
        | none => rfl
        | some a => exact h.answered_setBus _
  · exact h.answered_self

theorem AgreeOnBus.raddrTurn (h : AgreeOnBus b s u) :
    answeredBus b (raddrTurn b u) = answeredBus b (raddrTurn b s) := by
  simp only [Machine.raddrTurn, h.hasBus, h.cfg, h.mem, h.bus]
  split_ifs
  · cases memReadWord s.cfg s.mem (rcbAddr s.cfg b) with
    | none => rfl
    | some a => exact h.answered_setBus _
  · exact h.answered_self

/-- An agent of bus `b` makes the same of it in two states that agree on it. -/
theorem AgreeOnBus.perform (h : AgreeOnBus b s u) (he : Claims.turnOfBus b e) :
    answeredBus b (perform e u).outcome = answeredBus b (perform e s).outcome := by
  obtain rfl | rfl | rfl | rfl := he
  · exact h.bppTurn
  · exact h.dataTurn
  · exact h.rcntTurn
  · exact h.raddrTurn

end

end Sys2Proof.Machine
end

section
/-! PROOFS of the statements on the bus protocol (spec 40_bus_protocol.md): the parity of signal and power bytes, the
micro-instructions, the clock `PLAY` sets, and the independence of the buses. -/

namespace Sys2Proof.Proofs.BusProtocol

open Sys2Proof Sys2Proof.Machine Sys2Proof.Claims

/-! ## The parity -/

/-- Settles O10: the first half from what a step can make of one bus, the second from what it can make of one record. -/
theorem stepKeepsParity : Obligations.StepKeepsParity := by
  unfold Obligations.StepKeepsParity
  refine ⟨fun s t hm hp hrec h hstep b hb => ?_, fun s t hm hrec hv hin hstep => ?_⟩
  · exact (bus_cases hstep b).parityInv hp.1 (hm.busOk b hb) (hrec b hb) (h b hb)
  · exact ⟨recordsEven_of_step hm hrec hv hin hstep, retainedValid_of_step hv hin hstep⟩

/-! ## The micro-instructions -/

/-- Settles O15: the turn asks for a running state machine with a clock. -/
theorem stoppedStateMachineHasNoStep : Obligations.StoppedStateMachineHasNoStep := by
  unfold Obligations.StoppedStateMachineHasNoStep
  rintro s b rest ⟨hc, hr⟩ hs hstopped
  have hen : bppEnabled (s.bus b) = false := by obtain h | h := hstopped <;> simp [bppEnabled, h]
  have hbus : ({ s with script := rest }).bus b = s.bus b := rfl
  rw [step_script hc hr hs, perform, bppTurn, if_neg (by simp [hbus, hen])]
  rfl

/-- Settles O19: `NOPC` writes the current bus, with its lines driven and its phase advanced. -/
theorem nopcDrivesCodeAndAdvances : Obligations.NopcDrivesCodeAndAdvances := by
  unfold Obligations.NopcDrivesCodeAndAdvances
  intro c s hb
  refine ⟨_, rfl, onlyBus_setBus _ _ _, ?_⟩
  rw [bus_setBus_same _ _ _ hb, drive_eq]
  rfl

/-- Settles O20: the first branch of `OUTB`. -/
theorem outbTakesOldestByte : Obligations.OutbTakesOldestByte := by
  unfold Obligations.OutbTakesOldestByte
  intro c s v q hb hq
  refine ⟨_, rfl, onlyBus_setBus _ _ _, ?_⟩
  rw [bus_setBus_same _ _ _ hb, outbBus, hq]
  dsimp only
  rw [drive_eq]
  rfl

/-- Settles O21: the other branch of `OUTB`, under each setting of `STALL_CTRL`. -/
theorem outbStallsOnEmptyQueue : Obligations.OutbStallsOnEmptyQueue := by
  unfold Obligations.OutbStallsOnEmptyQueue
  intro c s hb hq
  have hstall : outbBus s.cfg.stallCtrl c (s.bus s.curBus) = stalled s.cfg.stallCtrl c (s.bus s.curBus) := by
    simp only [outbBus, hq]
  refine ⟨fun hhold => ?_, fun hdrive => ⟨_, rfl, onlyBus_setBus _ _ _, ?_⟩⟩
  · rw [exec, execOutb, hstall, hhold]
    exact congrArg _ (setBus_bus_self s s.curBus)
  · rw [bus_setBus_same _ _ _ hb, hstall, hdrive]
    exact drive_eq _ _ _

/-! ## The clock -/

/-- Settles O23: the bus after `PLAY` holds the effective frequency and the clamp flag of the rate operand. -/
theorem playSetsClampedClock : Obligations.PlaySetsClampedClock := by
  unfold Obligations.PlaySetsClampedClock
  intro b s hc hcount hb hne heven
  refine ⟨_, exec_play_of_accepted hc hb (badLength_eq_false hne heven), rfl, ?_⟩
  rw [finish_bus, bus_setBus_same _ _ _ (hcount.symm ▸ hb)]
  have hflag := clampedRate_iff (rate := s.arg2)
  exact ⟨effectiveFreq_toNat s.arg2, hflag, hflag.trans (by omega), rfl⟩

/-! ## The independence of the buses -/

/-- Settles O57, from what a step can make of one bus. -/
theorem onlyBppAndPlayMoveTheLines : Obligations.OnlyBppAndPlayMoveTheLines := by
  unfold Obligations.OnlyBppAndPlayMoveTheLines
  intro s t b h hturn hplay
  refine (bus_cases h b).lines_kept hturn fun k p hp hk => hplay ?_
  exact hk ▸ MachineState.issuesPlay_of_issues hp

/-- Settles O58: such a turn is one write of bus `b`. -/
theorem busStepsWriteOnlyTheirBus : Obligations.BusStepsWriteOnlyTheirBus := by
  unfold Obligations.BusStepsWriteOnlyTheirBus
  intro s t b hturn h
  obtain ⟨-, -, hc⟩ := step_cases h
  obtain ⟨k, x, rfl⟩ := hc.eq_setBus_of_turn hturn
  obtain ⟨-, -, hother⟩ := onlyBus_setBus { s.chosen with curBus := k } b x
  exact ⟨rfl, by simp, fun b' hne => (hother b' hne).trans (chosen_bus s b')⟩

/-- Settles O59: both steps are the same turn, on states that agree on what it reads. -/
theorem busStepsReadOnlyTheirBus : Obligations.BusStepsReadOnlyTheirBus := by
  unfold Obligations.BusStepsReadOnlyTheirBus
  intro s t s' t' b hturn hs' hcount hbus h h'
  have hevent : s'.event = s.event := (congrArg State.event hs' :)
  obtain ⟨hc, hr, -⟩ := step_cases h
  obtain ⟨hc', hr', -⟩ := step_cases h'
  have hagree := (AgreeOnBus.of_buses hs' hcount hbus).chosen.perform hturn
  rw [step_eq_perform hc hr] at h
  rw [step_eq_perform hc' hr', hevent] at h'
  rw [h, h'] at hagree
  exact Option.some.inj hagree

end Sys2Proof.Proofs.BusProtocol
end

section
/-! SUPPORT. Laws the statements on the edge sampler use: a reading taken with room in the queue and with none, what a step
can do to the state of the sampler and the decoder, and how the chain of readings passes over it. -/

namespace Sys2Proof.Machine

variable {s t p : State} {cur : Lines}

/-! ## A reading -/

/-- With room, a changed reading joins the queue at its end (R151). -/
theorem takeReading_of_room (h : s.rxq.length < s.cfg.rxqDepth) :
    takeReading cur s = { s with rxq := s.rxq ++ [cur], prev := cur } := if_pos h

/-- With a full queue, a changed reading is only counted (R152, R153). -/
theorem takeReading_of_full (h : s.cfg.rxqDepth ≤ s.rxq.length) :
    takeReading cur s = { s with dropCount := s.dropCount + 1, prev := cur } := if_neg (Nat.not_lt.2 h)

/-- `SNP` on the reading it saw last does nothing. -/
theorem exec_snp_of_unchanged (h : s.encIn = s.prev) : exec .snp s = .next s := by
  simp [exec, execSnp, h]

/-- `SNP` on a changed reading takes it. -/
theorem exec_snp_of_changed (h : s.encIn ≠ s.prev) : exec .snp s = .next (takeReading s.encIn s) := by
  simp [exec, execSnp, h]

/-- A reading taken without counting a drop had room in the queue. -/
theorem room_of_dropCount_kept (h : (takeReading cur s).dropCount = s.dropCount) : s.rxq.length < s.cfg.rxqDepth := by
  by_contra hfull
  rw [takeReading_of_full (Nat.not_lt.1 hfull)] at h
  exact absurd (add_eq_left.1 h) (by decide)

/-! ## What a step can do to the readings -/

/-- The state of the sampler and the decoder: what becomes of the readings of the encoder (R38 to R43). -/
structure Readings where
  prev : Lines
  rxq : List Lines
  dropCount : Word
  last : Lines
  acc : Word

/-- The readings held in a state. -/
def State.readings (s : State) : Readings where
  prev := s.prev
  rxq := s.rxq
  dropCount := s.dropCount
  last := s.last
  acc := s.acc

@[simp] theorem chosen_readings (s : State) : s.chosen.readings = s.readings := by simp [State.readings]
@[simp] theorem issued_readings (s : State) (a0 a1 a2 : Option Word) (w : Word) :
    (s.issued a0 a1 a2 w).readings = s.readings := by simp [State.readings]
@[simp] theorem afterPower_readings (b i : Nat) (v : Byte) (p : State) : (afterPower b i v p).readings = p.readings := by
  rw [afterPower_eq]
  rfl

/-- An issued command finds the readings as they were. -/
theorem Issues.readings_eq {i : Instr} (h : Issues s i p) : p.readings = s.readings := by
  cases h
  exact issued_readings ..

/-- A host that issues `DRAIN` takes a step of it. -/
theorem Issues.drainsNext (h : Issues s .drain p) : Claims.drainsNext s := by
  cases h with
  | mk a0 a1 a2 w he hi hd => exact .inl ⟨hi, a0, a1, a2, w, he, hd⟩

/-- What a step from `s` can do to the readings. -/
inductive ReadingCase (s : State) : State → Prop
  | kept {t : State} (h : t.readings = s.readings) : ReadingCase s t
  | taken (he : s.event = .qes) (hc : s.encIn ≠ s.prev) : ReadingCase s (takeReading s.encIn s.chosen)
  | drained {p : State} (hd : Claims.drainsNext s) (h : p.readings = s.readings) : ReadingCase s (drainIter p)

/-- Only the sampler and `DRAIN` touch the readings (R151, R168). -/
theorem StepCase.readings (hc : StepCase s t) : ReadingCase s t := by
  cases hc with
  | snp he hne => exact .taken he hne
  | drainFirst p hp => exact .drained hp.drainsNext hp.readings_eq
  | drainLoop he hi => exact .drained (.inr ⟨hi, he⟩) (chosen_readings s)
  | updpwrFirst b p hp => exact .kept ((afterPower_readings ..).trans hp.readings_eq)
  | updpwrLoop => exact .kept ((afterPower_readings ..).trans (chosen_readings s))
  | rejected _ p _ hp | play _ p hp | swap _ p hp | swapFirst _ p hp | rdreg _ _ p _ hp => exact .kept hp.readings_eq
  | illegal a0 a1 a2 w => exact .kept (issued_readings s a0 a1 a2 w)
  | _ => exact .kept (chosen_readings s)

/-! ## The chain of readings -/

/-- The chain is a matter of the readings alone. -/
theorem readingsChained.congr (h : readingsChained s) (hst : t.readings = s.readings) : readingsChained t := by
  obtain ⟨hprev, hrxq, -, hlast, -⟩ := Readings.mk.inj hst
  simpa only [readingsChained, hprev, hrxq, hlast] using h

/-- A queued reading is the newest one and the sampler's previous one, whatever was before. -/
theorem readingsChained_takeReading (h : s.rxq.length < s.cfg.rxqDepth) : readingsChained (takeReading cur s) := by
  simp [takeReading_of_room h, readingsChained]

/-- An iteration of `DRAIN` keeps the chain: the reading it decodes becomes `LAST`, which stands for it once the queue
is empty (R163). -/
theorem readingsChained.drainIter (h : readingsChained s) : readingsChained (drainIter s) := by
  unfold readingsChained at h
  unfold Machine.drainIter
  split
  next v q hq => simpa [readingsChained, hq, List.getLast?_cons] using h
  next hq => simpa [readingsChained, hq] using h

/-- The chain over every case of a step that counts no drop. -/
theorem ReadingCase.chained (hc : ReadingCase s t) (h : readingsChained s) (hdrop : t.dropCount = s.dropCount) :
    readingsChained t := by
  cases hc with
  | kept hst => exact h.congr hst
  | taken => exact readingsChained_takeReading (room_of_dropCount_kept (by simpa using hdrop))
  | drained hd hst => exact (h.congr hst).drainIter

end Sys2Proof.Machine
end

section
/-! PROOFS of the statements on the edge sampler (spec 41_edge_sampler.md): what `SNP` does with a reading, and that no
reading is lost without being counted. -/

namespace Sys2Proof.Proofs.EdgeSampler

open Sys2Proof Sys2Proof.Machine Sys2Proof.Claims

/-- Settles O12: a taken reading that counts no drop had room and is the newest; `DRAIN` moves the oldest to `LAST`; no
other step touches the readings. -/
theorem stepKeepsReadingsChained : Obligations.StepKeepsReadingsChained := by
  unfold Obligations.StepKeepsReadingsChained
  intro s t h hstep hdrop
  obtain ⟨-, -, hc⟩ := step_cases hstep
  exact hc.readings.chained h hdrop

/-- Settles O25: an unchanged reading, a changed one with room, a changed one with a full queue. -/
theorem snpPushesOrDropsChanges : Obligations.SnpPushesOrDropsChanges := by
  unfold Obligations.SnpPushesOrDropsChanges
  intro s
  refine ⟨exec_snp_of_unchanged, fun hne hroom => ?_, fun hne hfull => ?_⟩
  · rw [exec_snp_of_changed hne, takeReading_of_room hroom]
  · rw [exec_snp_of_changed hne, takeReading_of_full hfull]

end Sys2Proof.Proofs.EdgeSampler
end

section
/-! SUPPORT. Laws the statements on the direction decoder use: the transition table in the numbers of R161, an iteration
of `DRAIN` with a reading queued and with none, and the loop of `DRAIN` run to its end. -/

namespace Sys2Proof.Machine

open Sys2Proof.Claims

variable {s p : State} {v : Lines} {q : List Lines} {rest : List Event}

/-! ## One iteration -/

/-- The packed table holds the list of R161 (R114, R164). -/
theorem delta_deltaIndex (last new : Lines) : delta (deltaIndex last new) = BitVec.ofInt 32 (transition last new) := by
  revert last new
  decide

/-- With a reading queued, an iteration decodes it. -/
theorem drainIter_of_queued (h : s.rxq = v :: q) :
    drainIter s = { s with rxq := q, acc := s.acc + BitVec.ofInt 32 (transition s.last v), last := v } := by
  simp only [drainIter, h, delta_deltaIndex]

/-- With none queued, an iteration returns. -/
theorem drainIter_of_empty (h : s.rxq = []) :
    drainIter s = { s with result := s.acc, acc := 0, status := 0, hstate := .idle } := by
  simp only [drainIter, h]
  rfl

/-- The step of the issue of `DRAIN` with the port's operands left as they are is its first iteration (R163, R200). -/
theorem step_drainIssue (hc : cfgWf s.cfg = true) (hr : romsOk s = true) (hi : s.hstate = .idle)
    (hs : s.script = .issue none none none 0x40000000 :: rest) :
    step s = .next (drainIter { s with script := rest, cmd := 0x40000000, hstate := .drain }) := by
  have hd : decode (.cmd 0x40000000) = .ok .drain := by decide
  have he : s.event = .issue none none none 0x40000000 := by simp [State.event, hs]
  have hn : s.chosen = { s with script := rest } := by simp [State.chosen, hs]
  rw [step_of_issues hc hr (.mk _ _ _ _ he hi hd), State.issued, hn]
  rfl

/-- A host step with `DRAIN` in progress is a further iteration. -/
theorem step_drainLoop (hc : cfgWf s.cfg = true) (hr : romsOk s = true) (hi : s.hstate = .drain)
    (hs : s.script = .hostLoop :: rest) : step s = .next (drainIter { s with script := rest }) := by
  rw [step_script hc hr hs, perform, outcome_done, hostLoopTurn, hi]

/-! ## The whole loop -/

/-- The state once `DRAIN` has decoded every queued reading and returned, with no choice left in the script. -/
def State.drained (s : State) : State :=
  { s with
    script := [], rxq := [], last := (s.rxq.getLast?).getD s.last,
    result := s.acc + BitVec.ofInt 32 (totalSteps s.last s.rxq), acc := 0, status := 0, hstate := .idle }

/-- With nothing queued and the script at its end, the iteration is the whole drain. -/
theorem drainIter_eq_drained (hq : s.rxq = []) (hs : s.script = []) : drainIter s = s.drained := by
  simp [drainIter_of_empty hq, State.drained, hq, hs, totalSteps]

/-- An iteration that decodes leaves the rest to drain: the newest reading and the sum are the same, whatever the
script. -/
theorem drained_drainIter (hq : s.rxq = v :: q) : { drainIter s with script := rest }.drained = s.drained := by
  simp [drainIter_of_queued hq, State.drained, hq, List.getLast?_cons, totalSteps, BitVec.ofInt_add, BitVec.add_assoc]

/-- A step that takes an iteration of `DRAIN` at `p`, and one loop step for each reading queued there, bring the drain to
its end, by induction on the queue: what an iteration leaves to drain is the same drain. -/
theorem run_of_drainIter (hstep : step s = .next (drainIter p)) (hc : cfgWf p.cfg = true) (hr : romsOk p = true)
    (hi : p.hstate = .drain) (hs : p.script = List.replicate p.rxq.length .hostLoop) :
    Host.Core.run Sys2Proof.core (p.rxq.length + 1) s = .next p.drained := by
  induction hq : p.rxq generalizing s p with
  | nil =>
    rw [hq] at hs
    rw [drainIter_eq_drained hq hs] at hstep
    exact run_succ_of_step hstep
  | cons v q ih =>
    rw [hq] at hs
    rw [drainIter_of_queued hq] at hstep
    rw [List.length_cons, run_succ_of_step hstep,
      ← drained_drainIter (rest := List.replicate q.length .hostLoop) hq, drainIter_of_queued hq]
    exact ih (step_drainLoop hc hr hi hs) hc hr hi rfl rfl

/-! ## The other steps -/

/-- A taken reading joins the queue behind the others, if at all, and the decoder's own state stays (R151 to R153). -/
theorem takeReading_decoder (cur : Lines) (s : State) :
    (takeReading cur s).last = s.last ∧ (takeReading cur s).acc = s.acc ∧ s.rxq <+: (takeReading cur s).rxq := by
  unfold takeReading
  split
  · exact ⟨rfl, rfl, List.prefix_append _ _⟩
  · exact ⟨rfl, rfl, List.prefix_refl _⟩

end Sys2Proof.Machine
end

section
/-! PROOFS of the statements on the direction decoder (spec 42_direction_decoder.md): the transition table, the steps of
`DRAIN` and the sum it returns, and that no other step touches the decoder. -/

namespace Sys2Proof.Proofs.DirectionDecoder

open Sys2Proof Sys2Proof.Machine Sys2Proof.Claims

/-- Settles O26: the packed table holds the list. -/
theorem transitionTableEntries : Obligations.TransitionTableEntries := by
  unfold Obligations.TransitionTableEntries
  exact delta_deltaIndex

/-- Settles O27: the issue is an iteration with `HSTATE` set. -/
theorem drainIssueDecodesOrReturns : Obligations.DrainIssueDecodesOrReturns := by
  unfold Obligations.DrainIssueDecodesOrReturns
  intro s
  refine ⟨fun v q hq => ?_, fun hq => ?_⟩
  · exact congrArg _ (drainIter_of_queued (s := { s with hstate := .drain }) hq)
  · exact congrArg _ (drainIter_of_empty (s := { s with hstate := .drain }) hq)

/-- Settles O28: the host step is an iteration. -/
theorem drainLoopDecodesOrReturns : Obligations.DrainLoopDecodesOrReturns := by
  unfold Obligations.DrainLoopDecodesOrReturns
  rintro s rest ⟨hc, hr⟩ hi hs
  rw [step_drainLoop hc hr hi hs]
  refine ⟨fun v q hq => ?_, fun hq => ?_⟩
  · exact congrArg _ (drainIter_of_queued (s := { s with script := rest }) hq)
  · exact congrArg _ (drainIter_of_empty (s := { s with script := rest }) hq)

/-- Settles O29: the issue takes the first iteration, and what it leaves queued is drained by the loop steps. -/
theorem drainReturnsTheSum : Obligations.DrainReturnsTheSum := by
  unfold Obligations.DrainReturnsTheSum
  rintro s ⟨hc, hr⟩ hi hacc
  have hrun := run_of_drainIter
    (s := { s with script := .issue none none none 0x40000000 :: List.replicate s.rxq.length .hostLoop })
    (step_drainIssue hc hr hi rfl) hc hr rfl rfl
  refine ⟨_, ?_, rfl⟩
  unfold runs
  rw [List.length_cons, List.length_replicate]
  simpa [State.drained, hacc, hi] using hrun

/-- Settles O30: only the sampler and `DRAIN` touch the readings, and the sampler only adds one. -/
theorem onlyDrainTouchesTheDecoder : Obligations.OnlyDrainTouchesTheDecoder := by
  unfold Obligations.OnlyDrainTouchesTheDecoder
  intro s t hstep hno
  obtain ⟨-, -, hc⟩ := step_cases hstep
  cases hc.readings with
  | kept h =>
    obtain ⟨-, hrxq, -, hlast, hacc⟩ := Readings.mk.inj h
    exact ⟨hlast, hacc, hrxq ▸ List.prefix_refl _⟩
  | taken => simpa using takeReading_decoder s.encIn s.chosen
  | drained hd => exact absurd hd hno

end Sys2Proof.Proofs.DirectionDecoder
end

section
/-! SUPPORT. Laws the statements on the DMA ring use: the turns of the three channels, with a step enabled and without
(R176 to R181), events that lead from one state to another whatever the script holds after them, and the two steps of
`SWAP` (R203). -/

namespace Sys2Proof.Machine

open Sys2Proof.Claims

section

variable {s t u : State} {x : Bus} {b m n : Nat} {cfg : Config} {addr : Word} {e : Event} {es es' rest : List Event}

/-! ## When a channel has a step -/

theorem dmaHalted_eq_false_iff : dmaHalted (s.bus b) = false ↔ noFault s b := by
  simp [dmaHalted, noFault]

theorem dxferEnabled_iff :
    dxferEnabled cfg x = true ↔
      x.dataBusy = true ∧ x.dataTransCount ≠ 0 ∧ x.txq.length < cfg.txqDepth ∧ dmaHalted x = false := by
  simp [dxferEnabled, dreq, and_assoc]

theorem rcntEnabled_iff : rcntEnabled x = true ↔ x.rcntPend = true ∧ dmaHalted x = false := by
  simp [rcntEnabled]

theorem raddrEnabled_iff :
    raddrEnabled cfg x = true ↔ cfg.handoff = .split ∧ x.raddrPend = true ∧ dmaHalted x = false := by
  simp [raddrEnabled, and_assoc]

/-- Without a pending count re-arm, or with a fault flag set, the count channel has no step. -/
theorem not_rcntEnabled (h : (s.bus b).rcntPend = false ∨ ¬ noFault s b) : ¬ rcntEnabled (s.bus b) = true := by
  rw [rcntEnabled_iff, dmaHalted_eq_false_iff]
  rintro ⟨hpend, hok⟩
  exact h.elim (fun hnone => by simp [hpend] at hnone) fun hfault => hfault hok

/-! ## What the channels make of a bus -/

/-- The byte moved out of a pass in progress, field by field (R176). -/
theorem movedByte_of_busy (v : Byte) (h : x.dataBusy = true) :
    movedByte v x = { x with
      txq := x.txq ++ [v]
      dataReadAddr := x.dataReadAddr + 1
      dataTransCount := x.dataTransCount - 1
      dataBusy := decide (x.dataTransCount ≠ 1)
      rcntPend := x.rcntPend || decide (x.dataTransCount = 1) } := by
  have hlast : x.dataTransCount - 1 = 0 ↔ x.dataTransCount = 1 := by bv_omega
  unfold movedByte
  simp only [hlast, h]
  by_cases h1 : x.dataTransCount = 1 <;> simp [h1, Bool.or_comm]

/-- With a count the trigger starts the data channel (R181). -/
theorem trigger_of_count (h : x.dataTransCount ≠ 0) :
    trigger addr x = { x with dataReadAddr := addr, activeBase := addr, dataBusy := true } := by
  simp only [trigger, h, if_false]

/-- Without one it faults (R181). -/
theorem trigger_of_zero (h : x.dataTransCount = 0) :
    trigger addr x = { x with dataReadAddr := addr, activeBase := addr, zeroCountFault := true } := by
  simp only [trigger, h, if_true]

/-! ## The turns of the channels -/

/-- `DXFER` (R176). -/
theorem dataTurn_of_enabled (hb : b < s.cfg.nbus) (hen : dxferEnabled s.cfg (s.bus b) = true) :
    dataTurn b s
      = .next (s.setBus b (dxferBus (memReadByte s.cfg s.mem (s.bus b).dataReadAddr.toNat) (s.bus b))) := by
  simp [dataTurn, State.hasBus, hb, hen]

theorem dataTurn_of_disabled (hen : ¬ dxferEnabled s.cfg (s.bus b) = true) : dataTurn b s = .next s := by
  simp [dataTurn, hen]

/-- `RCNTX` (R178). -/
theorem rcntTurn_of_split (hc : cfgWf s.cfg = true) (hb : b < s.cfg.nbus) (hh : s.cfg.handoff = .split)
    (hen : rcntEnabled (s.bus b) = true) :
    rcntTurn b s = .next (s.setBus b (rcntBus (s.mem.readWord (rcbAddr s.cfg b + 4)) (s.bus b))) := by
  simp [rcntTurn, State.hasBus, hb, hen, hh, memReadWord, (rcb_access hc hb).2]

/-- `REARM` (R180). -/
theorem rcntTurn_of_atomic (hc : cfgWf s.cfg = true) (hb : b < s.cfg.nbus) (hh : s.cfg.handoff = .atomic)
    (hen : rcntEnabled (s.bus b) = true) :
    rcntTurn b s = .next (s.setBus b
      (rearmBus (s.mem.readWord (rcbAddr s.cfg b + 4)) (s.mem.readWord (rcbAddr s.cfg b)) (s.bus b))) := by
  obtain ⟨haddr, hcount⟩ := rcb_access hc hb
  simp [rcntTurn, State.hasBus, hb, hen, hh, memReadWord, haddr, hcount]

theorem rcntTurn_of_disabled (hen : ¬ rcntEnabled (s.bus b) = true) : rcntTurn b s = .next s := by
  simp [rcntTurn, hen]

/-- `RADDRX` (R179). -/
theorem raddrTurn_of_enabled (hc : cfgWf s.cfg = true) (hb : b < s.cfg.nbus)
    (hen : raddrEnabled s.cfg (s.bus b) = true) :
    raddrTurn b s = .next (s.setBus b (raddrBus (s.mem.readWord (rcbAddr s.cfg b)) (s.bus b))) := by
  simp [raddrTurn, State.hasBus, hb, hen, memReadWord, (rcb_access hc hb).1]

theorem raddrTurn_of_disabled (hen : ¬ raddrEnabled s.cfg (s.bus b) = true) : raddrTurn b s = .next s := by
  simp [raddrTurn, hen]

/-! ## Events that lead from one state to another -/

/-- Taken one step each, the events `es` lead from `s` to `t`, whatever the script holds after them: the script of `s`
and of `t` does not matter. -/
def LeadsTo (es : List Event) (s t : State) : Prop :=
  ∀ rest, Host.Core.run Sys2Proof.core es.length { s with script := es ++ rest } = .next { t with script := rest }

/-- A run of one step is that step. -/
theorem run_one (s : State) : Host.Core.run Sys2Proof.core 1 s = step s := by
  have hcore : Sys2Proof.core.step s = step s := rfl
  simp only [Host.Core.run, hcore]
  cases step s <;> rfl

/-- A run that reached a state goes on from there. -/
theorem run_add_of_run (h : Host.Core.run Sys2Proof.core m s = .next t) :
    Host.Core.run Sys2Proof.core (m + n) s = Host.Core.run Sys2Proof.core n t := by
  induction m generalizing s with
  | zero => cases h; rw [Nat.zero_add]
  | succ m ih =>
    rw [Nat.succ_add]
    simp only [Host.Core.run] at h ⊢
    split at h
    · exact ih h
    · cases h
    · cases h

theorem LeadsTo.nil : LeadsTo [] s s := fun _ => rfl

theorem LeadsTo.append (h : LeadsTo es s u) (h' : LeadsTo es' u t) : LeadsTo (es ++ es') s t := by
  intro rest
  rw [List.length_append, List.append_assoc, run_add_of_run (h (es' ++ rest))]
  exact h' rest

/-- One event leads where the turn of its agent ends. -/
theorem LeadsTo.of_turn (hready : ready s)
    (h : ∀ rest, (perform e { s with script := rest }).outcome = .next { t with script := rest }) :
    LeadsTo [e] s t := by
  intro rest
  rw [List.length_singleton, run_one,
    step_script (s := { s with script := [e] ++ rest }) hready.1 hready.2 List.singleton_append]
  exact h rest

/-- The step of an event that leads to `t`. -/
theorem LeadsTo.step (h : LeadsTo [e] s t) (hs : s.script = e :: rest) : step s = .next { t with script := rest } := by
  have hrun := h rest
  rwa [List.singleton_append, ← hs, List.length_singleton, run_one] at hrun

/-- What events lead to is what running them ends in. -/
theorem LeadsTo.runs (h : LeadsTo es s t) : Claims.runs s es { t with script := [] } := by
  have hrun := h []
  rwa [List.append_nil] at hrun

/-! ## The steps of the ring -/

section

variable (hready : ready s) (hb : b < s.cfg.nbus)
include hready

theorem leadsTo_self_of_data (hen : ¬ dxferEnabled s.cfg (s.bus b) = true) : LeadsTo [.data b] s s :=
  .of_turn hready fun rest => dataTurn_of_disabled (s := { s with script := rest }) hen

theorem leadsTo_self_of_rcnt (hen : ¬ rcntEnabled (s.bus b) = true) : LeadsTo [.rcnt b] s s :=
  .of_turn hready fun rest => rcntTurn_of_disabled (s := { s with script := rest }) hen

theorem leadsTo_self_of_raddr (hen : ¬ raddrEnabled s.cfg (s.bus b) = true) : LeadsTo [.raddr b] s s :=
  .of_turn hready fun rest => raddrTurn_of_disabled (s := { s with script := rest }) hen

include hb

theorem leadsTo_dxfer (hen : dxferEnabled s.cfg (s.bus b) = true) :
    LeadsTo [.data b] s
      (s.setBus b (dxferBus (memReadByte s.cfg s.mem (s.bus b).dataReadAddr.toNat) (s.bus b))) :=
  .of_turn hready fun rest => dataTurn_of_enabled (s := { s with script := rest }) hb hen

theorem leadsTo_rcntx (hh : s.cfg.handoff = .split) (hen : rcntEnabled (s.bus b) = true) :
    LeadsTo [.rcnt b] s (s.setBus b (rcntBus (s.mem.readWord (rcbAddr s.cfg b + 4)) (s.bus b))) :=
  .of_turn hready fun rest => rcntTurn_of_split (s := { s with script := rest }) hready.1 hb hh hen

theorem leadsTo_rearm (hh : s.cfg.handoff = .atomic) (hen : rcntEnabled (s.bus b) = true) :
    LeadsTo [.rcnt b] s (s.setBus b
      (rearmBus (s.mem.readWord (rcbAddr s.cfg b + 4)) (s.mem.readWord (rcbAddr s.cfg b)) (s.bus b))) :=
  .of_turn hready fun rest => rcntTurn_of_atomic (s := { s with script := rest }) hready.1 hb hh hen

theorem leadsTo_raddrx (hen : raddrEnabled s.cfg (s.bus b) = true) :
    LeadsTo [.raddr b] s (s.setBus b (raddrBus (s.mem.readWord (rcbAddr s.cfg b)) (s.bus b))) :=
  .of_turn hready fun rest => raddrTurn_of_enabled (s := { s with script := rest }) hready.1 hb hen

end

end

end Sys2Proof.Machine
end

section
/-! SUPPORT. Runs of the ring the statements on it use: bytes of a pass delivered one after the other (R176), a whole
re-arm under either hand-off (R178 to R181), and a whole `SWAP` (R203). -/

namespace Sys2Proof.Machine

open Sys2Proof.Claims

section

variable {s t : State} {x : Bus} {b k : Nat}

/-- The last write of a bus stays. -/
theorem setBus_setBus (s : State) (b : Nat) (x y : Bus) : (s.setBus b x).setBus b y = s.setBus b y := by
  simp [State.setBus]

/-! ## A run of the data channel -/

/-- The bus once its data channel has moved the next `k` bytes of the pass. -/
def deliveredBus (m : Memory) (k : Nat) (x : Bus) : Bus :=
  { x with
    txq := x.txq ++ (List.range k).map fun i => m.read (x.dataReadAddr + BitVec.ofNat 32 i).toNat
    dataReadAddr := x.dataReadAddr + BitVec.ofNat 32 k
    dataTransCount := x.dataTransCount - BitVec.ofNat 32 k
    dataBusy := decide (k < x.dataTransCount.toNat)
    rcntPend := x.rcntPend || decide (k = x.dataTransCount.toNat) }

theorem deliveredBus_zero (m : Memory) (hbusy : x.dataBusy = true) (hcount : 0 < x.dataTransCount.toNat) :
    deliveredBus m 0 x = x := by
  simp [deliveredBus, hcount, hcount.ne, ← hbusy]

/-- One byte more. -/
theorem deliveredBus_succ (m : Memory) (hk : k < x.dataTransCount.toNat) :
    movedByte (m.read (x.dataReadAddr + BitVec.ofNat 32 k).toNat) (deliveredBus m k x) = deliveredBus m (k + 1) x := by
  have haddr : x.dataReadAddr + BitVec.ofNat 32 k + 1#32 = x.dataReadAddr + BitVec.ofNat 32 (k + 1) := by bv_omega
  have hcount : x.dataTransCount - BitVec.ofNat 32 k - 1#32 = x.dataTransCount - BitVec.ofNat 32 (k + 1) := by bv_omega
  have hlast : x.dataTransCount - BitVec.ofNat 32 k = 1#32 ↔ k + 1 = x.dataTransCount.toNat := by bv_omega
  have hmore : k + 1 < x.dataTransCount.toNat ↔ ¬ k + 1 = x.dataTransCount.toNat := by omega
  rw [movedByte_of_busy _ (decide_eq_true hk)]
  simp [deliveredBus, List.range_succ, haddr, hcount, hlast, hmore, hk.ne]

/-- The data channel of bus `b` can move the next `k` bytes of a pass in progress: they are within the count, the queue
has room for them, and they are backed (R176). -/
structure CanDeliver (s : State) (b k : Nat) : Prop where
  isReady : ready s
  busCount : s.buses.length = s.cfg.nbus
  inRange : b < s.cfg.nbus
  busy : (s.bus b).dataBusy = true
  healthy : noFault s b
  withinCount : k ≤ (s.bus b).dataTransCount.toNat
  count_pos : 0 < (s.bus b).dataTransCount.toNat
  room : (s.bus b).txq.length + k ≤ s.cfg.txqDepth
  backed : ∀ i, i < k → backedByte s.cfg ((s.bus b).dataReadAddr + BitVec.ofNat 32 i).toNat = true

/-- `k` turns of the data channel move the next `k` bytes, by induction on `k`. -/
theorem CanDeliver.leadsTo (h : CanDeliver s b k) :
    LeadsTo (List.replicate k (.data b)) s (s.setBus b (deliveredBus s.mem k (s.bus b))) := by
  induction k with
  | zero =>
    rw [deliveredBus_zero _ h.busy h.count_pos, setBus_bus_self]
    exact .nil
  | succ k ih =>
    have hk : k < (s.bus b).dataTransCount.toNat := h.withinCount
    have hroom := h.room
    have hbefore := ih { h with
      withinCount := hk.le, room := by omega, backed := fun i hi => h.backed i (by omega) }
    have hbus := bus_setBus_same s b (deliveredBus s.mem k (s.bus b)) (h.busCount.symm ▸ h.inRange)
    have hen : dxferEnabled s.cfg (deliveredBus s.mem k (s.bus b)) = true := by
      refine dxferEnabled_iff.2 ⟨decide_eq_true hk, ?_, ?_, dmaHalted_eq_false_iff.2 h.healthy⟩
      · unfold deliveredBus
        bv_omega
      · simp [deliveredBus]
        omega
    have hturn := leadsTo_dxfer (s := s.setBus b (deliveredBus s.mem k (s.bus b))) (b := b) h.isReady h.inRange
      (by rw [hbus]; exact hen)
    have hread : memReadByte s.cfg s.mem (deliveredBus s.mem k (s.bus b)).dataReadAddr.toNat = some _ :=
      memReadByte_some.2 ⟨h.backed k (by omega), rfl⟩
    rw [hbus, setBus_setBus] at hturn
    simp only [setBus_cfg, setBus_mem, hread] at hturn
    rw [← deliveredBus_succ _ hk, List.replicate_succ']
    exact hbefore.append hturn

/-! ## A whole re-arm -/

/-- The bus once a re-arm has loaded the count `n` and the address `a` and started the data channel; `p` is what is left
of `RADDR_PEND`. -/
def restartedBus (n a : Word) (p : Bool) (x : Bus) : Bus :=
  { x with
    dataTransCount := n, rcntPend := false, raddrPend := p, dataReadAddr := a, activeBase := a, dataBusy := true }

theorem rearmBus_of_count {n : Word} (a : Word) (hn : n ≠ 0) :
    rearmBus n a x = restartedBus n a x.raddrPend x := trigger_of_count hn

theorem raddrBus_rcntBus_of_count {n : Word} (a : Word) (hn : n ≠ 0) :
    raddrBus a (rcntBus n x) = restartedBus n a false x := trigger_of_count hn

/-- Under either hand-off a pending re-arm that finds a count in the record starts the pass of the record. -/
theorem leadsTo_rearmEvents {addr len : Word} (hready : ready s) (hcount : s.buses.length = s.cfg.nbus)
    (hb : b < s.cfg.nbus) (hbus : s.bus b = x) (hpend : x.rcntPend = true) (hrun : dmaHalted x = false)
    (haddr : s.mem.readWord (rcbAddr s.cfg b) = addr) (hlen : s.mem.readWord (rcbAddr s.cfg b + 4) = len)
    (hne : len ≠ 0) :
    ∃ p, LeadsTo (rearmEvents s.cfg.handoff b) s (s.setBus b (restartedBus len addr p x)) := by
  subst hbus haddr hlen
  have hrcnt := rcntEnabled_iff.2 ⟨hpend, hrun⟩
  unfold rearmEvents
  split
  next hh =>
    refine ⟨(s.bus b).raddrPend, ?_⟩
    rw [← rearmBus_of_count _ hne]
    exact leadsTo_rearm hready hb hh hrcnt
  next hh =>
    have hfirst := leadsTo_rcntx hready hb hh hrcnt
    have hbus := bus_setBus_same s b (rcntBus (s.mem.readWord (rcbAddr s.cfg b + 4)) (s.bus b)) (hcount.symm ▸ hb)
    have hraddr : raddrEnabled s.cfg (rcntBus (s.mem.readWord (rcbAddr s.cfg b + 4)) (s.bus b)) = true :=
      raddrEnabled_iff.2 ⟨hh, rfl, hrun⟩
    have hsecond := leadsTo_raddrx (s := s.setBus b (rcntBus (s.mem.readWord (rcbAddr s.cfg b + 4)) (s.bus b)))
      hready hb (hbus.symm ▸ hraddr)
    rw [hbus, setBus_setBus] at hsecond
    refine ⟨false, ?_⟩
    rw [← raddrBus_rcntBus_of_count _ hne]
    exact hfirst.append hsecond

/-! ## `SWAP` -/

/-- An accepted `SWAP` under `atomic`, whole (R203). -/
theorem exec_swap_of_atomic {k : BitVec 4} (hc : cfgWf s.cfg = true) (hk : k.toNat < s.cfg.nbus)
    (hl : badLength s.arg1 = false) (hh : s.cfg.handoff = .atomic) :
    exec (.swap k) s = .next ({ s.setBus k.toNat (retain s.arg0 s.arg1 (s.bus k.toNat)) with
      mem := (s.mem.writeWord (rcbAddr s.cfg k.toNat) s.arg0).writeWord (rcbAddr s.cfg k.toNat + 4) s.arg1 }.finish
        .ok) := by
  simp [exec, execSwap, State.hasBus, State.bufAddr, State.bufLen, hk, hl, hh, writeRcb_answers hc hk]

/-- The first step of an accepted `SWAP` under `split` (R203). -/
theorem exec_swap_of_split {k : BitVec 4} (hc : cfgWf s.cfg = true) (hk : k.toNat < s.cfg.nbus)
    (hl : badLength s.arg1 = false) (hh : s.cfg.handoff = .split) :
    exec (.swap k) s = .next { s.setBus k.toNat (retain s.arg0 s.arg1 (s.bus k.toNat)) with
      mem := s.mem.writeWord (rcbAddr s.cfg k.toNat) s.arg0, hstate := .swap2 k.toNat s.arg1 } := by
  simp [exec, execSwap, State.hasBus, State.bufAddr, State.bufLen, hk, hl, hh, memWriteWord, (rcb_access hc hk).1]

/-- The second step of a `SWAP` under `split` (R203). -/
theorem swapSecond_of_access (hc : cfgWf s.cfg = true) (hb : b < s.cfg.nbus) (len : Word) :
    swapSecond b len s = .next ({ s with mem := s.mem.writeWord (rcbAddr s.cfg b + 4) len }.finish .ok) := by
  simp [swapSecond, memWriteWord, (rcb_access hc hb).2]

/-- With an idle port the issue of a command leads where the command ends that its word decodes to (R200). -/
theorem LeadsTo.of_issue {a0 a1 a2 : Option Word} {w : Word} {i : Instr} (hready : ready s) (hi : s.hstate = .idle)
    (hd : decode (.cmd w) = .ok i)
    (h : ∀ rest, exec i (State.portWritten { s with script := rest } a0 a1 a2 w) = .next { t with script := rest }) :
    LeadsTo [.issue a0 a1 a2 w] s t := by
  refine .of_turn hready fun rest => ?_
  have hcmd : (State.portWritten { s with script := rest } a0 a1 a2 w).cmd = w := rfl
  rw [← h rest, perform, issueTurn, if_pos hi, runCommand, hcmd, hd]
  rfl

theorem decode_swapWord (k : BitVec 4) : decode (.cmd (0x2#4 ++ k ++ 0#24)) = .ok (.swap k) :=
  Proofs.Encoding.decodeInvertsEncode (.swap k)

/-- The state after the first step of a `SWAP` of bus `k` under `split`, with the operands given in the issue. -/
def State.swappedFirst (s : State) (k : BitVec 4) (addr len : Word) : State :=
  { s.setBus k.toNat (retain addr len (s.bus k.toNat)) with
    mem := s.mem.writeWord (rcbAddr s.cfg k.toNat) addr
    arg0 := addr, arg1 := len, cmd := 0x2#4 ++ k ++ 0#24, hstate := .swap2 k.toNat len }

/-- The state after a whole `SWAP` of bus `k`, with the operands given in the issue. -/
def State.swapped (s : State) (k : BitVec 4) (addr len : Word) : State :=
  { s.setBus k.toNat (retain addr len (s.bus k.toNat)) with
    mem := (s.mem.writeWord (rcbAddr s.cfg k.toNat) addr).writeWord (rcbAddr s.cfg k.toNat + 4) len
    arg0 := addr, arg1 := len, cmd := 0x2#4 ++ k ++ 0#24, status := 0, hstate := .idle }

section

variable (k : BitVec 4) (addr len : Word)

@[simp] theorem swappedFirst_cfg : (s.swappedFirst k addr len).cfg = s.cfg := rfl
@[simp] theorem swappedFirst_length : (s.swappedFirst k addr len).buses.length = s.buses.length :=
  setBus_length _ _ _
@[simp] theorem swapped_cfg : (s.swapped k addr len).cfg = s.cfg := rfl
@[simp] theorem swapped_length : (s.swapped k addr len).buses.length = s.buses.length := setBus_length _ _ _

variable {k}

theorem bus_swappedFirst (hk : k.toNat < s.buses.length) :
    (s.swappedFirst k addr len).bus k.toNat = retain addr len (s.bus k.toNat) := bus_setBus_same s _ _ hk

theorem bus_swapped (hk : k.toNat < s.buses.length) :
    (s.swapped k addr len).bus k.toNat = retain addr len (s.bus k.toNat) := bus_setBus_same s _ _ hk

end

theorem leadsTo_swapSecond {len : Word} (hready : ready s) (hb : b < s.cfg.nbus) (hi : s.hstate = .swap2 b len) :
    LeadsTo [.hostLoop] s ({ s with mem := s.mem.writeWord (rcbAddr s.cfg b + 4) len }.finish .ok) :=
  .of_turn hready fun rest => by
    rw [perform, outcome_done, hostLoopTurn, hi]
    exact swapSecond_of_access (s := { s with script := rest }) hready.1 hb len

section

variable {addr len : Word} {k : BitVec 4} (hready : ready s) (hk : k.toNat < s.cfg.nbus) (hi : s.hstate = .idle)
  (hl : badLength len = false)
include hready hk hi hl

theorem leadsTo_swapFirst (hh : s.cfg.handoff = .split) :
    LeadsTo [.issue (some addr) (some len) none (0x2#4 ++ k ++ 0#24)] s (s.swappedFirst k addr len) := by
  refine .of_issue hready hi (decode_swapWord k) fun rest => ?_
  exact exec_swap_of_split (s := State.portWritten _ _ _ _ _) hready.1 hk hl hh

/-- Under either hand-off the steps of an accepted `SWAP` retain the buffer and write both words of the record. -/
theorem leadsTo_swapEvents : LeadsTo (swapEvents s.cfg.handoff k addr len) s (s.swapped k addr len) := by
  unfold swapEvents
  split
  next hh =>
    refine .of_issue hready hi (decode_swapWord k) fun rest => ?_
    exact exec_swap_of_atomic (s := State.portWritten _ _ _ _ _) hready.1 hk hl hh
  next hh =>
    exact (leadsTo_swapFirst hready hk hi hl hh).append
      (leadsTo_swapSecond (s := s.swappedFirst k addr len) hready hk rfl)

end

end

end Sys2Proof.Machine
end

section
/-! SUPPORT. What steps of the other agents leave of a ring (R176 to R180, R203), and how far a ring is after a pass that
was in progress when the record of its bus was last written: over every schedule of the agents without a `PLAY` or `SWAP` of
the bus (R188). -/

namespace Sys2Proof.Machine

open Sys2Proof.Claims

variable {s t u : State} {x y x₀ : Bus} {b n : Nat} {cfg : Config} {addr len : Word}

/-! ## The ring between the steps of its data channel -/

/-- The ring registers of a bus are as they were: the data channel, its base, and the two pending re-arms. -/
structure SameRing (x y : Bus) : Prop where
  dataReadAddr : y.dataReadAddr = x.dataReadAddr
  dataTransCount : y.dataTransCount = x.dataTransCount
  dataBusy : y.dataBusy = x.dataBusy
  activeBase : y.activeBase = x.activeBase
  rcntPend : y.rcntPend = x.rcntPend
  raddrPend : y.raddrPend = x.raddrPend

/-- Without a step of its data channel and a `PLAY` of it, a bus keeps its ring registers, but for an enabled re-arm
(R176 to R180, R203). -/
theorem BusCase.ring_cases (hc : BusCase s b y) (hdata : ¬ (s.event = .data b ∧ dxferEnabled s.cfg (s.bus b) = true))
    (hplay : ∀ k p, Issues s (.play k) p → k.toNat ≠ b) :
    SameRing (s.bus b) y
      ∨ (rcntEnabled (s.bus b) = true ∧ y = rcntBus (s.mem.readWord (rcbAddr s.cfg b + 4)) (s.bus b))
      ∨ (rcntEnabled (s.bus b) = true
        ∧ y = rearmBus (s.mem.readWord (rcbAddr s.cfg b + 4)) (s.mem.readWord (rcbAddr s.cfg b)) (s.bus b))
      ∨ (raddrEnabled s.cfg (s.bus b) = true ∧ y = raddrBus (s.mem.readWord (rcbAddr s.cfg b)) (s.bus b)) := by
  cases hc with
  | dxfer he hb hen => exact absurd ⟨he, hen⟩ hdata
  | play k p hp hk => exact absurd hk (hplay k p hp)
  | rcntx he hb hen => exact .inr (.inl ⟨hen, rfl⟩)
  | rearm he hb hen => exact .inr (.inr (.inl ⟨hen, rfl⟩))
  | raddrx he hb hen => exact .inr (.inr (.inr ⟨hen, rfl⟩))
  | outb => rw [outbBus_frame]; exact .inl ⟨rfl, rfl, rfl, rfl, rfl, rfl⟩
  | same | nopc | swap => exact .inl ⟨rfl, rfl, rfl, rfl, rfl, rfl⟩

theorem not_issues_play (h : ¬ issuesPlay s b) (k : BitVec 4) (p : State) (hp : Issues s (.play k) p) : k.toNat ≠ b :=
  fun hk => h (hk ▸ Proofs.MachineState.issuesPlay_of_issues hp)

theorem not_issues_swap (h : ¬ issuesSwap s b) (k : BitVec 4) (p : State) (hp : Issues s (.swap k) p) :
    k.toNat ≠ b := by
  obtain ⟨a0, a1, a2, w, he, hi, hd⟩ := hp
  exact fun hk => h ⟨hi, a0, a1, a2, w, k, he, hd, hk⟩

/-! ## The record between a `SWAP` and the next command -/

/-- Only the first step of a `SWAP` of bus `b` leaves its second step to do (R203). -/
theorem StepCase.not_swap2 (hc : StepCase s t) (h : ∀ l, s.hstate ≠ .swap2 b l)
    (hswap : ∀ k p, Issues s (.swap k) p → k.toNat ≠ b) (l : Word) : t.hstate ≠ .swap2 b l := by
  cases hc with
  | swapFirst k p hp => exact fun hl => hswap k p hp (HState.swap2.inj hl).1
  | updpwrFirst | updpwrLoop => rw [afterPower_eq]; dsimp only; split <;> simp
  | drainFirst p hp => unfold drainIter; split <;> simp
  | drainLoop he hi => unfold drainIter; split <;> simp [hi]
  | snp => rw [takeReading_frame]; simpa using h l
  | rejected | play | swap | rdreg | illegal | swapSecond => simp
  | _ => simpa using h l

/-- Without a `PLAY` or `SWAP` of the bus and with no `SWAP` of it half done, its record stays. -/
theorem RecordCase.kept {a l : Word} (hc : RecordCase s b a l) (hplay : ∀ k p, Issues s (.play k) p → k.toNat ≠ b)
    (hswap : ∀ k p, Issues s (.swap k) p → k.toNat ≠ b) (h : ∀ l, s.hstate ≠ .swap2 b l) :
    a = s.mem.readWord (rcbAddr s.cfg b) ∧ l = s.mem.readWord (rcbAddr s.cfg b + 4) := by
  cases hc with
  | same => exact ⟨rfl, rfl⟩
  | both i k p hp hi hk hl =>
    obtain rfl | ⟨rfl, -⟩ := hi
    · exact absurd hk (hplay k p hp)
    · exact absurd hk (hswap k p hp)
  | address k p hp hk => exact absurd hk (hswap k p hp)
  | count len hi => exact absurd hi (h _)

/-! ## How far the ring is -/

/-- How far the ring of a bus is, `n` bytes after it was `x₀` with a pass in progress, when the record holds `addr` and
`len`: still in that pass, at a re-arm, at the start of the pass of the record, or past its first byte (R188). -/
inductive Progress (x₀ : Bus) (addr len : Word) : Nat → Bus → Prop
  | reading {n : Nat} {x : Bus} (hn : n < x₀.dataTransCount.toNat) (hbusy : x.dataBusy = true)
      (hbase : x.activeBase = x₀.activeBase) (haddr : x.dataReadAddr = x₀.dataReadAddr + BitVec.ofNat 32 n)
      (hcount : x.dataTransCount = x₀.dataTransCount - BitVec.ofNat 32 n) : Progress x₀ addr len n x
  | countDue {x : Bus} (hpend : x.rcntPend = true) (hbase : x.activeBase = x₀.activeBase) :
      Progress x₀ addr len x₀.dataTransCount.toNat x
  | addrDue {x : Bus} (hpend : x.raddrPend = true) (hbase : x.activeBase = x₀.activeBase)
      (hcount : x.dataTransCount = len) : Progress x₀ addr len x₀.dataTransCount.toNat x
  | begun {x : Bus} (hbusy : x.dataBusy = true) (hbase : x.activeBase = addr) (haddr : x.dataReadAddr = addr)
      (hcount : x.dataTransCount = len) : Progress x₀ addr len x₀.dataTransCount.toNat x
  | beyond {n : Nat} {x : Bus} (hn : x₀.dataTransCount.toNat < n) (hbase : x.activeBase = addr) :
      Progress x₀ addr len n x

theorem Progress.of_lt (h : Progress x₀ addr len n x) (hn : n < x₀.dataTransCount.toNat) :
    x.dataBusy = true ∧ x.activeBase = x₀.activeBase ∧ x.dataReadAddr = x₀.dataReadAddr + BitVec.ofNat 32 n
      ∧ x.dataTransCount = x₀.dataTransCount - BitVec.ofNat 32 n := by
  cases h with
  | reading _ hbusy hbase haddr hcount => exact ⟨hbusy, hbase, haddr, hcount⟩
  | countDue | addrDue | begun => exact absurd hn (lt_irrefl _)
  | beyond hgt => omega

theorem Progress.of_eq (h : Progress x₀ addr len n x) (hn : n = x₀.dataTransCount.toNat) :
    (x.rcntPend = true ∧ x.activeBase = x₀.activeBase)
      ∨ (x.raddrPend = true ∧ x.activeBase = x₀.activeBase ∧ x.dataTransCount = len)
      ∨ (x.dataBusy = true ∧ x.activeBase = addr ∧ x.dataReadAddr = addr ∧ x.dataTransCount = len) := by
  cases h with
  | reading hlt => omega
  | countDue hpend hbase => exact .inl ⟨hpend, hbase⟩
  | addrDue hpend hbase hcount => exact .inr (.inl ⟨hpend, hbase, hcount⟩)
  | begun hbusy hbase haddr hcount => exact .inr (.inr ⟨hbusy, hbase, haddr, hcount⟩)
  | beyond hgt => omega

theorem Progress.of_gt (h : Progress x₀ addr len n x) (hn : x₀.dataTransCount.toNat < n) : x.activeBase = addr := by
  cases h with
  | reading hlt => omega
  | countDue | addrDue | begun => exact absurd hn (lt_irrefl _)
  | beyond _ hbase => exact hbase

/-- A byte moved, in a bus in order (R176). -/
theorem Progress.movedByte (h : Progress x₀ addr len n x) (hx : BusInv cfg x) (hbusy : x.dataBusy = true) (v : Byte) :
    Progress x₀ addr len (n + 1) (movedByte v x) := by
  cases h with
  | reading hn _ hbase haddr hcount =>
    rw [movedByte_of_busy v hbusy]
    obtain hmore | hlast := Nat.lt_or_eq_of_le (Nat.succ_le_of_lt hn)
    · refine .reading hmore (decide_eq_true ?_) hbase ?_ ?_
      · bv_omega
      · rw [haddr]; bv_omega
      · rw [hcount]; bv_omega
    · rw [← Nat.succ_eq_add_one, hlast]
      refine .countDue ?_ hbase
      have hone : x.dataTransCount = 1 := by bv_omega
      simp [hone]
  | countDue hpend => exact absurd ⟨hbusy, hpend⟩ hx.notDataAndCount
  | addrDue hpend => exact absurd ⟨hbusy, hpend⟩ hx.notDataAndAddr
  | begun _ hbase => exact .beyond (Nat.lt_succ_self _) hbase
  | beyond hn hbase => exact .beyond (Nat.lt_succ_of_lt hn) hbase

/-- The progress is a matter of the ring registers alone. -/
theorem Progress.congr (h : Progress x₀ addr len n x) (hxy : SameRing x y) : Progress x₀ addr len n y := by
  cases h with
  | reading hn hbusy hbase haddr hcount =>
    exact .reading hn (hxy.dataBusy.trans hbusy) (hxy.activeBase.trans hbase) (hxy.dataReadAddr.trans haddr)
      (hxy.dataTransCount.trans hcount)
  | countDue hpend hbase => exact .countDue (hxy.rcntPend.trans hpend) (hxy.activeBase.trans hbase)
  | addrDue hpend hbase hcount =>
    exact .addrDue (hxy.raddrPend.trans hpend) (hxy.activeBase.trans hbase) (hxy.dataTransCount.trans hcount)
  | begun hbusy hbase haddr hcount =>
    exact .begun (hxy.dataBusy.trans hbusy) (hxy.activeBase.trans hbase) (hxy.dataReadAddr.trans haddr)
      (hxy.dataTransCount.trans hcount)
  | beyond hn hbase => exact .beyond hn (hxy.activeBase.trans hbase)

/-- A count re-arm that becomes an address re-arm with the count of the record (R178). -/
theorem Progress.rcntx (h : Progress x₀ addr len n x) (hx : BusInv cfg x) (hpend : x.rcntPend = true) :
    Progress x₀ addr len n (rcntBus len x) := by
  cases h with
  | reading _ hbusy | begun hbusy => exact absurd ⟨hbusy, hpend⟩ hx.notDataAndCount
  | addrDue hpend' => exact absurd ⟨hpend, hpend'⟩ hx.notCountAndAddr
  | countDue _ hbase => exact .addrDue rfl hbase rfl
  | beyond hn hbase => exact .beyond hn hbase

/-- A trigger that does not fault found a count (R181). -/
theorem count_of_trigger_noFault {a : Word} (h : (trigger a x).zeroCountFault = false) : x.dataTransCount ≠ 0 :=
  fun hzero => by simp [trigger_of_zero hzero] at h

/-- A count re-arm that loads the record whole, and meets no zero count (R180). -/
theorem Progress.rearm (h : Progress x₀ addr len n x) (hx : BusInv cfg x) (hpend : x.rcntPend = true)
    (hok : (rearmBus len addr x).zeroCountFault = false) : Progress x₀ addr len n (rearmBus len addr x) := by
  rw [rearmBus_of_count addr (count_of_trigger_noFault hok)]
  cases h with
  | reading _ hbusy | begun hbusy => exact absurd ⟨hbusy, hpend⟩ hx.notDataAndCount
  | addrDue hpend' => exact absurd ⟨hpend, hpend'⟩ hx.notCountAndAddr
  | countDue => exact .begun rfl rfl rfl rfl
  | beyond hn => exact .beyond hn rfl

/-- An address re-arm that loads the address of the record, and meets no zero count (R179). -/
theorem Progress.raddrx (h : Progress x₀ addr len n x) (hx : BusInv cfg x) (hpend : x.raddrPend = true)
    (hok : (raddrBus addr x).zeroCountFault = false) : Progress x₀ addr len n (raddrBus addr x) := by
  rw [raddrBus, trigger_of_count (count_of_trigger_noFault hok)]
  cases h with
  | reading _ hbusy | begun hbusy => exact absurd ⟨hbusy, hpend⟩ hx.notDataAndAddr
  | countDue hpend' => exact absurd ⟨hpend', hpend⟩ hx.notCountAndAddr
  | addrDue _ _ hcount => exact .begun rfl rfl rfl hcount
  | beyond hn => exact .beyond hn rfl

/-! ## The ring over an undisturbed run -/

/-- A bus without fault at the end of a run had none at its start: no step clears a flag (R35). -/
theorem noFault_of_step (h : step s = .next t) (hok : noFault t b) : noFault s b := by
  have hc := bus_cases h b
  obtain ⟨hbus, hzero⟩ := hok
  refine ⟨Bool.eq_false_iff.2 fun hset => ?_, Bool.eq_false_iff.2 fun hset => ?_⟩
  · simp [hc.busFault_of_set hset] at hbus
  · simp [hc.zeroCountFault_of_set hset] at hzero

theorem noFault_of_run (h : UndisturbedRun b s n u) (hok : noFault u b) : noFault s b := by
  induction h with
  | done => exact hok
  | more hstep _ _ _ _ ih => exact noFault_of_step hstep (ih hok)

/-- What an enabled turn of the data channel makes of its bus (R176). -/
theorem bus_of_dataStep (h : step s = .next t) (he : s.event = .data b) (hb : b < s.cfg.nbus)
    (hin : b < s.buses.length) (hen : dxferEnabled s.cfg (s.bus b) = true) :
    t.bus b = dxferBus (memReadByte s.cfg s.mem (s.bus b).dataReadAddr.toNat) (s.bus b) := by
  obtain ⟨hc, hr, -⟩ := step_cases h
  rw [step_eq_perform hc hr, he, perform, outcome_done,
    dataTurn_of_enabled (by simpa using hb) (by simpa using hen)] at h
  cases h
  simpa using bus_setBus_same s.chosen b _ (by simpa using hin)

/-- What holds along an undisturbed run, `n` bytes after the bus was `x₀` and the record held `addr` and `len`. -/
structure OnTheWay (x₀ : Bus) (addr len : Word) (b n : Nat) (s : State) : Prop where
  inv : MachineInv s
  retained : retainedValid s
  inRange : b < s.cfg.nbus
  noSwap : ∀ l, s.hstate ≠ .swap2 b l
  address : s.mem.readWord (rcbAddr s.cfg b) = addr
  count : s.mem.readWord (rcbAddr s.cfg b + 4) = len
  progress : Progress x₀ addr len n (s.bus b)

/-- A step of the data channel that does not fault brings the ring one byte on; another step keeps its place. -/
theorem OnTheWay.progress_step (h : OnTheWay x₀ addr len b n s) (hstep : step s = .next t) (hplay : ¬ issuesPlay s b)
    (hok : noFault t b) :
    Progress x₀ addr len (n + if s.event = .data b ∧ dxferEnabled s.cfg (s.bus b) = true then 1 else 0) (t.bus b) := by
  have hx := h.inv.busOk b h.inRange
  split
  next hdata =>
    obtain ⟨he, hen⟩ := hdata
    have ht := bus_of_dataStep hstep he h.inRange (h.inv.busCount.symm ▸ h.inRange) hen
    rw [ht]
    rw [noFault, ht] at hok
    cases hr : memReadByte s.cfg s.mem (s.bus b).dataReadAddr.toNat with
    | none => simp [hr, dxferBus] at hok
    | some v => exact h.progress.movedByte hx (dxferEnabled_iff.1 hen).1 v
  next hdata =>
    obtain hsame | ⟨hen, ht⟩ | ⟨hen, ht⟩ | ⟨hen, ht⟩ := (bus_cases hstep b).ring_cases hdata (not_issues_play hplay)
    · exact h.progress.congr hsame
    · rw [ht, h.count]
      exact h.progress.rcntx hx (rcntEnabled_iff.1 hen).1
    · rw [h.count, h.address] at ht
      rw [noFault, ht] at hok
      rw [ht]
      exact h.progress.rearm hx (rcntEnabled_iff.1 hen).1 hok.2
    · rw [h.address] at ht
      rw [noFault, ht] at hok
      rw [ht]
      exact h.progress.raddrx hx (raddrEnabled_iff.1 hen).2.1 hok.2

theorem OnTheWay.step (h : OnTheWay x₀ addr len b n s) (hstep : Machine.step s = .next t)
    (hin : s.hstate = .idle → eventInContract s s.event) (hplay : ¬ issuesPlay s b) (hswap : ¬ issuesSwap s b)
    (hok : noFault t b) :
    OnTheWay x₀ addr len b (n + if s.event = .data b ∧ dxferEnabled s.cfg (s.bus b) = true then 1 else 0) t := by
  obtain ⟨hcfg, -⟩ := Proofs.MachineState.stepKeepsParameters s t hstep
  obtain ⟨-, -, hc⟩ := step_cases hstep
  obtain ⟨haddr, hcount⟩ := (record_cases h.inv h.retained hin hstep h.inRange).kept (not_issues_play hplay)
    (not_issues_swap hswap) h.noSwap
  exact {
    inv := Proofs.MachineState.stepKeepsMachineInvariant s t h.inv hstep
    retained := retainedValid_of_step h.retained hin hstep
    inRange := hcfg ▸ h.inRange
    noSwap := hc.not_swap2 h.noSwap (not_issues_swap hswap)
    address := by rw [hcfg, haddr, h.address]
    count := by rw [hcfg, hcount, h.count]
    progress := h.progress_step hstep hplay hok }

/-- The end of an undisturbed run that meets no fault, by induction on the run. -/
theorem OnTheWay.run {m : Nat} (h : OnTheWay x₀ addr len b m s) (hrun : UndisturbedRun b s n u) (hok : noFault u b) :
    OnTheWay x₀ addr len b (m + n) u := by
  induction hrun generalizing m with
  | done => exact h
  | more hstep hin hplay hswap hrest ih =>
    have hnext := ih (h.step hstep hin hplay hswap (noFault_of_run hrest hok)) hok
    rwa [Nat.add_assoc, Nat.add_comm (ite _ _ _)] at hnext

end Sys2Proof.Machine
end

section
/-! PROOFS of the statements on the DMA ring (spec 43_dma_ring.md). -/

namespace Sys2Proof.Proofs.DmaRing

open Sys2Proof Sys2Proof.Machine Sys2Proof.Claims

/-! ## One turn of a channel -/

/-- Settles O44: the turn of the data channel, enabled at a backed and at an unbacked address, and not enabled. -/
theorem dxferMovesOneByteOrWaits : Obligations.DxferMovesOneByteOrWaits := by
  unfold Obligations.DxferMovesOneByteOrWaits
  intro s b rest hready hcount hb hs
  refine ⟨fun hbusy hne hroom hok => ?_, fun hwait => (leadsTo_self_of_data hready fun hen => ?_).step hs⟩
  · have hen := dxferEnabled_iff.2 ⟨hbusy, hne, hroom, dmaHalted_eq_false_iff.2 hok⟩
    have hbus := bus_setBus_same s b (dxferBus (memReadByte s.cfg s.mem (s.bus b).dataReadAddr.toNat) (s.bus b))
      (hcount.symm ▸ hb)
    refine ⟨_, (leadsTo_dxfer hready hb hen).step hs, onlyBus_setBus _ _ _, fun hw => hbus.trans ?_,
      fun hw => hbus.trans ?_⟩
    · rw [memReadByte_some.2 ⟨hw, rfl⟩]
      exact movedByte_of_busy _ hbusy
    · rw [memReadByte, hw]
      rfl
  · obtain ⟨hbusy, hne, hroom, hok⟩ := dxferEnabled_iff.1 hen
    obtain hidle | hdone | hfull | hfault := hwait
    · simp [hidle] at hbusy
    · exact hne hdone
    · omega
    · exact hfault (dmaHalted_eq_false_iff.1 hok)

/-- Settles O45: the turn of the count channel under `split`, enabled and not enabled. -/
theorem rcntxLoadsTheCount : Obligations.RcntxLoadsTheCount := by
  unfold Obligations.RcntxLoadsTheCount
  intro s b rest hready hcount hb hs hh
  refine ⟨fun hpend hok => ?_, fun hwait => (leadsTo_self_of_rcnt hready (not_rcntEnabled hwait)).step hs⟩
  have hen := rcntEnabled_iff.2 ⟨hpend, dmaHalted_eq_false_iff.2 hok⟩
  exact ⟨_, (leadsTo_rcntx hready hb hh hen).step hs, onlyBus_setBus _ _ _, bus_setBus_same s b _ (hcount.symm ▸ hb)⟩

/-- Settles O46: the turn of the address channel, enabled with a count and without one, and not enabled. -/
theorem raddrxRestartsTheChannel : Obligations.RaddrxRestartsTheChannel := by
  unfold Obligations.RaddrxRestartsTheChannel
  intro s b rest hready hcount hb hs
  refine ⟨fun hh hpend hok => ?_, fun hwait => (leadsTo_self_of_raddr hready fun hen => ?_).step hs⟩
  · have hen := raddrEnabled_iff.2 ⟨hh, hpend, dmaHalted_eq_false_iff.2 hok⟩
    have hbus := bus_setBus_same s b (raddrBus (s.mem.readWord (rcbAddr s.cfg b)) (s.bus b)) (hcount.symm ▸ hb)
    exact ⟨_, (leadsTo_raddrx hready hb hen).step hs, onlyBus_setBus _ _ _,
      fun hne => hbus.trans (trigger_of_count hne), fun hzero => hbus.trans (trigger_of_zero hzero)⟩
  · obtain ⟨hh, hpend, hok⟩ := raddrEnabled_iff.1 hen
    obtain hatomic | hnone | hfault := hwait
    · simp [hatomic] at hh
    · simp [hnone] at hpend
    · exact hfault (dmaHalted_eq_false_iff.1 hok)

/-- Settles O47: the turn of the count channel under `atomic`, enabled with a count and without one, and not enabled. -/
theorem rearmLoadsBothWords : Obligations.RearmLoadsBothWords := by
  unfold Obligations.RearmLoadsBothWords
  intro s b rest hready hcount hb hs hh
  refine ⟨fun hpend hok => ?_, fun hwait => (leadsTo_self_of_rcnt hready (not_rcntEnabled hwait)).step hs⟩
  have hen := rcntEnabled_iff.2 ⟨hpend, dmaHalted_eq_false_iff.2 hok⟩
  have hbus := bus_setBus_same s b
    (rearmBus (s.mem.readWord (rcbAddr s.cfg b + 4)) (s.mem.readWord (rcbAddr s.cfg b)) (s.bus b)) (hcount.symm ▸ hb)
  refine ⟨_, (leadsTo_rearm hready hb hh hen).step hs, onlyBus_setBus _ _ _,
    fun hne => hbus.trans (trigger_of_count hne), fun hzero => hbus.trans ?_⟩
  rw [rearmBus, trigger_of_zero hzero, hzero]

/-! ## Progress of the ring -/

/-- Settles O50: a started ring has one of its channels active, and each has a step but for a full queue. -/
theorem ringNeverStuck : Obligations.RingNeverStuck := by
  unfold Obligations.RingNeverStuck
  intro s b hm hb hon hok
  have hx := hm.busOk b hb
  have hrun := dmaHalted_eq_false_iff.2 hok
  obtain hbusy | hpend | hpend := hx.ringAlive hon hok.2
  · obtain hroom | hfull := Nat.lt_or_eq_of_le hx.txqFits
    · exact .inl (dxferEnabled_iff.2 ⟨hbusy, hx.busyCount hbusy, hroom, hrun⟩)
    · exact .inr (.inr (.inr hfull))
  · exact .inr (.inl (rcntEnabled_iff.2 ⟨hpend, hrun⟩))
  · have hsplit : s.cfg.handoff = .split := by
      cases hh : s.cfg.handoff with
      | atomic => simp [hx.atomicRearm hh] at hpend
      | split => rfl
    exact .inr (.inr (.inl (raddrEnabled_iff.2 ⟨hsplit, hpend, hrun⟩)))

/-- Settles O51: the run of the data channel, with no re-arm pending at its start. -/
theorem dataChannelDeliversInOrder : Obligations.DataChannelDeliversInOrder := by
  unfold Obligations.DataChannelDeliversInOrder
  intro s b k hready hcount hb hbusy hpend hok hk hpos hroom hbacked
  have h : CanDeliver s b k := ⟨hready, hcount, hb, hbusy, hok, hk, hpos, hroom, hbacked⟩
  refine ⟨_, h.leadsTo.runs, onlyBus_setBus _ _ _, (bus_setBus_same s b _ (hcount.symm ▸ hb)).trans ?_⟩
  simp [deliveredBus, hpend]

/-- Settles O52: with no re-arm pending, no other step touches the ring registers. -/
theorem passIsUndisturbed : Obligations.PassIsUndisturbed := by
  unfold Obligations.PassIsUndisturbed
  intro s t b hbusy hrcnt hraddr hstep hdata hplay
  have hc := (bus_cases hstep b).ring_cases (fun h => hdata h.1) (not_issues_play hplay)
  obtain hsame | ⟨hen, -⟩ | ⟨hen, -⟩ | ⟨hen, -⟩ := hc
  · exact ⟨hsame.dataReadAddr, hsame.dataTransCount, hsame.activeBase, hsame.dataBusy.trans hbusy⟩
  · simp [rcntEnabled, hrcnt] at hen
  · simp [rcntEnabled, hrcnt] at hen
  · simp [raddrEnabled, hraddr] at hen

/-! ## `SWAP` and the re-arm -/

/-- A `SWAP` under `split` whose first step comes before the transfer of the address and whose second step comes after
it: the pass that starts has the new address and the count loaded before (R187). -/
theorem leadsTo_swap_around_raddrx {s : State} {b : BitVec 4} {addr len : Word} (hready : ready s)
    (hwf : s.mem.wf = true) (hcount : s.buses.length = s.cfg.nbus) (hb : b.toNat < s.cfg.nbus)
    (hh : s.cfg.handoff = .split) (hi : s.hstate = .idle) (hpend : (s.bus b.toNat).raddrPend = true)
    (hok : noFault s b.toNat) (hl : badLength len = false) (hne : (s.bus b.toNat).dataTransCount ≠ 0) :
    ∃ t, LeadsTo [.issue (some addr) (some len) none (0x2#4 ++ b ++ 0#24), .raddr b.toNat, .hostLoop] s t
      ∧ t.bus b.toNat = { retain addr len (s.bus b.toNat) with
          raddrPend := false, dataReadAddr := addr, activeBase := addr, dataBusy := true }
      ∧ wordAt t (rcbAddr s.cfg b.toNat + 4) len := by
  have hin : b.toNat < s.buses.length := hcount.symm ▸ hb
  have hroom := backedRange_bound (rcb_backed hready.1 hb).2
  have hbus := bus_swappedFirst addr len hin
  have hread : (s.swappedFirst b addr len).mem.readWord (rcbAddr s.cfg b.toNat) = addr :=
    Memory.readWord_writeWord_same (a := rcbAddr s.cfg b.toNat) addr hwf (by omega)
  have hfirst := leadsTo_swapFirst (addr := addr) hready hb hi hl hh
  have hraddr := leadsTo_raddrx (s := s.swappedFirst b addr len) hready hb
    (hbus.symm ▸ raddrEnabled_iff.2 ⟨hh, hpend, dmaHalted_eq_false_iff.2 hok⟩)
  rw [hbus, swappedFirst_cfg, hread] at hraddr
  have hsecond := leadsTo_swapSecond (len := len)
    (s := (s.swappedFirst b addr len).setBus b.toNat (raddrBus addr (retain addr len (s.bus b.toNat)))) hready hb rfl
  refine ⟨_, (hfirst.append hraddr).append hsecond, ?_, fun k hk => ?_⟩
  · exact (bus_setBus_same _ _ _ (by simpa using hin)).trans (trigger_of_count hne)
  · exact Memory.read_writeWord_same (a := rcbAddr s.cfg b.toNat + 4) len
      (Memory.writeWord_wf (a := rcbAddr s.cfg b.toNat) addr hwf (by omega)) (by omega) hk

/-- Settles O55: `RCNTX` loads the old count, and the `SWAP` comes around the transfer of the address. -/
theorem mixedPassUnderSplit : Obligations.MixedPassUnderSplit := by
  unfold Obligations.MixedPassUnderSplit
  intro s b addr len hready hwf hcount hb hh hi hpend hok hne heven hold
  have hrcnt := leadsTo_rcntx hready hb hh (rcntEnabled_iff.2 ⟨hpend, dmaHalted_eq_false_iff.2 hok⟩)
  have hbus := bus_setBus_same s b.toNat (rcntBus (s.mem.readWord (rcbAddr s.cfg b.toNat + 4)) (s.bus b.toNat))
    (hcount.symm ▸ hb)
  obtain ⟨t, hswap, ht, hword⟩ := leadsTo_swap_around_raddrx (addr := addr) (s := s.setBus b.toNat _) hready hwf
    ((setBus_length _ _ _).trans hcount) hb hh hi (congrArg Bus.raddrPend hbus)
    ⟨(congrArg Bus.busFault hbus).trans hok.1, (congrArg Bus.zeroCountFault hbus).trans hok.2⟩
    (badLength_eq_false hne heven) (by rw [hbus]; exact hold)
  rw [hbus] at ht
  exact ⟨_, (hrcnt.append hswap).runs, congrArg Bus.activeBase ht, congrArg Bus.dataReadAddr ht,
    congrArg Bus.dataTransCount ht, congrArg Bus.dataBusy ht, hword⟩

/-! ## When a `SWAP` takes effect -/

section

variable {s : State} {b : BitVec 4} {addr len : Word}

/-- A re-arm due with no fault flag set, once a `SWAP` is complete, starts the pass of the new buffer, whatever else the
bus has gone through since. -/
theorem leadsTo_rearm_after_swap (x : Bus) (hready : ready s) (hwf : s.mem.wf = true)
    (hcount : s.buses.length = s.cfg.nbus) (hb : b.toNat < s.cfg.nbus) (hpend : x.rcntPend = true)
    (hrun : dmaHalted x = false) (hne : len ≠ 0) :
    ∃ t p, LeadsTo (rearmEvents s.cfg.handoff b.toNat) ((s.swapped b addr len).setBus b.toNat x) t
      ∧ t.bus b.toNat = restartedBus len addr p x ∧ t.status = 0 ∧ t.hstate = .idle := by
  have hin : b.toNat < (s.swapped b addr len).buses.length := by simpa using hcount.symm ▸ hb
  obtain ⟨haddr, hlen⟩ := readWord_writeRecord hwf hready.1 hb addr len
  obtain ⟨p, hrearm⟩ := leadsTo_rearmEvents (s := (s.swapped b addr len).setBus b.toNat x) hready
    (by simpa using hcount) hb (bus_setBus_same _ _ _ hin) hpend hrun haddr hlen hne
  exact ⟨_, p, hrearm, bus_setBus_same _ _ _ (by simpa using hin), rfl, rfl⟩

/-- A `SWAP` while the count re-arm is pending takes effect at it. -/
theorem swap_at_pending_rearm (hready : ready s) (hwf : s.mem.wf = true) (hcount : s.buses.length = s.cfg.nbus)
    (hb : b.toNat < s.cfg.nbus) (hi : s.hstate = .idle) (hpend : (s.bus b.toNat).rcntPend = true)
    (hok : noFault s b.toNat) (hl : badLength len = false) :
    ∃ t p, LeadsTo (swapEvents s.cfg.handoff b addr len ++ rearmEvents s.cfg.handoff b.toNat) s t
      ∧ t.bus b.toNat = restartedBus len addr p (retain addr len (s.bus b.toNat)) ∧ t.status = 0
      ∧ t.hstate = .idle := by
  have hswap := leadsTo_swapEvents (addr := addr) hready hb hi hl
  obtain ⟨t, p, hrearm, ht⟩ := leadsTo_rearm_after_swap (addr := addr) (retain addr len (s.bus b.toNat)) hready hwf
    hcount hb hpend (dmaHalted_eq_false_iff.2 hok) (badLength_ne_zero hl)
  rw [← bus_swapped addr len (hcount.symm ▸ hb), setBus_bus_self] at hrearm
  exact ⟨t, p, hswap.append hrearm, ht⟩

/-- A `SWAP` during a pass leaves its bytes to the data channel and takes effect at the re-arm after them. -/
theorem swap_during_pass {k : Nat} (h : CanDeliver s b.toNat k) (hwf : s.mem.wf = true) (hi : s.hstate = .idle)
    (hk : k = (s.bus b.toNat).dataTransCount.toNat) (hl : badLength len = false) :
    ∃ t p, LeadsTo (swapEvents s.cfg.handoff b addr len ++ List.replicate k (.data b.toNat)
          ++ rearmEvents s.cfg.handoff b.toNat) s t
      ∧ t.bus b.toNat = restartedBus len addr p
          (deliveredBus (s.swapped b addr len).mem k (retain addr len (s.bus b.toNat))) := by
  have hswap := leadsTo_swapEvents (addr := addr) h.isReady h.inRange hi hl
  have hbus := bus_swapped addr len (h.busCount.symm ▸ h.inRange)
  have hpass : CanDeliver (s.swapped b addr len) b.toNat k := {
    isReady := h.isReady
    busCount := by simpa using h.busCount
    inRange := h.inRange
    busy := by rw [hbus]; exact h.busy
    healthy := by rw [noFault, hbus]; exact h.healthy
    withinCount := by rw [hbus]; exact h.withinCount
    count_pos := by rw [hbus]; exact h.count_pos
    room := by rw [hbus]; exact h.room
    backed := by rw [hbus]; exact h.backed }
  have hdeliver := hpass.leadsTo
  rw [hbus] at hdeliver
  obtain ⟨t, p, hrearm, ht, -⟩ := leadsTo_rearm_after_swap (addr := addr)
    (deliveredBus (s.swapped b addr len).mem k (retain addr len (s.bus b.toNat))) h.isReady hwf h.busCount h.inRange
    (Bool.or_eq_true_iff.2 (.inr (decide_eq_true hk))) (dmaHalted_eq_false_iff.2 h.healthy) (badLength_ne_zero hl)
  exact ⟨t, p, (hswap.append hdeliver).append hrearm, ht⟩

/-- A byte outside the record is not written by the `SWAP` of the record's bus. -/
theorem read_swapped {a : Nat} (h : ¬ inRcb s.cfg b.toNat a) : (s.swapped b addr len).mem.read a = s.mem.read a := by
  unfold inRcb at h
  exact (Memory.read_writeWord_other _ _ (by omega)).trans (Memory.read_writeWord_other _ _ (by omega))

end

/-- Settles O54: the whole `SWAP` and re-arm, without and with a run of the data channel between them; and the progress
of the ring over an undisturbed run. -/
theorem swapAppliesAtTheNextRearm : Obligations.SwapAppliesAtTheNextRearm := by
  unfold Obligations.SwapAppliesAtTheNextRearm
  refine ⟨?_, ?_, ?_⟩
  · intro s b addr len hready hwf hcount hb hi hpend hok hne heven
    obtain ⟨t, p, hrun, ht, hstatus, hidle⟩ := swap_at_pending_rearm (addr := addr) hready hwf hcount hb hi hpend hok
      (badLength_eq_false hne heven)
    exact ⟨_, hrun.runs, congrArg Bus.activeBase ht, congrArg Bus.dataReadAddr ht, congrArg Bus.dataTransCount ht,
      congrArg Bus.dataBusy ht, (congrArg Bus.txq ht).trans rfl, hstatus, hidle⟩
  · intro s b addr len k hready hwf hcount hb hi hbusy hk hpos hok hne heven hroom hbytes
    have h : CanDeliver s b.toNat k :=
      ⟨hready, hcount, hb, hbusy, hok, hk.le, hk ▸ hpos, hroom, fun i hik => (hbytes i hik).1⟩
    obtain ⟨t, p, hrun, ht⟩ := swap_during_pass (addr := addr) h hwf hi hk (badLength_eq_false hne heven)
    refine ⟨_, hrun.runs, congrArg Bus.activeBase ht, congrArg Bus.dataReadAddr ht, congrArg Bus.dataTransCount ht,
      congrArg Bus.dataBusy ht, (congrArg Bus.txq ht).trans (congrArg ((s.bus b.toNat).txq ++ ·) ?_)⟩
    exact List.map_congr_left fun i hik => read_swapped (hbytes i (List.mem_range.1 hik)).2
  · intro s u b n hm hv hb hno hbusy hrun hok
    have hne := (hm.busOk b hb).busyCount hbusy
    have hstart : OnTheWay (s.bus b) _ _ b 0 s :=
      ⟨hm, hv, hb, hno, rfl, rfl, .reading (by bv_omega) hbusy rfl (by simp) (by simp)⟩
    have hend := (hstart.run hrun hok).progress
    rw [Nat.zero_add] at hend
    exact ⟨hend.of_lt, hend.of_eq, hend.of_gt⟩

end Sys2Proof.Proofs.DmaRing
end

section
/-! SUPPORT. Laws the statements on the channel commands use: words and records read back byte by byte (R75, R77),
commands rejected for their length (R201, R231), the value `RDREG` returns (R205), a byte of `UPDPWR` and its whole loop
(R204), and what a step keeps of the clock and the retained buffer of a bus (R207). -/

namespace Sys2Proof.Machine

open Sys2Proof.Claims

section

variable {s u : State} {b a i : Nat} {k : BitVec 4} {m : Memory} {v : Byte} {word addr len : Word} {r : BitVec 12}
  {g : Reg}

/-! ## Words and records in memory -/

/-- The word just written, byte by byte (R75). -/
theorem wordAt_of_writeWord (hu : u.mem = m.writeWord a word) (hwf : m.wf = true) (ha : a + 4 ≤ 2 ^ 32) :
    wordAt u a word := by
  intro j hj
  rw [hu]
  exact Memory.read_writeWord_same word hwf ha hj

/-- Writing a word keeps every byte outside it. -/
theorem bytesKeptOutside_of_writeWord (hu : u.mem = s.mem.writeWord a word) : bytesKeptOutside a 4 s u := by
  intro c hc
  rw [hu]
  exact Memory.read_writeWord_other _ _ hc

/-- Writing both words of the record of a bus leaves them there and keeps every byte outside it (R77). -/
theorem record_of_writeRecord (hc : cfgWf s.cfg = true) (hb : b < s.cfg.nbus) (hwf : s.mem.wf = true)
    (hu : u.mem = (s.mem.writeWord (rcbAddr s.cfg b) addr).writeWord (rcbAddr s.cfg b + 4) len) :
    wordAt u (rcbAddr s.cfg b) addr ∧ wordAt u (rcbAddr s.cfg b + 4) len
      ∧ bytesKeptOutside (rcbAddr s.cfg b) 8 s u := by
  have hroom := backedRange_bound (rcb_backed hc hb).2
  refine ⟨fun j hj => ?_, ?_, fun c hout => ?_⟩
  · rw [hu, Memory.read_writeWord_other _ _ (by omega)]
    exact Memory.read_writeWord_same addr hwf (by omega) hj
  · exact wordAt_of_writeWord hu (Memory.writeWord_wf _ hwf (by omega)) (by omega)
  · rw [hu, Memory.read_writeWord_other _ _ (by omega), Memory.read_writeWord_other _ _ (by omega)]

/-! ## Rejected lengths, and `RDREG` -/

/-- At an idle port the rejection of a length writes `STATUS` and nothing else (R231). -/
theorem finish_invalidBufferLength_of_idle (h : s.hstate = .idle) :
    s.finish .invalidBufferLength = { s with status := 1 } := by
  simp [State.finish, Status.code, ← h]

theorem exec_play_of_badLength (hk : k.toNat < s.cfg.nbus) (hl : badLength s.arg1 = true) :
    exec (.play k) s = .next (s.finish .invalidBufferLength) := by
  simp [exec, execPlay, State.hasBus, State.bufLen, hk, hl]

theorem exec_swap_of_badLength (hk : k.toNat < s.cfg.nbus) (hl : badLength s.arg1 = true) :
    exec (.swap k) s = .next (s.finish .invalidBufferLength) := by
  simp [exec, execSwap, State.hasBus, State.bufLen, hk, hl]

/-- `RDREG` of a register in scope returns its value; at an idle port it writes `RESULT` and `STATUS` and nothing else
(R205). -/
theorem exec_rdreg_of_named (hi : s.hstate = .idle) (hk : k.toNat < s.cfg.nbus) (hr : regOf r = some g)
    (hscope : g.isGlobal = false ∨ k = 0) :
    exec (.rdreg k r) s = .next { s with result := regValue s k.toNat g, status := 0 } := by
  have hbus : s.hasBus k.toNat = true := decide_eq_true hk
  have hread : readReg s k.toNat r = some (regValue s k.toNat g) := by
    rw [readReg, hr, hbus]
    obtain hscope | rfl := hscope
    · simp [hscope]
    · simp
  simp [exec, execRdreg, hread, State.finish, Status.code, ← hi]

/-- `RDREG` of a register field that is bad for its bus is rejected; at an idle port it writes `STATUS` and nothing else
(R205). -/
theorem exec_rdreg_of_badFields (hi : s.hstate = .idle) (h : badFields s.cfg.nbus 5 k r) :
    exec (.rdreg k r) s = .next { s with status := 2 } := by
  rw [exec_of_not_wf (i := .rdreg k r) (regNamed_eq_false_of_badFields h), finish_invalidCommand_of_idle hi]

/-! ## One byte of `UPDPWR` -/

/-- The low byte of a value that is not negative is that of its word. -/
theorem ofNat_toInt_eq_lowByte (hneg : ¬ word.toInt < 0) :
    BitVec.ofNat 8 word.toInt.toNat = word.extractLsb' 0 8 := by
  have htoNat : word.toInt.toNat = word.toNat := by
    rw [BitVec.toInt_eq_toNat_cond] at hneg ⊢
    split <;> omega
  apply BitVec.eq_of_toNat_eq
  simp [htoNat]

/-- The clamp, in the words of R204. -/
theorem clampLevel_eq_clamped (word : Word) : clampLevel word = clamped word := by
  unfold clampLevel clamped
  split_ifs with hneg hbig
  · rw [max_eq_left (by omega)]
    rfl
  · rw [min_eq_right (by omega)]
    rfl
  · rw [min_eq_left (by omega), max_eq_right (by omega)]
    exact ofNat_toInt_eq_lowByte hneg

/-- `UPDPWR`'s byte write at a backed address (R204). -/
theorem updpwrIter_of_backed (hw : backedByte s.cfg (powerAddr (s.bus b) i) = true) (v : Byte) :
    updpwrIter b i v s = .next (afterPower b i v s) := by
  obtain ⟨t, ht⟩ := updpwrIter_answers hw v
  rw [ht, (updpwrIter_next ht).2]

/-- The issue of `UPDPWR` with a retained buffer is its first byte (R204). -/
theorem exec_updpwr_of_retained (hk : k.toNat < s.cfg.nbus) (hlen : (s.bus k.toNat).curLen ≠ 0)
    (hw : backedByte s.cfg (powerAddr (s.bus k.toNat) 1) = true) :
    exec (.updpwr k) s = .next (afterPower k.toNat 1 (clamped s.arg0) s) := by
  rw [← updpwrIter_of_backed hw, ← clampLevel_eq_clamped]
  simp only [exec, execUpdpwr, State.hasBus, hk, hlen, decide_true, Bool.not_true, Bool.false_eq_true, if_false]

/-- The issue of `UPDPWR` with none retained ends at once (R204). -/
theorem exec_updpwr_of_none (hk : k.toNat < s.cfg.nbus) (hlen : (s.bus k.toNat).curLen = 0) :
    exec (.updpwr k) s = .next (s.finish .ok) := by
  simp [exec, execUpdpwr, State.hasBus, hk, hlen]

/-- Of memory `UPDPWR`'s byte write changes that byte only (R204). -/
theorem read_afterPower (hwf : s.mem.wf = true) :
    (afterPower b i v s).mem.read (powerAddr (s.bus b) i) = v
      ∧ ∀ c, c ≠ powerAddr (s.bus b) i → (afterPower b i v s).mem.read c = s.mem.read c := by
  rw [afterPower_eq]
  exact ⟨Memory.read_write_same v hwf, fun c hne => Memory.read_write_other s.mem v hne⟩

/-- A host step with `UPDPWR` in progress writes a further byte (R204). -/
theorem leadsTo_updpwrLoop (hready : ready s) (hi : s.hstate = .updpwr b i v)
    (hw : backedByte s.cfg (powerAddr (s.bus b) i) = true) : LeadsTo [.hostLoop] s (afterPower b i v s) :=
  .of_turn hready fun rest => by
    rw [perform, outcome_done, hostLoopTurn, hi, afterPower_eq]
    exact (updpwrIter_of_backed (s := { s with script := rest }) hw v).trans (congrArg _ (afterPower_eq _ _ _ _))

end

section

variable {s : State} {x : Bus} {b c n : Nat} {k : BitVec 4} {m : Memory} {v : Byte} {level : Word}

/-! ## The loop of `UPDPWR` -/

/-- Memory once `UPDPWR` has written its first `n` bytes, those of the indices below `2 * n`. -/
def powerMem (m : Memory) (x : Bus) (v : Byte) : Nat → Memory
  | 0 => m
  | n + 1 => (powerMem m x v n).write (powerAddr x (2 * n + 1)) v

theorem powerMem_wf (hwf : m.wf = true) (x : Bus) (v : Byte) (n : Nat) : (powerMem m x v n).wf = true := by
  induction n with
  | zero => exact hwf
  | succ n ih => exact Memory.write_wf v ih (Nat.mod_lt _ (by decide))

/-- Every odd index below `2 * n` reads as the value written: a later write at the same address, if there were one,
would write the same. -/
theorem read_powerMem_same (hwf : m.wf = true) {i : Nat} (hodd : i % 2 = 1) (hi : i < 2 * n) :
    (powerMem m x v n).read (powerAddr x i) = v := by
  induction n with
  | zero => omega
  | succ n ih =>
    by_cases heq : powerAddr x i = powerAddr x (2 * n + 1)
    · rw [heq]
      exact Memory.read_write_same v (powerMem_wf hwf x v n)
    · have hne : i ≠ 2 * n + 1 := fun e => heq (congrArg (powerAddr x) e)
      exact (Memory.read_write_other _ v heq).trans (ih (by omega))

/-- No other byte is written. -/
theorem read_powerMem_other (h : ∀ i, i % 2 = 1 → i < 2 * n → c ≠ powerAddr x i) :
    (powerMem m x v n).read c = m.read c := by
  induction n with
  | zero => rfl
  | succ n ih =>
    have hlast : c ≠ powerAddr x (2 * n + 1) := h _ (by omega) (by omega)
    exact (Memory.read_write_other _ v hlast).trans (ih fun i hodd hi => h i hodd (by omega))

/-- The state once an `UPDPWR` of bus `b` has written its first `n` bytes: at the next odd index, or ended (R204). -/
def State.powered (s : State) (b : Nat) (v : Byte) (n : Nat) : State :=
  { s with
    mem := powerMem s.mem (s.bus b) v n
    hstate := if 2 * n + 1 < (s.bus b).curLen.toNat then .updpwr b (2 * n + 1) v else .idle
    status := if 2 * n + 1 < (s.bus b).curLen.toNat then s.status else 0 }

/-- With no odd index left the command has ended. -/
theorem powered_of_done (h : (s.bus b).curLen.toNat ≤ 2 * n + 1) :
    s.powered b v n = { s with mem := powerMem s.mem (s.bus b) v n, hstate := .idle, status := 0 } := by
  unfold State.powered
  rw [if_neg h.not_gt, if_neg h.not_gt]

/-- A host step with an odd index left writes one byte more. -/
theorem leadsTo_powered_succ (hready : ready s) (hn : 2 * n + 1 < (s.bus b).curLen.toNat)
    (hw : backedByte s.cfg (powerAddr (s.bus b) (2 * n + 1)) = true) :
    LeadsTo [.hostLoop] (s.powered b v n) (s.powered b v (n + 1)) := by
  have hi : (s.powered b v n).hstate = .updpwr b (2 * n + 1) v := if_pos hn
  have hstatus : (s.powered b v n).status = s.status := if_pos hn
  have hnext : afterPower b (2 * n + 1) v (s.powered b v n) = s.powered b v (n + 1) := by
    rw [afterPower_eq, hstatus]
    rfl
  rw [← hnext]
  exact leadsTo_updpwrLoop hready hi hw

/-- Host steps with an odd index left for each write as many bytes more, by induction on their number. -/
theorem leadsTo_powered (hready : ready s) (hn : 2 * n + 1 < (s.bus b).curLen.toNat)
    (hw : ∀ i, i % 2 = 1 → i < (s.bus b).curLen.toNat → backedByte s.cfg (powerAddr (s.bus b) i) = true) :
    LeadsTo (List.replicate n .hostLoop) (s.powered b v 1) (s.powered b v (n + 1)) := by
  induction n with
  | zero => exact .nil
  | succ n ih =>
    rw [List.replicate_succ']
    exact (ih (by omega)).append (leadsTo_powered_succ hready hn (hw _ (by omega) hn))

theorem decode_updpwrWord (k : BitVec 4) : decode (.cmd (0x3#4 ++ k ++ 0#24)) = .ok (.updpwr k) :=
  Proofs.Encoding.decodeInvertsEncode (.updpwr k)

/-- The issue of `UPDPWR` with a retained buffer writes the port and the first byte (R200, R204). -/
theorem leadsTo_updpwrIssue (hready : ready s) (hi : s.hstate = .idle) (hk : k.toNat < s.cfg.nbus)
    (hlen : (s.bus k.toNat).curLen ≠ 0) (hw : backedByte s.cfg (powerAddr (s.bus k.toNat) 1) = true) :
    LeadsTo [.issue (some level) none none (0x3#4 ++ k ++ 0#24)] s
      ((s.portWritten (some level) none none (0x3#4 ++ k ++ 0#24)).powered k.toNat (clamped level) 1) := by
  refine .of_issue hready hi (decode_updpwrWord k) fun rest => ?_
  exact (exec_updpwr_of_retained (s := State.portWritten { s with script := rest } _ _ _ _) hk hlen hw).trans
    (congrArg _ (afterPower_eq _ _ _ _))

/-- The state after a whole `UPDPWR` of bus `k` from an idle port, with the level given in the issue (R204). -/
def State.repowered (s : State) (k : BitVec 4) (level : Word) : State :=
  { s with
    arg0 := level, cmd := 0x3#4 ++ k ++ 0#24
    mem := powerMem s.mem (s.bus k.toNat) (clamped level) ((s.bus k.toNat).curLen.toNat / 2), status := 0 }

/-- Half as many bytes as the buffer is long are all that an `UPDPWR` writes. -/
theorem powered_eq_repowered (hi : s.hstate = .idle) :
    (s.portWritten (some level) none none (0x3#4 ++ k ++ 0#24)).powered k.toNat (clamped level)
      ((s.bus k.toNat).curLen.toNat / 2) = s.repowered k level := by
  rw [powered_of_done (s := State.portWritten _ _ _ _ _) (show (s.bus k.toNat).curLen.toNat ≤ _ by omega), ← hi]
  rfl

/-- With a buffer of an accepted length retained, the issue of `UPDPWR` and the host steps for its other odd indices are
the whole command. -/
theorem leadsTo_updpwr (hready : ready s) (hi : s.hstate = .idle) (hk : k.toNat < s.cfg.nbus)
    (hl : badLength (s.bus k.toNat).curLen = false)
    (hw : ∀ i, i % 2 = 1 → i < (s.bus k.toNat).curLen.toNat →
      backedByte s.cfg (powerAddr (s.bus k.toNat) i) = true) :
    LeadsTo (.issue (some level) none none (0x3#4 ++ k ++ 0#24)
        :: List.replicate ((s.bus k.toNat).curLen.toNat / 2 - 1) .hostLoop) s (s.repowered k level) := by
  have hlong := one_lt_of_badLength hl
  have hissue := leadsTo_updpwrIssue (level := level) hready hi hk (badLength_ne_zero hl) (hw 1 rfl hlong)
  have hloop := leadsTo_powered (n := (s.bus k.toNat).curLen.toNat / 2 - 1) (v := clamped level)
    (s := s.portWritten (some level) none none (0x3#4 ++ k ++ 0#24)) hready
    (show _ < (s.bus k.toNat).curLen.toNat by omega) hw
  rw [Nat.sub_add_cancel (by omega), powered_eq_repowered hi] at hloop
  exact hissue.append hloop

end

section

variable {s : State} {b : Nat} {y : Bus}

/-! ## The clock of a bus -/

/-- Without a `PLAY` of it a bus keeps its clock state (R207). -/
theorem BusCase.clock_kept (hc : BusCase s b y) (hplay : ∀ k p, Issues s (.play k) p → k.toNat ≠ b) :
    y.sampleRate = (s.bus b).sampleRate ∧ y.smFreq = (s.bus b).smFreq ∧ y.rateClamped = (s.bus b).rateClamped
      ∧ y.smEn = (s.bus b).smEn := by
  cases hc with
  | play k p hp hk => exact absurd hk (hplay k p hp)
  | outb => rw [outbBus_frame]; exact ⟨rfl, rfl, rfl, rfl⟩
  | dxfer => rw [dxferBus_frame]; exact ⟨rfl, rfl, rfl, rfl⟩
  | same | nopc | rcntx | rearm | raddrx | swap => exact ⟨rfl, rfl, rfl, rfl⟩

/-- Without a `PLAY` or a `SWAP` of it a bus keeps its retained buffer (R207). -/
theorem BusCase.retained_kept (hc : BusCase s b y) (hplay : ∀ k p, Issues s (.play k) p → k.toNat ≠ b)
    (hswap : ∀ k p, Issues s (.swap k) p → k.toNat ≠ b) :
    y.curAddr = (s.bus b).curAddr ∧ y.curLen = (s.bus b).curLen := by
  obtain hkept | ⟨i, k, p, hp, rfl | rfl, hk, -⟩ := hc.retained_cases
  · exact hkept
  · exact absurd hk (hplay k p hp)
  · exact absurd hk (hswap k p hp)

end

end Sys2Proof.Machine
end

section
/-! PROOFS of the statements on the channel commands (spec 44_channel_commands.md): the issue of a command, `PLAY`,
`SWAP`, `UPDPWR` and `RDREG`, and that nothing else changes the clock and the retained buffer of a bus. -/

namespace Sys2Proof.Proofs.ChannelCommands

open Sys2Proof Sys2Proof.Machine Sys2Proof.Claims

/-! ## The issue of a command -/

/-- Settles O14: the step of an issued command, with the chosen state and the written port spelled out. -/
theorem stepRunsIssuedCommand : Obligations.StepRunsIssuedCommand := by
  unfold Obligations.StepRunsIssuedCommand
  rintro s a0 a1 a2 w rest i ⟨hc, hr⟩ hi hs hd
  have he : s.event = .issue a0 a1 a2 w := by simp [State.event, hs]
  have hn : s.chosen = { s with script := rest } := by simp [State.chosen, hs]
  rw [step_of_issues hc hr (.mk a0 a1 a2 w he hi hd), State.issued, hn]
  rfl

/-! ## `PLAY` and `SWAP` -/

/-- Settles O31: the one bus `PLAY` writes, with its lines driven to the idle code, and the record it writes. -/
theorem playStartsPlayback : Obligations.PlayStartsPlayback := by
  unfold Obligations.PlayStartsPlayback
  intro b s hc hwf hcount hb hne heven
  refine ⟨_, exec_play_of_accepted hc hb (badLength_eq_false hne heven), rfl, setBus_length _ _ _,
    fun b' hother => bus_setBus_other _ _ _ _ hother, ?_, record_of_writeRecord hc hb hwf rfl⟩
  rw [finish_bus, bus_setBus_same _ _ _ (hcount.symm ▸ hb), playBus, drive_eq]
  rfl

/-- Settles O32: the one bus `SWAP` writes, and the record it writes. -/
theorem swapRewritesTheRecord : Obligations.SwapRewritesTheRecord := by
  unfold Obligations.SwapRewritesTheRecord
  intro b s hc hwf hcount hb hh hne heven
  exact ⟨_, exec_swap_of_atomic hc hb (badLength_eq_false hne heven) hh, rfl, setBus_length _ _ _,
    fun b' hother => bus_setBus_other _ _ _ _ hother, bus_setBus_same _ _ _ (hcount.symm ▸ hb),
    record_of_writeRecord hc hb hwf rfl⟩

/-- Settles O33: the one bus `SWAP` writes, and the first word of the record. -/
theorem splitSwapWritesAddressFirst : Obligations.SplitSwapWritesAddressFirst := by
  unfold Obligations.SplitSwapWritesAddressFirst
  intro b s hc hwf hcount hb hh hne heven
  have hroom := backedRange_bound (rcb_backed hc hb).2
  exact ⟨_, exec_swap_of_split hc hb (badLength_eq_false hne heven) hh, rfl, setBus_length _ _ _,
    fun b' hother => bus_setBus_other _ _ _ _ hother, bus_setBus_same _ _ _ (hcount.symm ▸ hb),
    wordAt_of_writeWord rfl hwf (by omega), bytesKeptOutside_of_writeWord rfl⟩

/-- Settles O34: the second word of the record. -/
theorem splitSwapWritesCountSecond : Obligations.SplitSwapWritesCountSecond := by
  unfold Obligations.SplitSwapWritesCountSecond
  intro s b len rest hready hwf hb hi hs
  have hroom := backedRange_bound (rcb_backed hready.1 hb).2
  exact ⟨_, (leadsTo_swapSecond hready hb hi).step hs, rfl, wordAt_of_writeWord rfl hwf (by omega),
    bytesKeptOutside_of_writeWord rfl⟩

/-- Settles O35: a zero or odd length is a bad one, and both commands reject it before they write anything. -/
theorem badLengthRejected : Obligations.BadLengthRejected := by
  unfold Obligations.BadLengthRejected
  intro b s hb hi hlen
  have hl : badLength s.arg1 = true := Bool.or_eq_true_iff.2 (hlen.imp_left beq_iff_eq.2)
  rw [exec_play_of_badLength hb hl, exec_swap_of_badLength hb hl, finish_invalidBufferLength_of_idle hi]
  exact ⟨rfl, rfl⟩

/-! ## `UPDPWR` -/

/-- Settles O37: with no buffer retained, and with one. -/
theorem updpwrIssueWritesFirstPowerByte : Obligations.UpdpwrIssueWritesFirstPowerByte := by
  unfold Obligations.UpdpwrIssueWritesFirstPowerByte
  intro b s hb hwf
  refine ⟨exec_updpwr_of_none hb, fun hlen hw => ⟨_, exec_updpwr_of_retained hb hlen hw, ?_, read_afterPower hwf⟩⟩
  rw [afterPower_eq]

/-- Settles O38: the host step writes a further byte. -/
theorem updpwrLoopWritesOneByte : Obligations.UpdpwrLoopWritesOneByte := by
  unfold Obligations.UpdpwrLoopWritesOneByte
  intro s b i v rest hready hwf hi hs hw
  refine ⟨_, (leadsTo_updpwrLoop hready hi hw).step hs, ?_, read_afterPower hwf⟩
  rw [afterPower_eq]

/-- Settles O40: the issue and the loop steps write the odd indices of the buffer one by one. -/
theorem updpwrOverwritesEveryPowerByte : Obligations.UpdpwrOverwritesEveryPowerByte := by
  unfold Obligations.UpdpwrOverwritesEveryPowerByte
  intro s b level hready hwf hi hb hne heven hw
  have hrun := (leadsTo_updpwr (level := level) hready hi hb (badLength_eq_false hne heven) hw).runs
  have hend : 2 * ((s.bus b.toNat).curLen.toNat / 2) = (s.bus b.toNat).curLen.toNat :=
    Nat.mul_div_cancel' (Nat.dvd_of_mod_eq_zero (toNat_mod_two_of_bit0 heven))
  refine ⟨_, hrun, rfl, fun i hodd hlt => ?_, fun a hout => ?_⟩
  · exact read_powerMem_same hwf hodd (hend.symm ▸ hlt)
  · exact read_powerMem_other fun i hodd hlt => hout i hodd (hend ▸ hlt)

/-! ## `RDREG` -/

/-- Settles O41: register by register, and the three ways in which the fields are bad. -/
theorem rdregReturnsTheRegister : Obligations.RdregReturnsTheRegister := by
  unfold Obligations.RdregReturnsTheRegister
  intro b s hi
  refine ⟨fun hb => ?_, fun hb hzero => ?_, fun hne r hr => ?_, fun r hbus hglobal => ?_, fun hb r => ?_⟩
  · have read (g : Reg) {r : BitVec 12} (hr : regOf r = some g) (hscope : g.isGlobal = false) :=
      exec_rdreg_of_named hi hb hr (.inl hscope)
    simp only [List.forall_mem_cons, List.not_mem_nil, false_imp_iff, implies_true, and_true]
    exact ⟨read .smStatus rfl rfl, read .smFreq rfl rfl, read .sampleRate rfl rfl, read .pins rfl rfl,
      read .dataReadAddr rfl rfl, read .dataTransCount rfl rfl, read .dmaStatus rfl rfl, read .activeBase rfl rfl,
      read .curAddr rfl rfl, read .curLen rfl rfl, read .rcbAddr rfl rfl⟩
  · have read (g : Reg) {r : BitVec 12} (hr : regOf r = some g) := exec_rdreg_of_named hi hb hr (.inr hzero)
    simp only [List.forall_mem_cons, List.not_mem_nil, false_imp_iff, implies_true, and_true]
    exact ⟨read .qesStatus rfl, read .dropCount rfl, read .acc rfl⟩
  · exact exec_rdreg_of_badFields hi (.inr (.inr ⟨rfl, hr, hne⟩))
  · exact exec_rdreg_of_badFields hi (.inr (.inl ⟨rfl, hbus, hglobal⟩))
  · exact exec_rdreg_of_badFields hi (.inl ⟨by decide, hb⟩)

/-! ## What the other steps keep -/

/-- Settles O56, from what a step can make of one bus. -/
theorem onlyPlayAndSwapMutateTheChannel : Obligations.OnlyPlayAndSwapMutateTheChannel := by
  unfold Obligations.OnlyPlayAndSwapMutateTheChannel
  intro s t b h hplay
  have hc := bus_cases h b
  obtain ⟨hrate, hfreq, hclamped, hon⟩ := hc.clock_kept (not_issues_play hplay)
  exact ⟨hrate, hfreq, hclamped, hon, fun hswap => hc.retained_kept (not_issues_play hplay) (not_issues_swap hswap)⟩

end Sys2Proof.Proofs.ChannelCommands
end

section
/-! PROOFS of the statement on faults (spec 60_exceptions.md): the ring of a faulted bus is halted. -/

namespace Sys2Proof.Proofs.Exceptions

open Sys2Proof Sys2Proof.Machine Sys2Proof.Claims

/-- Settles O48: either flag halts the ring, and each of the three channels has a step only while it is not halted. -/
theorem faultHaltsTheRing : Obligations.FaultHaltsTheRing := by
  unfold Obligations.FaultHaltsTheRing
  intro s b e rest hready hfault he hs
  have hhalted : ¬ dmaHalted (s.bus b) = false := ne_false_of_eq_true (Bool.or_eq_true_iff.2 hfault)
  obtain rfl | rfl | rfl := he
  · refine (leadsTo_self_of_data hready fun hen => ?_).step hs
    obtain ⟨-, -, -, hok⟩ := dxferEnabled_iff.1 hen
    exact hhalted hok
  · refine (leadsTo_self_of_rcnt hready fun hen => ?_).step hs
    obtain ⟨-, hok⟩ := rcntEnabled_iff.1 hen
    exact hhalted hok
  · refine (leadsTo_self_of_raddr hready fun hen => ?_).step hs
    obtain ⟨-, -, hok⟩ := raddrEnabled_iff.1 hen
    exact hhalted hok

end Sys2Proof.Proofs.Exceptions
end
